-- ==== Sys2Proof/Word.lean ====
section
/-! DEFINITION. The words of the hardware: register words, binary32 words, command words, register numbers, index fields. -/

namespace Sys2Proof

/-- A register word, 32 bits (20_memory.md R60). -/
abbrev Word := BitVec 32

/-- A `Num` under `NUMERICS = F32`: the 32-bit word of a binary32 number, sign in bit 31, exponent in
bits 30:23, fraction in bits 22:0 (00_scope.md R11, 20_memory.md R63). -/
abbrev NumWord := BitVec 32

/-- A command word, 16 bits (30_encoding.md R80). -/
abbrev Cmd := BitVec 16

/-- A register number, 8 bits (20_memory.md R60). -/
abbrev RegNum := BitVec 8

/-- The `idx` field of a command word, 4 bits (30_encoding.md R80). -/
abbrev Idx := BitVec 4

end Sys2Proof
end

