-- ==== Sys2Proof/Syntax.lean ====
section
/-! DEFINITION. The instruction set: one constructor per row of spec/opcode_table.json. Every row has
mask 0xFFF0, so every constructor carries the 4-bit `idx` field as the word gives it
(30_encoding.md R80, R82). -/

namespace Sys2Proof

/-- The 19 commands of AKV-CORE command set 1.0 (30_encoding.md R82), each with its `idx` field. -/
inductive Instr where
  | nop (idx : Idx)
  | wtBuild (idx : Idx)
  | wtLookup (idx : Idx)
  | phAdv (idx : Idx)
  | phRst (idx : Idx)
  | frqCv (idx : Idx)
  | wgSint (idx : Idx)
  | wgSind (idx : Idx)
  | wgTri (idx : Idx)
  | wgSaw (idx : Idx)
  | wgSqr (idx : Idx)
  | pwMod (idx : Idx)
  | hbTick (idx : Idx)
  | envStep (idx : Idx)
  | envRst (idx : Idx)
  | fltProc (idx : Idx)
  | cutMod (idx : Idx)
  | vgBank (idx : Idx)
  | vgTrio (idx : Idx)
deriving DecidableEq, Repr

/-- The index field of a command. -/
def Instr.idx : Instr → Idx
  | .nop idx | .wtBuild idx | .wtLookup idx | .phAdv idx | .phRst idx | .frqCv idx | .wgSint idx
  | .wgSind idx | .wgTri idx | .wgSaw idx | .wgSqr idx | .pwMod idx | .hbTick idx | .envStep idx
  | .envRst idx | .fltProc idx | .cutMod idx | .vgBank idx | .vgTrio idx => idx

end Sys2Proof
end

