-- ==== Sys2Proof/WellFormed.lean ====
section
/-! DEFINITION. Which commands are legal: the index limits of 30_encoding.md R83. -/

namespace Sys2Proof

/-- `LIMIT(op)`: the number of legal values of `idx` (30_encoding.md R83). -/
def Instr.limit : Instr → Nat
  | .nop _ => 1
  | .wtBuild _ => 1
  | .wtLookup _ => 11
  | .phAdv _ => 11
  | .phRst _ => 11
  | .frqCv _ => 3
  | .wgSint _ => 11
  | .wgSind _ => 11
  | .wgTri _ => 11
  | .wgSaw _ => 11
  | .wgSqr _ => 11
  | .pwMod _ => 3
  | .hbTick _ => 1
  | .envStep _ => 3
  | .envRst _ => 3
  | .fltProc _ => 3
  | .cutMod _ => 3
  | .vgBank _ => 1
  | .vgTrio _ => 1

/-- A command is well formed when its index is below its limit; every other index raises `F_IDX`
(30_encoding.md R81, R84). -/
def Instr.wellFormed (i : Instr) : Bool :=
  decide (i.idx.toNat < i.limit)

end Sys2Proof
end

