-- ==== Sys2Proof/Decode.lean ====
section
/-! DEFINITION. Decoding of a command word, total on all 65536 words (30_encoding.md R81), and the
encoder, both from the opcode map of R82. -/

namespace Sys2Proof

/-- Why a word is no command: its `op` is not one of the 19 opcodes or its `z` field is not 0
(30_encoding.md R84). The machine raises `F_ILL` for it. -/
inductive DecodeError where
  | illegal
deriving DecidableEq, Repr

/-- The `op` field, bits 15:8 (30_encoding.md R80). -/
def opField (w : Cmd) : BitVec 8 := w.extractLsb' 8 8

/-- The `z` field, bits 7:4. -/
def zField (w : Cmd) : BitVec 4 := w.extractLsb' 4 4

/-- The `idx` field, bits 3:0. -/
def idxField (w : Cmd) : Idx := w.extractLsb' 0 4

/-- One row of the opcode map: the opcode and the command it names. -/
structure OpRow where
  op : BitVec 8
  command : Idx → Instr

/-- The opcode map (30_encoding.md R82), in the document's order. -/
def opcodeMap : List OpRow :=
  [⟨0x00, .nop⟩,
   ⟨0x10, .wtBuild⟩, ⟨0x11, .wtLookup⟩,
   ⟨0x20, .phAdv⟩, ⟨0x21, .phRst⟩, ⟨0x22, .frqCv⟩,
   ⟨0x30, .wgSint⟩, ⟨0x31, .wgSind⟩, ⟨0x32, .wgTri⟩, ⟨0x33, .wgSaw⟩, ⟨0x34, .wgSqr⟩, ⟨0x35, .pwMod⟩,
   ⟨0x40, .hbTick⟩,
   ⟨0x50, .envStep⟩, ⟨0x51, .envRst⟩,
   ⟨0x60, .fltProc⟩, ⟨0x61, .cutMod⟩,
   ⟨0x70, .vgBank⟩, ⟨0x71, .vgTrio⟩]

/-- The row an opcode selects, if it is assigned. -/
def opRow? (op : BitVec 8) : Option OpRow :=
  opcodeMap.find? (fun r => r.op == op)

/-- Decoding (30_encoding.md R81): an unassigned `op` or a non-zero `z` is illegal; every other word is
its row's command with the `idx` field as it stands. That an index at or above its limit raises `F_IDX`
is part of each command's meaning (DESIGN CHOICE, log 16). -/
def decode (w : Cmd) : Except DecodeError Instr :=
  if zField w = 0 then
    match opRow? (opField w) with
    | some r => .ok (r.command (idxField w))
    | none => .error .illegal
  else .error .illegal

/-- The opcode of a command (30_encoding.md R82). -/
def Instr.opcode : Instr → BitVec 8
  | .nop _ => 0x00
  | .wtBuild _ => 0x10
  | .wtLookup _ => 0x11
  | .phAdv _ => 0x20
  | .phRst _ => 0x21
  | .frqCv _ => 0x22
  | .wgSint _ => 0x30
  | .wgSind _ => 0x31
  | .wgTri _ => 0x32
  | .wgSaw _ => 0x33
  | .wgSqr _ => 0x34
  | .pwMod _ => 0x35
  | .hbTick _ => 0x40
  | .envStep _ => 0x50
  | .envRst _ => 0x51
  | .fltProc _ => 0x60
  | .cutMod _ => 0x61
  | .vgBank _ => 0x70
  | .vgTrio _ => 0x71

/-- The command word of a command: `(op << 8) | idx`, `z` zero (30_encoding.md R80, R86). -/
def encode (i : Instr) : Cmd :=
  i.opcode ++ (0#4 ++ i.idx)

/-- The command in a table row's bits: a command is one 16-bit word, handed over whole
(20_memory.md R63), so bits above the row's `nbits` are 0. -/
def decodeTableWord (nbits w : Nat) : Option Instr :=
  (decode (BitVec.ofNat 16 (w % 2 ^ nbits))).toOption

end Sys2Proof
end

