-- ==== Sys2Proof/Config.lean ====
section
/-! DEFINITION. What is fixed for a run and is not state (00_scope.md R7, 10_state.md R20): the number
type `Num` with its operations (the parameter `NUMERICS`), the OPEN parameters, and the free constants
that stand for the OPEN parameters of this hardware. -/

namespace Sys2Proof

/-- Why a computation gives no value. `nan`: an operation had a NaN operand or a NaN result
(00_scope.md R13). `noValue`: a wavetable cell that holds no value was read (10_state.md R37). -/
inductive Stop where
  | nan
  | noValue
deriving DecidableEq, Repr

/-- A computation of the block: a value, or the reason there is none. -/
abbrev Calc (α : Type) := Except Stop α

/-- The parameter `NUMERICS`: a number type `ν` with the operations the rules write (00_scope.md R11).
Every rule of files 40 to 46 is written once over such a record; `f32` (Machine/Float.lean) is the
hardware's reading and `reals` (Machine/Reals.lean) the reference reading. -/
structure Numerics (ν : Type) where
  add : ν → ν → Calc ν
  sub : ν → ν → Calc ν
  mul : ν → ν → Calc ν
  div : ν → ν → Calc ν
  /-- `a < b` -/
  lt : ν → ν → Calc Bool
  /-- `a ≤ b` -/
  le : ν → ν → Calc Bool
  /-- the greatest integer not above the argument; `none` for an infinity, which has none -/
  floor : ν → Calc (Option Int)
  /-- the decimal constant `n / d` of a rule, rounded once; `lit n 1` converts an integer -/
  lit : Nat → Nat → ν
  /-- the constant `-1` -/
  minusOne : ν
  /-- applying a configuration function, an operation like the others (NaN stops) -/
  app : (ν → ν) → ν → Calc ν

/-- The three fixed harmonic frequency tables (43_harmonic_bank.md R136). -/
inductive HarmTable where
  | standard
  | logSpaced
  | sqrtSpaced
deriving DecidableEq, Repr

/-- The configuration of 00_scope.md R7: the parameters marked OPEN there, and the functions and the
constant that stand for `sin(2π·x)`, `2^x` and `π`. -/
structure Config (ν : Type) where
  wtSize : Int
  wtAmp : ν
  baseFreq : ν
  epsDiv : ν
  ftab : HarmTable → Fin 8 → ν
  fltK : ν
  cutCvGain : ν
  /-- `SIN2PI` (00_scope.md R11, R12) -/
  sin2pi : ν → ν
  /-- `EXP2` (00_scope.md R11, R12) -/
  exp2 : ν → ν
  /-- `PI` (00_scope.md R12) -/
  pi : ν
  /-- The integer standing for the floor of an infinite product in `wt_index`, which the spec does not
  state. DESIGN CHOICE, log 14. -/
  floorInf : ν → Int

/-- A monotone function on the integers: the identity, or any function with a proof that it is monotone.
(The first constructor only serves to derive that the type has an element.) -/
inductive MonoFn where
  | ident
  | mk (f : Int → Int) (mono : ∀ a b : Int, a ≤ b → f a ≤ f b)
deriving Inhabited

/-- The row of the table in `FTAB`: the number `m - 1` of 00_scope.md R7. -/
def HarmTable.row : HarmTable → Fin 3
  | .standard => 0
  | .logSpaced => 1
  | .sqrtSpaced => 2

/-- The parameters that 00_scope.md R7 marks OPEN, under `NUMERICS = F32`, as plain data: the argument the model
takes. -/
structure OpenParams where
  wtSize : Int
  wtAmp : NumWord
  baseFreq : NumWord
  epsDiv : NumWord
  /-- `FTAB[m][i]`, the row `m - 1` -/
  ftab : Vector (Vector NumWord 8) 3
  fltK : NumWord
  cutCvGain : NumWord
deriving DecidableEq, Repr

/-- A choice of the OPEN parameters within R7's constraints: a number that is `> 0` by its magnitude word less one,
a number that is `≥ 0` by -0 or its magnitude word, infinity among both; the others as they are. -/
structure FreeParams where
  wtSize : Int
  wtAmp : NumWord
  baseFreq : Fin 0x7F800000
  epsDiv : Fin 0x7F800000
  ftab : Vector (Vector (Fin 0x7F800000) 8) 3
  fltK : Option (Fin 0x7F800001)
  cutCvGain : NumWord
deriving Inhabited

/-! The free constants. None has a body: nothing can be proved of their values but what their types
say. Machine/Params.lean builds the hardware's configuration from them; log 3 to 6 and 14. -/

/-- The free choice of the OPEN parameters that a run starts with (log 3, 4, 19). -/
opaque Config.freeParams : FreeParams

/-- Free sign and magnitude word, at most that of 1.0, behind `SIN2PI` at a finite argument (log 5). -/
opaque Config.freeSin : NumWord → Bool × Fin 0x3F800001

/-- Free word behind `SIN2PI` at an infinite argument, of which the spec says nothing (log 5). -/
opaque Config.freeSinInf : NumWord → NumWord

/-- Free monotone function on order keys behind `EXP2` (log 6). -/
opaque Config.freeExp2 : MonoFn

/-- Free integer for the floor of an infinite product (log 14). -/
opaque Config.freeFloorInf : NumWord → Int

end Sys2Proof
end

