-- ==== Sys2Proof/Machine/Float.lean ====
section
/-! DEFINITION. The number type under `NUMERICS = F32`: IEEE 754 binary32, each operation rounded once to
nearest, ties to even (00_scope.md R11, R13; 20_memory.md R63; log 2).

Every finite binary32 number is an integer multiple of 2^-149, its UNIT. The operations compute the
exact result as a fraction of units and round it once. -/

namespace Sys2Proof.F32

/-- The sign bit, bit 31. -/
def sign (w : NumWord) : Bool := w.msb

/-- The magnitude word, bits 30:0. -/
def mag (w : NumWord) : Nat := w.toNat % 2 ^ 31

/-- The magnitude word of infinity; every larger one is a NaN. -/
def infMag : Nat := 0x7F800000

def isNaN (w : NumWord) : Bool := decide (infMag < mag w)

def isInf (w : NumWord) : Bool := decide (mag w = infMag)

def isFinite (w : NumWord) : Bool := decide (mag w < infMag)

def isZero (w : NumWord) : Bool := decide (mag w = 0)

/-- The word with the given sign and magnitude word. -/
def pack (s : Bool) (m : Nat) : NumWord := BitVec.ofNat 32 (if s then 2 ^ 31 + m else m)

/-- The size, in units, of the finite number with magnitude word `m`: exponent field `m / 2^23`,
fraction field `m % 2^23`, with the hidden bit where the exponent field is not 0. -/
def scale (m : Nat) : Nat :=
  if m / 2 ^ 23 = 0 then m else (2 ^ 23 + m % 2 ^ 23) * 2 ^ (m / 2 ^ 23 - 1)

/-- The value of a finite number, in units of 2^-149. -/
def units (w : NumWord) : Int := if sign w then -(scale (mag w) : Int) else (scale (mag w) : Int)

/-- The order key: numbers compare as their keys do, and the two zeros have the same key. -/
def key (w : NumWord) : Int := if sign w then -(mag w : Int) else (mag w : Int)

/-- `n / d` rounded to the nearest integer, ties to the even one. -/
def nearestEven (n d : Nat) : Nat :=
  if 2 * (n % d) < d ∨ (2 * (n % d) = d ∧ n / d % 2 = 0) then n / d else n / d + 1

/-- The exponent shift that leaves 24 significant bits of `n / d` before the point. -/
def shift (n d : Nat) : Nat := Nat.log2 (n / d) - 23

/-- The magnitude word nearest to `n / d` units; a result beyond the largest finite number is infinity. -/
def roundMag (n d : Nat) : Nat :=
  min (shift n d * 2 ^ 23 + nearestEven n (d * 2 ^ shift n d)) infMag

/-- The number of sign `s` nearest to `n / d` units in size. -/
def round (s : Bool) (n d : Nat) : NumWord := pack s (roundMag n d)

/-- The number nearest to `n` units; `zeroSign` is the sign of an exact zero. -/
def ofUnits (zeroSign : Bool) (n : Int) : NumWord :=
  round (if n = 0 then zeroSign else decide (n < 0)) n.natAbs 1

/-- Negation: the sign bit flipped. -/
def neg (w : NumWord) : NumWord := pack (!sign w) (mag w)

/-- `a + b`. `∞ + -∞` is a NaN. An exact zero sum is +0 unless both operands are -0. -/
def add (a b : NumWord) : Calc NumWord :=
  if isNaN a || isNaN b then .error .nan
  else if isInf a then
    if isInf b && (sign a != sign b) then .error .nan else .ok a
  else if isInf b then .ok b
  else .ok (ofUnits (sign a && sign b) (units a + units b))

/-- `a - b`. -/
def sub (a b : NumWord) : Calc NumWord := add a (neg b)

/-- `a * b`. `0 * ∞` is a NaN. -/
def mul (a b : NumWord) : Calc NumWord :=
  if isNaN a || isNaN b then .error .nan
  else if isInf a || isInf b then
    if isZero a || isZero b then .error .nan else .ok (pack (sign a != sign b) infMag)
  else .ok (round (sign a != sign b) (scale (mag a) * scale (mag b)) (2 ^ 149))

/-- `a / b`. `0 / 0` and `∞ / ∞` are NaNs; another number over 0 is an infinity. -/
def div (a b : NumWord) : Calc NumWord :=
  if isNaN a || isNaN b then .error .nan
  else if isInf a then
    if isInf b then .error .nan else .ok (pack (sign a != sign b) infMag)
  else if isInf b then .ok (pack (sign a != sign b) 0)
  else if isZero b then
    if isZero a then .error .nan else .ok (pack (sign a != sign b) infMag)
  else .ok (round (sign a != sign b) (scale (mag a) * 2 ^ 149) (scale (mag b)))

/-- `a < b`; a NaN operand stops. -/
def lt (a b : NumWord) : Calc Bool :=
  if isNaN a || isNaN b then .error .nan else .ok (decide (key a < key b))

/-- `a ≤ b`; a NaN operand stops. -/
def le (a b : NumWord) : Calc Bool :=
  if isNaN a || isNaN b then .error .nan else .ok (decide (key a ≤ key b))

/-- The floor of a finite number, exact; an infinity has none. -/
def floor (a : NumWord) : Calc (Option Int) :=
  if isNaN a then .error .nan
  else if isInf a then .ok none
  else .ok (some (units a / 2 ^ 149))

/-- A decimal constant `n / d`, rounded once. -/
def lit (n d : Nat) : NumWord := round false (n * 2 ^ 149) d

/-- Applying a configuration function: a NaN operand or result stops. -/
def app (f : NumWord → NumWord) (a : NumWord) : Calc NumWord :=
  if isNaN a || isNaN (f a) then .error .nan else .ok (f a)

end Sys2Proof.F32

namespace Sys2Proof

/-- `NUMERICS = F32`, the hardware's reading (00_scope.md R7, R11). -/
def f32 : Numerics NumWord where
  add := F32.add
  sub := F32.sub
  mul := F32.mul
  div := F32.div
  lt := F32.lt
  le := F32.le
  floor := F32.floor
  lit := F32.lit
  minusOne := F32.neg (F32.lit 1 1)
  app := F32.app

end Sys2Proof
end

