-- ==== Sys2Proof/Machine/Params.lean ====
section
/-! DEFINITION. The configuration (00_scope.md R7): `OpenParams.allowed` is R7's constraint on the OPEN
parameters, and `configOf` is the configuration at given ones. `SIN2PI` and `EXP2` are built from free functions
so that they have the properties of R12 and no others. -/

namespace Sys2Proof.Machine

/-- The word 1.0. -/
def oneMag : Nat := 0x3F800000

/-- `SIN2PI` from a free choice `f` of sign and magnitude at finite arguments and a free choice `g` at
the others (00_scope.md R12(a), (b); log 5): 0, 1, 0, -1 at 0, 1/4, 1/2, 3/4, at most 1 in size at every
finite argument. At -0 it is a zero of free sign. -/
def sinOf (f : NumWord → Bool × Fin 0x3F800001) (g : NumWord → NumWord) (x : NumWord) : NumWord :=
  if F32.isFinite x then
    if x = 0x00000000#32 ∨ x = 0x3F000000#32 then 0x00000000#32
    else if x = 0x3E800000#32 then 0x3F800000#32
    else if x = 0x3F400000#32 then 0xBF800000#32
    else if x = 0x80000000#32 then F32.pack (f x).1 0
    else F32.pack (f x).1 (f x).2
  else g x

/-- The function of a `MonoFn`. -/
def monoApp : MonoFn → Int → Int
  | .ident, n => n
  | .mk f _, n => f n

/-- The greatest power of two that `EXP2` takes at an integer not above `n`, as a magnitude word; 0 below
the range of R12(c). -/
def expLow (n : Int) : Nat :=
  if n < -126 then 0 else if 127 < n then 254 * 2 ^ 23 else (n + 127).toNat * 2 ^ 23

/-- The least power of two that `EXP2` takes at an integer not below `n`, as a magnitude word; infinity
above the range of R12(c). -/
def expHigh (n : Int) : Nat :=
  if n < -126 then 2 ^ 23 else if 127 < n then F32.infMag else (n + 127).toNat * 2 ^ 23

/-- The magnitude word of `EXP2` at a finite number of `u` units with order key `k`: the free monotone
choice, kept between the powers of two at the integers around the argument. -/
def expMag (f : MonoFn) (u k : Int) : Nat :=
  if expLow (u / 2 ^ 149) = expHigh (-(-u / 2 ^ 149)) then expLow (u / 2 ^ 149)
  else max (expLow (u / 2 ^ 149)) (min (expHigh (-(-u / 2 ^ 149))) (monoApp f k).toNat)

/-- `EXP2` from a free monotone choice (00_scope.md R12(c); log 6): non-negative, monotone, exactly
`2^n` at every integer `n` from -126 to 127. At an infinity it is whatever monotonicity allows. -/
def expOf (f : MonoFn) (x : NumWord) : NumWord :=
  if F32.isFinite x then F32.pack false (expMag f (F32.units x) (F32.key x))
  else if F32.sign x then F32.pack false (min (2 ^ 23) (monoApp f (F32.key x)).toNat)
  else F32.pack false (max (254 * 2 ^ 23) (min F32.infMag (monoApp f (F32.key x)).toNat))

/-- The number `> 0` of a free index. -/
def positiveNum (i : Fin 0x7F800000) : NumWord := F32.pack false (i + 1)

/-- The number `≥ 0` of a free choice: -0, or a magnitude. -/
def nonNegNum : Option (Fin 0x7F800001) → NumWord
  | none => F32.pack true 0
  | some m => F32.pack false m

/-- The binary32 value nearest to π (00_scope.md R12(d); log 7). -/
def piNum : NumWord := 0x40490FDB

/-- A number that is `> 0`: no NaN is, an infinity can be. -/
def isPositive (w : NumWord) : Prop := F32.isNaN w = false ∧ 0 < F32.key w

end Sys2Proof.Machine

namespace Sys2Proof

/-- The constraints of 00_scope.md R7 on the OPEN parameters, and no others: `WT_SIZE` is any integer, `WT_AMP`
and `CUT_CV_GAIN` are any `Num`, `BASE_FREQ`, `EPS_DIV` and `FTAB` are `> 0`, `FLT_K` is `≥ 0`. -/
def OpenParams.allowed (p : OpenParams) : Prop :=
  Machine.isPositive p.baseFreq ∧ Machine.isPositive p.epsDiv ∧
    (∀ (m : HarmTable) (i : Fin 8), Machine.isPositive ((p.ftab.get m.row).get i)) ∧
    (F32.isNaN p.fltK = false ∧ 0 ≤ F32.key p.fltK)

end Sys2Proof

namespace Sys2Proof.Machine

/-- The OPEN parameters of a free choice. -/
def paramsOf (f : FreeParams) : OpenParams where
  wtSize := f.wtSize
  wtAmp := f.wtAmp
  baseFreq := positiveNum f.baseFreq
  epsDiv := positiveNum f.epsDiv
  ftab := f.ftab.map (fun row => row.map positiveNum)
  fltK := nonNegNum f.fltK
  cutCvGain := f.cutCvGain

/-- The configuration at given OPEN parameters, under `NUMERICS = F32`. `SIN2PI`, `EXP2` and the floor of an
infinite product are the hardware's free functions. -/
def configOf (p : OpenParams) : Config NumWord where
  wtSize := p.wtSize
  wtAmp := p.wtAmp
  baseFreq := p.baseFreq
  epsDiv := p.epsDiv
  ftab := fun m i => (p.ftab.get m.row).get i
  fltK := p.fltK
  cutCvGain := p.cutCvGain
  sin2pi := sinOf Config.freeSin Config.freeSinInf
  exp2 := expOf Config.freeExp2
  pi := piNum
  floorInf := Config.freeFloorInf

end Sys2Proof.Machine
end

