-- ==== Sys2Proof/Machine/State.lean ====
section
/-! DEFINITION. The state of one block, as plain data (10_state.md R20 to R37), the names of its
registers, the host's actions, and the reasons a step can stop. -/

namespace Sys2Proof.Machine

/-- The states of an envelope unit (10_state.md R30, 44_envelope.md R145). -/
inductive EnvState where
  | idle
  | attack
  | decay
  | sustain
  | release
deriving DecidableEq, Repr

/-- The names of the registers of type `Num`, in the order of their numbers (20_memory.md R62). -/
inductive NumReg where
  /-- `DT`, sample period in seconds -/
  | dt
  /-- `SR`, sample rate in Hz -/
  | sr
  /-- `AMP_CV`, amplitude control voltage -/
  | ampCv
  /-- `A0`, argument 0 (R24) -/
  | a0
  /-- `A1`, argument 1 (R24) -/
  | a1
  /-- `GATE_V[k]`, gate voltage of envelope k -/
  | gateV (k : Fin 3)
  /-- `PITCH[k]`, pitch control voltage -/
  | pitch (k : Fin 3)
  /-- `FABS[k]`, absolute frequency, Hz -/
  | fabs (k : Fin 3)
  /-- `PW[k]`, manual pulse width -/
  | pw (k : Fin 3)
  /-- `PWM_AMT[k]`, pulse-width modulation amount -/
  | pwmAmt (k : Fin 3)
  /-- `PWM_CV[k]`, pulse-width modulation CV -/
  | pwmCv (k : Fin 3)
  /-- `ATT[k]`, attack time -/
  | att (k : Fin 3)
  /-- `DEC[k]`, decay time -/
  | dec (k : Fin 3)
  /-- `SUS[k]`, sustain level -/
  | sus (k : Fin 3)
  /-- `REL[k]`, release time -/
  | rel (k : Fin 3)
  /-- `CUT[k]`, manual filter cutoff, Hz -/
  | cut (k : Fin 3)
  /-- `CUT_CV[k]`, filter cutoff CV -/
  | cutCv (k : Fin 3)
  /-- `LEVEL[i]`, manual level of slot i -/
  | level (i : Fin 8)
  /-- `HCV[i]`, amplitude CV of slot i -/
  | hcv (i : Fin 8)
  /-- `PH[j]`, the phase register file (R25) -/
  | ph (j : Fin 11)
  /-- `SLOT_F[i]`, latched slot frequency (R26) -/
  | slotF (i : Fin 8)
  /-- `SLOT_A[i]`, latched slot amplitude (R26) -/
  | slotA (i : Fin 8)
  /-- `ENV_OUT[k]`, envelope output (R30) -/
  | envOut (k : Fin 3)
  /-- `ENV_PROG[k]`, seconds since the state was entered (R30) -/
  | envProg (k : Fin 3)
  /-- `ENV_REL0[k]`, output when Release was entered (R31) -/
  | envRel0 (k : Fin 3)
  /-- `FLT_OUT[k]`, filter memory (R32) -/
  | fltOut (k : Fin 3)
  /-- `FREQ[k]`, clamped frequency of chain k (R33) -/
  | freq (k : Fin 3)
  /-- `CUTOFF[k]`, effective cutoff of filter k (R33) -/
  | cutoff (k : Fin 3)
  /-- `WIDTH[k]`, effective pulse width of oscillator k (R33) -/
  | width (k : Fin 3)
  /-- `OUT[k]`, final output sample of chain k (R33) -/
  | out (k : Fin 3)
  /-- `MIX`, mixed final output sample (R33) -/
  | mix
  /-- `HB_OUT`, output of the HarmonicBank (R33) -/
  | hbOut
  /-- `R0`, result of an elementary command (R24) -/
  | r0
deriving DecidableEq, Repr

/-- The names of all registers (20_memory.md R62): those of type `Num`, and the U32, Enum and Bool ones. -/
inductive Reg where
  | num (r : NumReg)
  /-- `CFG0` (10_state.md R28) -/
  | cfg0
  /-- `CFGC[k]` (R29) -/
  | cfgc (k : Fin 3)
  /-- `ENV_ST[k]` (R30) -/
  | envSt (k : Fin 3)
  /-- `ENV_GPREV[k]` (R31) -/
  | envGprev (k : Fin 3)
  /-- `STATUS` (R34) -/
  | status
deriving DecidableEq, Repr

/-- The wavetable memory: the cells that hold a value, as (index, value) pairs in rising order of index;
an unlisted index holds no value (10_state.md R35, R37; log 11). -/
abbrev Memory (ν : Type) := List (Nat × ν)

/-- The state of the block (10_state.md R20), over the number type `ν`. -/
structure Voice (ν : Type) where
  /-- `DT`, sample period in seconds -/
  dt : ν
  /-- `SR`, sample rate in Hz -/
  sr : ν
  /-- `CFG0`, global configuration (R28) -/
  cfg0 : Word
  /-- `AMP_CV`, amplitude control voltage -/
  ampCv : ν
  /-- `A0`, argument 0 (R24) -/
  a0 : ν
  /-- `A1`, argument 1 (R24) -/
  a1 : ν
  /-- `CFGC[k]`, chain configuration (R29) -/
  cfgc : Vector Word 3
  /-- `GATE_V[k]`, gate voltage of envelope k -/
  gateV : Vector ν 3
  /-- `PITCH[k]`, pitch control voltage -/
  pitch : Vector ν 3
  /-- `FABS[k]`, absolute frequency, Hz -/
  fabs : Vector ν 3
  /-- `PW[k]`, manual pulse width -/
  pw : Vector ν 3
  /-- `PWM_AMT[k]`, pulse-width modulation amount -/
  pwmAmt : Vector ν 3
  /-- `PWM_CV[k]`, pulse-width modulation CV -/
  pwmCv : Vector ν 3
  /-- `ATT[k]`, attack time -/
  att : Vector ν 3
  /-- `DEC[k]`, decay time -/
  dec : Vector ν 3
  /-- `SUS[k]`, sustain level -/
  sus : Vector ν 3
  /-- `REL[k]`, release time -/
  rel : Vector ν 3
  /-- `CUT[k]`, manual filter cutoff, Hz -/
  cut : Vector ν 3
  /-- `CUT_CV[k]`, filter cutoff CV -/
  cutCv : Vector ν 3
  /-- `LEVEL[i]`, manual level of slot i -/
  level : Vector ν 8
  /-- `HCV[i]`, amplitude CV of slot i -/
  hcv : Vector ν 8
  /-- `PH[j]`, the phase register file (R25) -/
  ph : Vector ν 11
  /-- `SLOT_F[i]`, latched slot frequency (R26) -/
  slotF : Vector ν 8
  /-- `SLOT_A[i]`, latched slot amplitude (R26) -/
  slotA : Vector ν 8
  /-- `ENV_ST[k]`, envelope state (R30) -/
  envSt : Vector EnvState 3
  /-- `ENV_OUT[k]`, envelope output (R30) -/
  envOut : Vector ν 3
  /-- `ENV_PROG[k]`, seconds since the state was entered (R30) -/
  envProg : Vector ν 3
  /-- `ENV_GPREV[k]`, the gate at the previous envelope step (R31) -/
  envGprev : Vector Bool 3
  /-- `ENV_REL0[k]`, output when Release was entered (R31) -/
  envRel0 : Vector ν 3
  /-- `FLT_OUT[k]`, filter memory (R32) -/
  fltOut : Vector ν 3
  /-- `FREQ[k]`, clamped frequency of chain k (R33) -/
  freq : Vector ν 3
  /-- `CUTOFF[k]`, effective cutoff of filter k (R33) -/
  cutoff : Vector ν 3
  /-- `WIDTH[k]`, effective pulse width of oscillator k (R33) -/
  width : Vector ν 3
  /-- `OUT[k]`, final output sample of chain k (R33) -/
  out : Vector ν 3
  /-- `MIX`, mixed final output sample (R33) -/
  mix : ν
  /-- `HB_OUT`, output of the HarmonicBank (R33) -/
  hbOut : ν
  /-- `R0`, result of an elementary command (R24) -/
  r0 : ν
  /-- `STATUS` (R34) -/
  status : Word
  /-- `WT[i]`, the wavetable (R35) -/
  wt : Memory ν
deriving DecidableEq, Repr

/-- The three actions of the host (00_scope.md R9; 20_memory.md R64 to R66). -/
inductive HostAction where
  | writeReg (n : RegNum) (v : Word)
  | readReg (n : RegNum)
  | exec (cmd : Cmd)
deriving DecidableEq, Repr

/-- The machine's state: the block under `NUMERICS = F32`, and the host's side of the interface. -/
structure State where
  /-- the state the spec gives the block (10_state.md R20) -/
  voice : Voice NumWord
  /-- the host's actions not yet performed, oldest first (20_memory.md R70). The MODEL's own field, log 8 -/
  pending : List HostAction
  /-- what the last action returned to the host, if it returned a value (20_memory.md R65, R66). The
  MODEL's own field, log 9 -/
  reply : Option Word
  /-- the argument 00_scope.md R7 gives the model: the OPEN parameters, fixed for a run (10_state.md R20). No step
  changes them. The MODEL's own field, log 19 -/
  params : OpenParams
deriving DecidableEq, Repr

/-- Why the machine stops. -/
inductive Fault where
  /-- Raised by a table lookup that reads a cell holding no value although `STATUS.WTB = 1`
  (10_state.md R37). No reachable state has such a cell. Safe: the model stops. -/
  | emptyCell
deriving DecidableEq, Repr

/-- Why the model gives a step no meaning. -/
inductive Refusal where
  /-- Raised by `exec` for an instruction that has no meaning yet. Safe. -/
  | notModelled (mnemonic : String)
  /-- Raised by `WriteReg` of a NaN or an infinity to a `Num` register the host may write: the spec puts
  it outside the model (00_scope.md R13, 93_implementation_defined.md U9). As the spec says of U9, it errs
  toward proving where a real host does it: unsafe in that sense. -/
  | nonFiniteWrite
  /-- Raised by a command in which an operation has a NaN operand or a NaN result: the spec gives such a
  step no meaning (00_scope.md R13, 93_implementation_defined.md U14). Safe. -/
  | nanOperation
deriving DecidableEq, Repr

/-- The block right after reset, over any number type with a zero (10_state.md R36, R37): every register
0, every envelope Idle, no cell of the wavetable holding a value. -/
def Voice.reset {ν : Type} (zero : ν) : Voice ν where
  dt := zero
  sr := zero
  cfg0 := 0
  ampCv := zero
  a0 := zero
  a1 := zero
  cfgc := Vector.replicate 3 0
  gateV := Vector.replicate 3 zero
  pitch := Vector.replicate 3 zero
  fabs := Vector.replicate 3 zero
  pw := Vector.replicate 3 zero
  pwmAmt := Vector.replicate 3 zero
  pwmCv := Vector.replicate 3 zero
  att := Vector.replicate 3 zero
  dec := Vector.replicate 3 zero
  sus := Vector.replicate 3 zero
  rel := Vector.replicate 3 zero
  cut := Vector.replicate 3 zero
  cutCv := Vector.replicate 3 zero
  level := Vector.replicate 8 zero
  hcv := Vector.replicate 8 zero
  ph := Vector.replicate 11 zero
  slotF := Vector.replicate 8 zero
  slotA := Vector.replicate 8 zero
  envSt := Vector.replicate 3 .idle
  envOut := Vector.replicate 3 zero
  envProg := Vector.replicate 3 zero
  envGprev := Vector.replicate 3 false
  envRel0 := Vector.replicate 3 zero
  fltOut := Vector.replicate 3 zero
  freq := Vector.replicate 3 zero
  cutoff := Vector.replicate 3 zero
  width := Vector.replicate 3 zero
  out := Vector.replicate 3 zero
  mix := zero
  hbOut := zero
  r0 := zero
  status := 0
  wt := []

/-- The machine right after reset (10_state.md R36, 70_reset_and_hazards.md R220). The host has asked for
nothing yet and has been told nothing (log 8, 9). No step asserts reset (log 18). The OPEN parameters are a free
choice within R7's constraints (log 3, 4, 19). -/
def State.reset : State where
  voice := Voice.reset 0
  pending := []
  reply := none
  params := paramsOf Config.freeParams

/-- The configuration the state's commands run at. -/
def State.config (s : State) : Config NumWord := configOf s.params

end Sys2Proof.Machine
end

