-- ==== Sys2Proof/Machine/Flags.lean ====
section
/-! DEFINITION. The fields of `STATUS` (10_state.md R34). There are no arithmetic flags: no operation sets
a zero, carry, overflow or sign flag. -/

namespace Sys2Proof.Machine

/-- The fault bits of `STATUS` (60_exceptions.md R202). -/
inductive FaultBit where
  | ill
  | idx
  | cfg
  | wtu
  | wtr
  | reg
deriving DecidableEq, Repr

/-- The bit number of a fault bit (60_exceptions.md R202). -/
def FaultBit.bit : FaultBit → Nat
  | .ill => 8
  | .idx => 9
  | .cfg => 10
  | .wtu => 11
  | .wtr => 12
  | .reg => 13

/-- The bit number of `WTB`. -/
def wtbBit : Nat := 0

/-- `w` with bit `n` set. -/
def setBit (w : Word) (n : Nat) : Word := w ||| BitVec.twoPow 32 n

/-- `STATUS.WTB`: the wavetable has been built. -/
def Voice.wtb {ν : Type} (v : Voice ν) : Bool := v.status.getLsbD wtbBit

/-- Whether a fault bit is set. -/
def Voice.faultBit {ν : Type} (v : Voice ν) (f : FaultBit) : Bool := v.status.getLsbD f.bit

end Sys2Proof.Machine
end

