-- ==== Sys2Proof/Machine/Ops.lean ====
section
/-! DEFINITION. The named operations on the registers, the wavetable and the host's interface: reading
and writing a register by name, the register map, the wavetable memory, raising a fault, and the host's
three actions up to decoding (20_memory.md, 60_exceptions.md). -/

namespace Sys2Proof.Machine

/-- The value of a `Num` register. -/
def Voice.num {ν : Type} (v : Voice ν) : NumReg → ν
  | .dt => v.dt
  | .sr => v.sr
  | .ampCv => v.ampCv
  | .a0 => v.a0
  | .a1 => v.a1
  | .gateV k => v.gateV.get k
  | .pitch k => v.pitch.get k
  | .fabs k => v.fabs.get k
  | .pw k => v.pw.get k
  | .pwmAmt k => v.pwmAmt.get k
  | .pwmCv k => v.pwmCv.get k
  | .att k => v.att.get k
  | .dec k => v.dec.get k
  | .sus k => v.sus.get k
  | .rel k => v.rel.get k
  | .cut k => v.cut.get k
  | .cutCv k => v.cutCv.get k
  | .level i => v.level.get i
  | .hcv i => v.hcv.get i
  | .ph j => v.ph.get j
  | .slotF i => v.slotF.get i
  | .slotA i => v.slotA.get i
  | .envOut k => v.envOut.get k
  | .envProg k => v.envProg.get k
  | .envRel0 k => v.envRel0.get k
  | .fltOut k => v.fltOut.get k
  | .freq k => v.freq.get k
  | .cutoff k => v.cutoff.get k
  | .width k => v.width.get k
  | .out k => v.out.get k
  | .mix => v.mix
  | .hbOut => v.hbOut
  | .r0 => v.r0

/-- Writing a `Num` register. -/
def Voice.setNum {ν : Type} (v : Voice ν) (r : NumReg) (x : ν) : Voice ν :=
  match r with
  | .dt => { v with dt := x }
  | .sr => { v with sr := x }
  | .ampCv => { v with ampCv := x }
  | .a0 => { v with a0 := x }
  | .a1 => { v with a1 := x }
  | .gateV k => { v with gateV := v.gateV.set k x }
  | .pitch k => { v with pitch := v.pitch.set k x }
  | .fabs k => { v with fabs := v.fabs.set k x }
  | .pw k => { v with pw := v.pw.set k x }
  | .pwmAmt k => { v with pwmAmt := v.pwmAmt.set k x }
  | .pwmCv k => { v with pwmCv := v.pwmCv.set k x }
  | .att k => { v with att := v.att.set k x }
  | .dec k => { v with dec := v.dec.set k x }
  | .sus k => { v with sus := v.sus.set k x }
  | .rel k => { v with rel := v.rel.set k x }
  | .cut k => { v with cut := v.cut.set k x }
  | .cutCv k => { v with cutCv := v.cutCv.set k x }
  | .level i => { v with level := v.level.set i x }
  | .hcv i => { v with hcv := v.hcv.set i x }
  | .ph j => { v with ph := v.ph.set j x }
  | .slotF i => { v with slotF := v.slotF.set i x }
  | .slotA i => { v with slotA := v.slotA.set i x }
  | .envOut k => { v with envOut := v.envOut.set k x }
  | .envProg k => { v with envProg := v.envProg.set k x }
  | .envRel0 k => { v with envRel0 := v.envRel0.set k x }
  | .fltOut k => { v with fltOut := v.fltOut.set k x }
  | .freq k => { v with freq := v.freq.set k x }
  | .cutoff k => { v with cutoff := v.cutoff.set k x }
  | .width k => { v with width := v.width.set k x }
  | .out k => { v with out := v.out.set k x }
  | .mix => { v with mix := x }
  | .hbOut => { v with hbOut := x }
  | .r0 => { v with r0 := x }

/-- Writing `CFG0`: bits 4:0 and 15:8 are stored, the reserved bits are stored as 0 (10_state.md R28,
20_memory.md R64). -/
def Voice.setCfg0 {ν : Type} (v : Voice ν) (w : Word) : Voice ν :=
  { v with cfg0 := w &&& 0x0000FF1F }

/-- Writing `CFGC[k]`: bits 5:0 are stored, bits 31:6 are stored as 0 (10_state.md R29, 20_memory.md R64). -/
def Voice.setCfgc {ν : Type} (v : Voice ν) (k : Fin 3) (w : Word) : Voice ν :=
  { v with cfgc := v.cfgc.set k (w &&& 0x0000003F) }

/-- Writing `ENV_ST[k]`. -/
def Voice.setEnvSt {ν : Type} (v : Voice ν) (k : Fin 3) (e : EnvState) : Voice ν :=
  { v with envSt := v.envSt.set k e }

/-- Writing `ENV_GPREV[k]`. -/
def Voice.setGprev {ν : Type} (v : Voice ν) (k : Fin 3) (b : Bool) : Voice ν :=
  { v with envGprev := v.envGprev.set k b }

/-- Writing `STATUS`. -/
def Voice.setStatus {ν : Type} (v : Voice ν) (w : Word) : Voice ν :=
  { v with status := w }

/-- Writing the wavetable. -/
def Voice.setWt {ν : Type} (v : Voice ν) (m : Memory ν) : Voice ν :=
  { v with wt := m }

/-- Raising a fault: its bit of `STATUS` is set and nothing else changes (60_exceptions.md R201). This is
the hardware's only exception entry; there is no return from it (R206). -/
def Voice.raise {ν : Type} (v : Voice ν) (f : FaultBit) : Voice ν :=
  v.setStatus (setBit v.status f.bit)

/-! The wavetable memory (10_state.md R35, 20_memory.md R61; log 11). -/

/-- The value of cell `i`, if it holds one. -/
def Memory.read {ν : Type} : Memory ν → Nat → Option ν
  | [], _ => none
  | (a, x) :: m, i => if a = i then some x else Memory.read m i

/-- Writing cell `i`: the list stays in rising order of index. -/
def Memory.write {ν : Type} : Memory ν → Nat → ν → Memory ν
  | [], i, y => [(i, y)]
  | (a, x) :: m, i, y =>
    if i < a then (i, y) :: (a, x) :: m
    else if i = a then (i, y) :: m
    else (a, x) :: Memory.write m i y

/-- The canonical form: indices strictly rising, so no index twice. An unlisted cell holds no value and
every listed one holds one, so no entry equals what an unlisted index reads as. -/
abbrev Memory.wf {ν : Type} (m : Memory ν) : Prop :=
  m.Pairwise (fun a b => a.1 < b.1)

/-! The register space (20_memory.md R60, R62). -/

/-- The number of a `Num` register (20_memory.md R62). -/
def NumReg.number : NumReg → Nat
  | .dt => 0x00
  | .sr => 0x01
  | .ampCv => 0x03
  | .a0 => 0x04
  | .a1 => 0x05
  | .gateV k => 0x0C + k
  | .pitch k => 0x10 + k
  | .fabs k => 0x14 + k
  | .pw k => 0x18 + k
  | .pwmAmt k => 0x1C + k
  | .pwmCv k => 0x20 + k
  | .att k => 0x24 + k
  | .dec k => 0x28 + k
  | .sus k => 0x2C + k
  | .rel k => 0x30 + k
  | .cut k => 0x34 + k
  | .cutCv k => 0x38 + k
  | .level i => 0x40 + i
  | .hcv i => 0x48 + i
  | .ph j => 0x80 + j
  | .slotF i => 0x90 + i
  | .slotA i => 0x98 + i
  | .envOut k => 0xA4 + k
  | .envProg k => 0xA8 + k
  | .envRel0 k => 0xB0 + k
  | .fltOut k => 0xB4 + k
  | .freq k => 0xB8 + k
  | .cutoff k => 0xBC + k
  | .width k => 0xC0 + k
  | .out k => 0xC4 + k
  | .mix => 0xC8
  | .hbOut => 0xC9
  | .r0 => 0xCA

/-- The number of a register (20_memory.md R62). -/
def Reg.number : Reg → Nat
  | .num r => r.number
  | .cfg0 => 0x02
  | .cfgc k => 0x08 + k
  | .envSt k => 0xA0 + k
  | .envGprev k => 0xAC + k
  | .status => 0xCB

/-- Consecutive registers of one kind in the map: first number, how many, and their names. -/
structure MapRow where
  base : Nat
  count : Nat
  name : Fin count → Reg

/-- The register a row of the map names at a number. -/
def MapRow.find (b : MapRow) (n : Nat) : Option Reg :=
  if h : b.base ≤ n ∧ n - b.base < b.count then some (b.name ⟨n - b.base, h.2⟩) else none

/-- The address map of the register space (20_memory.md R62). -/
def registerMap : List MapRow :=
  [⟨0x00, 1, fun _ => .num .dt⟩,
   ⟨0x01, 1, fun _ => .num .sr⟩,
   ⟨0x02, 1, fun _ => .cfg0⟩,
   ⟨0x03, 1, fun _ => .num .ampCv⟩,
   ⟨0x04, 1, fun _ => .num .a0⟩,
   ⟨0x05, 1, fun _ => .num .a1⟩,
   ⟨0x08, 3, fun x => .cfgc x⟩,
   ⟨0x0C, 3, fun x => .num (.gateV x)⟩,
   ⟨0x10, 3, fun x => .num (.pitch x)⟩,
   ⟨0x14, 3, fun x => .num (.fabs x)⟩,
   ⟨0x18, 3, fun x => .num (.pw x)⟩,
   ⟨0x1C, 3, fun x => .num (.pwmAmt x)⟩,
   ⟨0x20, 3, fun x => .num (.pwmCv x)⟩,
   ⟨0x24, 3, fun x => .num (.att x)⟩,
   ⟨0x28, 3, fun x => .num (.dec x)⟩,
   ⟨0x2C, 3, fun x => .num (.sus x)⟩,
   ⟨0x30, 3, fun x => .num (.rel x)⟩,
   ⟨0x34, 3, fun x => .num (.cut x)⟩,
   ⟨0x38, 3, fun x => .num (.cutCv x)⟩] ++
  [⟨0x40, 8, fun x => .num (.level x)⟩,
   ⟨0x48, 8, fun x => .num (.hcv x)⟩,
   ⟨0x80, 11, fun x => .num (.ph x)⟩,
   ⟨0x90, 8, fun x => .num (.slotF x)⟩,
   ⟨0x98, 8, fun x => .num (.slotA x)⟩,
   ⟨0xA0, 3, fun x => .envSt x⟩,
   ⟨0xA4, 3, fun x => .num (.envOut x)⟩,
   ⟨0xA8, 3, fun x => .num (.envProg x)⟩,
   ⟨0xAC, 3, fun x => .envGprev x⟩,
   ⟨0xB0, 3, fun x => .num (.envRel0 x)⟩,
   ⟨0xB4, 3, fun x => .num (.fltOut x)⟩,
   ⟨0xB8, 3, fun x => .num (.freq x)⟩,
   ⟨0xBC, 3, fun x => .num (.cutoff x)⟩,
   ⟨0xC0, 3, fun x => .num (.width x)⟩,
   ⟨0xC4, 3, fun x => .num (.out x)⟩,
   ⟨0xC8, 1, fun _ => .num .mix⟩,
   ⟨0xC9, 1, fun _ => .num .hbOut⟩,
   ⟨0xCA, 1, fun _ => .num .r0⟩,
   ⟨0xCB, 1, fun _ => .status⟩]

/-- The register a number names; `none` for an unmapped number (20_memory.md R62). -/
def Reg.ofNumber (n : RegNum) : Option Reg :=
  registerMap.findSome? (fun b => b.find n.toNat)

/-- The `Num` registers the host may write (10_state.md R24, R27; 20_memory.md R62, access RW). -/
def NumReg.isInput : NumReg → Bool
  | .dt => true
  | .sr => true
  | .ampCv => true
  | .a0 => true
  | .a1 => true
  | .gateV _ => true
  | .pitch _ => true
  | .fabs _ => true
  | .pw _ => true
  | .pwmAmt _ => true
  | .pwmCv _ => true
  | .att _ => true
  | .dec _ => true
  | .sus _ => true
  | .rel _ => true
  | .cut _ => true
  | .cutCv _ => true
  | .level _ => true
  | .hcv _ => true
  | .ph _ => false
  | .slotF _ => false
  | .slotA _ => false
  | .envOut _ => false
  | .envProg _ => false
  | .envRel0 _ => false
  | .fltOut _ => false
  | .freq _ => false
  | .cutoff _ => false
  | .width _ => false
  | .out _ => false
  | .mix => false
  | .hbOut => false
  | .r0 => false

/-- The coding of the envelope states (10_state.md R30). -/
def EnvState.code : EnvState → Word
  | .idle => 0
  | .attack => 1
  | .decay => 2
  | .sustain => 3
  | .release => 4

/-- A register as the 32-bit word the host reads: a `Num` is its binary32 word, a `U32` the unsigned
integer, an `Enum` or `Bool` the unsigned integer of its value (20_memory.md R63). -/
def Voice.word (v : Voice NumWord) : Reg → Word
  | .num r => v.num r
  | .cfg0 => v.cfg0
  | .cfgc k => v.cfgc.get k
  | .envSt k => (v.envSt.get k).code
  | .envGprev k => if v.envGprev.get k then 1 else 0
  | .status => v.status

/-! From a computation of the block to an outcome of the machine. -/

/-- A step that ends in the given block state; everything of the host's side is kept. -/
def State.withVoice (s : State) (v : Voice NumWord) : State := { s with voice := v }

/-- The outcome of a command: the computed block state, or the stop. A NaN operand or result is refused
(00_scope.md R13; log 12); a cell without a value is the model's fault (log 11). -/
def finish (s : State) : Calc (Voice NumWord) → Host.Outcome State Fault Refusal
  | .ok v => .next (s.withVoice v)
  | .error .nan => .refused .nanOperation
  | .error .noValue => .fault .emptyCell

/-- Raising a fault in the machine (60_exceptions.md R201). -/
def raiseFault (f : FaultBit) (s : State) : Host.Outcome State Fault Refusal :=
  .next (s.withVoice (s.voice.raise f))

/-! The host's actions (20_memory.md R64, R65; 00_scope.md R9). -/

/-- `WriteReg(n, w)` (20_memory.md R64). A NaN or infinite word to a `Num` register the host may write is
refused (00_scope.md R13; log 13). Nothing is returned. -/
def hostWrite (n : RegNum) (w : Word) (s : State) : Host.Outcome State Fault Refusal :=
  match Reg.ofNumber n with
  | some .cfg0 => .next (s.withVoice (s.voice.setCfg0 w))
  | some (.cfgc k) => .next (s.withVoice (s.voice.setCfgc k w))
  | some (.num r) =>
    if r.isInput then
      if F32.isFinite w then .next (s.withVoice (s.voice.setNum r w))
      else .refused .nonFiniteWrite
    else raiseFault .reg s
  | some (.envSt _) => raiseFault .reg s
  | some (.envGprev _) => raiseFault .reg s
  | some .status => raiseFault .reg s
  | none => raiseFault .reg s

/-- `ReadReg(n)`: a mapped register's word is returned and no register changes; an unmapped number raises
`F_REG` and 0 is returned (20_memory.md R65). -/
def hostRead (n : RegNum) (s : State) : Host.Outcome State Fault Refusal :=
  match Reg.ofNumber n with
  | some r => .next { s with reply := some (s.voice.word r) }
  | none => raiseFault .reg { s with reply := some 0 }

/-- The host's next action and the state in which it is performed: the action is taken off the list, and
nothing has been returned yet (log 8, 9). -/
def takeAction (s : State) : Option (HostAction × State) :=
  match s.pending with
  | [] => none
  | a :: rest => some (a, { s with pending := rest, reply := none })

/-- The state in which the host's next action is `Exec` of a word (log 10). -/
def State.withExec (s : State) (w : Cmd) : State :=
  { s with pending := .exec w :: s.pending }

end Sys2Proof.Machine
end

