-- ==== Sys2Proof/Machine/Operands.lean ====
section
/-! DEFINITION. The operand forms: the index field as a phase register or a chain, the fields of `CFG0`
and `CFGC[k]`, the constants the rules write, and the guards `clamp` and `max`. -/

namespace Sys2Proof.Machine

/-! The index field (30_encoding.md R81, R83). -/

/-- The unit an index names, if it is below the operation's limit. -/
def unitIdx (limit : Nat) (idx : Idx) : Option (Fin limit) :=
  if h : idx.toNat < limit then some ⟨idx.toNat, h⟩ else none

/-- A phase register `PH[j]`, limit 11. -/
def phaseIdx (idx : Idx) : Option (Fin 11) := unitIdx 11 idx

/-- A chain, envelope or filter unit `k`, limit 3. -/
def chainIdx (idx : Idx) : Option (Fin 3) := unitIdx 3 idx

/-- No operand: only index 0, limit 1. -/
def noIdx (idx : Idx) : Option (Fin 1) := unitIdx 1 idx

/-- The phase register of harmonic slot `i` (10_state.md R25). -/
def slotPhase (i : Fin 8) : Fin 11 := ⟨i, by omega⟩

/-- The phase register of chain `k`, `PH[8+k]` (10_state.md R25). -/
def chainPhase (k : Fin 3) : Fin 11 := ⟨8 + k, by omega⟩

/-! The fields of `CFG0` (10_state.md R28). -/

/-- `CFG0.FSEL`, bits 1:0: `none` for the integer ratios, else the table. -/
def fsel (cfg0 : Word) : Option HarmTable :=
  match (cfg0.extractLsb' 0 2).toNat with
  | 0 => none
  | 1 => some .standard
  | 2 => some .logSpaced
  | _ => some .sqrtSpaced

/-- `CFG0.SD`, bit 2: the direct sine. -/
def sd (cfg0 : Word) : Bool := cfg0.getLsbD 2

/-- `CFG0.G10`, bit 3: output gain 10. -/
def g10 (cfg0 : Word) : Bool := cfg0.getLsbD 3

/-- `CFG0.AC`, bit 4: the amplitude CV is connected. -/
def ac (cfg0 : Word) : Bool := cfg0.getLsbD 4

/-- `CFG0.HC[i]`, bit 8 + i: the amplitude CV of slot `i` is connected. -/
def hc (cfg0 : Word) (i : Fin 8) : Bool := cfg0.getLsbD (8 + i)

/-! The fields of `CFGC[k]` (10_state.md R29). -/

/-- The waveforms. -/
inductive Wave where
  | sine
  | triangle
  | saw
  | square
deriving DecidableEq, Repr

/-- `CFGC[k].WAVE`, bits 1:0. -/
def waveSel (cfgc : Word) : Wave :=
  match (cfgc.extractLsb' 0 2).toNat with
  | 0 => .sine
  | 1 => .triangle
  | 2 => .saw
  | _ => .square

/-- `CFGC[k].FA`, bit 2: absolute frequency. -/
def fa (cfgc : Word) : Bool := cfgc.getLsbD 2

/-- `CFGC[k].SW`, bit 3: the swept form of alpha. -/
def sw (cfgc : Word) : Bool := cfgc.getLsbD 3

/-- The cutoff modulations. -/
inductive CutMode where
  | fixed
  | summed
  | exponential
deriving DecidableEq, Repr

/-- `CFGC[k].CMOD`, bits 5:4; `none` for the reserved value 3. -/
def cmod (cfgc : Word) : Option CutMode :=
  match (cfgc.extractLsb' 4 2).toNat with
  | 0 => some .fixed
  | 1 => some .summed
  | 2 => some .exponential
  | _ => none

/-! Constants and guards (00_scope.md R7, R14). -/

/-- The integer `n` as a number. -/
def int {ν : Type} (N : Numerics ν) (n : Nat) : ν := N.lit n 1

/-- `CV_SCALE`, 0.1 (00_scope.md R7). -/
def cvScale {ν : Type} (N : Numerics ν) : ν := N.lit 1 10

/-- `W_MIN`, 0.01. -/
def wMin {ν : Type} (N : Numerics ν) : ν := N.lit 1 100

/-- `W_MAX`, 0.99. -/
def wMax {ν : Type} (N : Numerics ν) : ν := N.lit 99 100

/-- `ENV_EPS`, 0.001. -/
def envEps {ν : Type} (N : Numerics ν) : ν := N.lit 1 1000

/-- `OUT_GAIN`: 10 where `CFG0.G10 = 1`, else 5. -/
def outGain {ν : Type} (N : Numerics ν) (cfg0 : Word) : ν :=
  if g10 cfg0 then int N 10 else int N 5

/-- `clamp(v, lo, hi)`: `lo` if `v < lo`, `hi` if `v > hi`, else `v` (00_scope.md R14; DEDUCED, log 17). -/
def clamp {ν : Type} (N : Numerics ν) (v lo hi : ν) : Calc ν := do
  let below ← N.lt v lo
  let above ← N.lt hi v
  pure (if below then lo else if above then hi else v)

/-- `max(a, b)` (00_scope.md R14; DEDUCED, log 17). -/
def maxNum {ν : Type} (N : Numerics ν) (a b : ν) : Calc ν := do
  let less ← N.lt a b
  pure (if less then b else a)

/-- A control voltage brought to its range: `clamp(v * 0.1, 0, 1)` (43_harmonic_bank.md R137,
46_voice_graph.md R177). -/
def cvUnit {ν : Type} (N : Numerics ν) (v : ν) : Calc ν := do
  let u ← N.mul v (cvScale N)
  clamp N u (int N 0) (int N 1)

end Sys2Proof.Machine
end

