-- ==== Sys2Proof/Machine/Envelope.lean ====
section
/-! DEFINITION. EnvelopeGenerator: `ENV.STEP`, `ENV.RST` (44_envelope.md). -/

namespace Sys2Proof.Machine

/-- The five registers of one envelope unit (10_state.md R30). -/
structure EnvUnit (ν : Type) where
  st : EnvState
  out : ν
  prog : ν
  gprev : Bool
  rel0 : ν
deriving DecidableEq, Repr

/-- The inputs of one envelope step: the gate voltage, the sample period and the four parameters (R154). -/
structure EnvIn (ν : Type) where
  gateV : ν
  dt : ν
  att : ν
  dec : ν
  sus : ν
  rel : ν
deriving DecidableEq, Repr

/-- The registers of unit `k`. -/
def Voice.envUnit {ν : Type} (v : Voice ν) (k : Fin 3) : EnvUnit ν where
  st := v.envSt.get k
  out := v.num (.envOut k)
  prog := v.num (.envProg k)
  gprev := v.envGprev.get k
  rel0 := v.num (.envRel0 k)

/-- The inputs of unit `k`. -/
def Voice.envIn {ν : Type} (v : Voice ν) (k : Fin 3) : EnvIn ν where
  gateV := v.num (.gateV k)
  dt := v.num .dt
  att := v.num (.att k)
  dec := v.num (.dec k)
  sus := v.num (.sus k)
  rel := v.num (.rel k)

/-- Writing the registers of unit `k`. -/
def Voice.setEnvUnit {ν : Type} (v : Voice ν) (k : Fin 3) (u : EnvUnit ν) : Voice ν :=
  ((((v.setEnvSt k u.st).setNum (.envOut k) u.out).setNum (.envProg k) u.prog).setGprev k u.gprev).setNum
    (.envRel0 k) u.rel0

/-- The gate edges, evaluated first (R147): rising goes to Attack from any state and keeps the output;
falling goes to Release from any state but Idle and records the output. -/
def envEdge {ν : Type} (N : Numerics ν) (gate : Bool) (u : EnvUnit ν) : EnvUnit ν :=
  if gate && !u.gprev then { u with st := .attack, prog := int N 0 }
  else if !gate && u.gprev && u.st != .idle then
    { u with st := .release, prog := int N 0, rel0 := u.out }
  else u

/-- Attack (R148): `A ≤ 0` is instantaneous, else the output rises by `dt / max(A, EPS_DIV)`. -/
def envAttack {ν : Type} (N : Numerics ν) (c : Config ν) (x : EnvIn ν) (u : EnvUnit ν) : Calc (EnvUnit ν) := do
  let prog ← N.add u.prog x.dt
  let instant ← N.le x.att (int N 0)
  let out ←
    if instant then pure (int N 1)
    else do
      let ae ← maxNum N x.att c.epsDiv
      let d ← N.div x.dt ae
      N.add u.out d
  let full ← N.le (int N 1) out
  pure (if full then { u with st := .decay, out := int N 1, prog := int N 0 }
    else { u with out := out, prog := prog })

/-- Decay (R149), `sc` the clamped sustain level: linear from 1, recomputed from `prog`. -/
def envDecay {ν : Type} (N : Numerics ν) (c : Config ν) (x : EnvIn ν) (sc : ν) (u : EnvUnit ν) :
    Calc (EnvUnit ν) := do
  let de ← maxNum N x.dec c.epsDiv
  let prog ← N.add u.prog x.dt
  let d ← N.sub sc (int N 1)
  let t ← N.div prog de
  let y ← N.mul d t
  let out ← N.add (int N 1) y
  let elapsed ← N.le de prog
  let reached ← N.le out sc
  pure (if elapsed || reached then { u with st := .sustain, out := sc, prog := int N 0 }
    else { u with out := out, prog := prog })

/-- Release (R152): linear from `rel0`, recomputed from `prog`; Idle with output 0 at the end. -/
def envRelease {ν : Type} (N : Numerics ν) (c : Config ν) (x : EnvIn ν) (u : EnvUnit ν) : Calc (EnvUnit ν) := do
  let re ← maxNum N x.rel c.epsDiv
  let prog ← N.add u.prog x.dt
  let t ← N.div prog re
  let y ← N.sub (int N 1) t
  let out ← N.mul u.rel0 y
  let elapsed ← N.le re prog
  let reached ← N.le out (envEps N)
  pure (if elapsed || reached then { u with st := .idle, out := int N 0, prog := int N 0 }
    else { u with out := out, prog := prog })

/-- The action of the state after the edge, exactly one (R153). -/
def envAction {ν : Type} (N : Numerics ν) (c : Config ν) (x : EnvIn ν) (sc : ν) (u : EnvUnit ν) :
    Calc (EnvUnit ν) :=
  match u.st with
  | .idle => .ok { u with out := int N 0 }
  | .attack => envAttack N c x u
  | .decay => envDecay N c x sc u
  | .sustain => .ok { u with out := sc }
  | .release => envRelease N c x u

/-- `env_step(k)` as a function of the unit and its inputs (R153): gate (`GATE_V >= 1.0`, R146), edge,
action, remember the gate. -/
def envStepUnit {ν : Type} (N : Numerics ν) (c : Config ν) (x : EnvIn ν) (u : EnvUnit ν) :
    Calc (EnvUnit ν) := do
  let gate ← N.le (int N 1) x.gateV
  let sc ← clamp N x.sus (int N 0) (int N 1)
  let u' ← envAction N c x sc (envEdge N gate u)
  pure { u' with gprev := gate }

/-- `env_step(k)` (R153). -/
def envStep {ν : Type} (N : Numerics ν) (c : Config ν) (k : Fin 3) (v : Voice ν) : Calc (Voice ν) := do
  let u ← envStepUnit N c (v.envIn k) (v.envUnit k)
  pure (v.setEnvUnit k u)

/-- `ENV.STEP k` (R154). -/
def envStepCmd {ν : Type} (N : Numerics ν) (c : Config ν) (idx : Idx) (v : Voice ν) : Calc (Voice ν) :=
  match chainIdx idx with
  | none => .ok (v.raise .idx)
  | some k => do
    let v' ← envStep N c k v
    pure (v'.setNum .r0 (v'.num (.envOut k)))

/-- The reset condition of an envelope unit (R155, 10_state.md R36). -/
def envUnitReset {ν : Type} (N : Numerics ν) : EnvUnit ν where
  st := .idle
  out := int N 0
  prog := int N 0
  gprev := false
  rel0 := int N 0

/-- `ENV.RST k` (R155). -/
def envRst {ν : Type} (N : Numerics ν) (idx : Idx) (v : Voice ν) : Calc (Voice ν) :=
  match chainIdx idx with
  | none => .ok (v.raise .idx)
  | some k => .ok (v.setEnvUnit k (envUnitReset N))

/-- The meaning of `ENV.STEP`. -/
def execEnvStep (idx : Idx) (s : State) : Host.Outcome State Fault Refusal :=
  finish s (envStepCmd f32 s.config idx s.voice)

/-- The meaning of `ENV.RST`. -/
def execEnvRst (idx : Idx) (s : State) : Host.Outcome State Fault Refusal :=
  finish s (envRst f32 idx s.voice)

end Sys2Proof.Machine
end

