-- ==== Sys2Proof/Machine/Filter.lean ====
section
/-! DEFINITION. OnePoleFilter: `FLT.PROC`, `CUT.MOD` (45_filter.md). -/

namespace Sys2Proof.Machine

/-- The filter coefficient (R165), `cc` the clamped cutoff and `dtf` the sample period: the rational form,
or the swept form where `swept`. The grouping is the rule's. -/
def fltAlpha {ν : Type} (N : Numerics ν) (c : Config ν) (swept : Bool) (dtf cc : ν) : Calc ν :=
  if swept then do
    let a ← N.mul dtf c.fltK
    let b ← N.mul a cc
    let d ← N.mul b cc
    clamp N d (int N 0) (int N 1)
  else do
    let a ← N.mul (int N 2) c.pi
    let b ← N.mul a cc
    let d ← N.div (int N 1) b
    let e ← N.add dtf d
    N.div dtf e

/-- `flt_step(y, x, c, sw)` (R165 to R167): the cutoff is clamped to [20, 20000] Hz, the sample period is
`1 / max(SR, EPS_DIV)`, and the output moves toward the input by `alpha`. -/
def fltStep {ν : Type} (N : Numerics ν) (c : Config ν) (sr : ν) (y x cutoff : ν) (swept : Bool) : Calc ν := do
  let cc ← clamp N cutoff (int N 20) (int N 20000)
  let se ← maxNum N sr c.epsDiv
  let dtf ← N.div (int N 1) se
  let alpha ← fltAlpha N c swept dtf cc
  let d ← N.sub x y
  let m ← N.mul alpha d
  N.add y m

/-- `FLT.PROC k` (R168). -/
def fltProc {ν : Type} (N : Numerics ν) (c : Config ν) (idx : Idx) (v : Voice ν) : Calc (Voice ν) :=
  match chainIdx idx with
  | none => .ok (v.raise .idx)
  | some k => do
    let y ← fltStep N c (v.num .sr) (v.num (.fltOut k)) (v.num .a0) (v.num .a1) (sw (v.cfgc.get k))
    pure ((v.setNum (.fltOut k) y).setNum .r0 y)

/-- `cut_mod(k)` for a modulation that is not the reserved one (R169). The result is not clamped. -/
def cutoffBy {ν : Type} (N : Numerics ν) (c : Config ν) (m : CutMode) (cut cv : ν) : Calc ν :=
  match m with
  | .fixed => .ok cut
  | .summed => do
    let d ← N.mul c.cutCvGain cv
    N.add cut d
  | .exponential => do
    let u ← N.mul cv (cvScale N)
    let w ← N.mul u (int N 10)
    let e ← N.app c.exp2 w
    N.mul cut e

/-- `CUT.MOD k` (R170): the reserved `CMOD = 3` raises `F_CFG` (60_exceptions.md R203). -/
def cutModCmd {ν : Type} (N : Numerics ν) (c : Config ν) (idx : Idx) (v : Voice ν) : Calc (Voice ν) :=
  match chainIdx idx with
  | none => .ok (v.raise .idx)
  | some k =>
    match cmod (v.cfgc.get k) with
    | none => .ok (v.raise .cfg)
    | some m => do
      let x ← cutoffBy N c m (v.num (.cut k)) (v.num (.cutCv k))
      pure (v.setNum (.cutoff k) x)

/-- The meaning of `FLT.PROC`. -/
def execFltProc (idx : Idx) (s : State) : Host.Outcome State Fault Refusal :=
  finish s (fltProc f32 s.config idx s.voice)

/-- The meaning of `CUT.MOD`. -/
def execCutMod (idx : Idx) (s : State) : Host.Outcome State Fault Refusal :=
  finish s (cutModCmd f32 s.config idx s.voice)

end Sys2Proof.Machine
end

