-- ==== Sys2Proof/Machine/Phase.lean ====
section
/-! DEFINITION. PhaseAccumulator and frequency conversion: `PH.ADV`, `PH.RST`, `FRQ.CV` (41_phase.md). -/

namespace Sys2Proof.Machine

/-- `phase_advance(p, f, dt)`: one multiplication, one addition, one comparison, at most one subtraction
(R110). No test for a negative phase and no second wrap (R112). -/
def phaseAdvance {ν : Type} (N : Numerics ν) (p f dt : ν) : Calc ν := do
  let d ← N.mul f dt
  let q ← N.add p d
  let wrap ← N.le (int N 1) q
  if wrap then N.sub q (int N 1) else pure q

/-- `PH.ADV j` (R111). -/
def phAdv {ν : Type} (N : Numerics ν) (idx : Idx) (v : Voice ν) : Calc (Voice ν) :=
  match phaseIdx idx with
  | none => .ok (v.raise .idx)
  | some j => do
    let q ← phaseAdvance N (v.num (.ph j)) (v.num .a0) (v.num .dt)
    pure ((v.setNum (.ph j) q).setNum .r0 q)

/-- `PH.RST j` (R113). -/
def phRst {ν : Type} (N : Numerics ν) (idx : Idx) (v : Voice ν) : Calc (Voice ν) :=
  match phaseIdx idx with
  | none => .ok (v.raise .idx)
  | some j => .ok (v.setNum (.ph j) (int N 0))

/-- `abs_to_freq(f)`: the clamp to [`F_MIN`, `F_MAX`] = [10, 20000] Hz (R114). -/
def absToFreq {ν : Type} (N : Numerics ν) (f : ν) : Calc ν :=
  clamp N f (int N 10) (int N 20000)

/-- `pitch_to_freq(v)`: `BASE_FREQ * 2^v`, clamped (R114). -/
def pitchToFreq {ν : Type} (N : Numerics ν) (c : Config ν) (pitch : ν) : Calc ν := do
  let e ← N.app c.exp2 pitch
  let f ← N.mul c.baseFreq e
  absToFreq N f

/-- `chain_freq(k)`: the absolute frequency where `CFGC[k].FA = 1`, else the pitch (R114). -/
def chainFreq {ν : Type} (N : Numerics ν) (c : Config ν) (v : Voice ν) (k : Fin 3) : Calc ν :=
  if fa (v.cfgc.get k) then absToFreq N (v.num (.fabs k)) else pitchToFreq N c (v.num (.pitch k))

/-- `FRQ.CV k` (R115). -/
def frqCv {ν : Type} (N : Numerics ν) (c : Config ν) (idx : Idx) (v : Voice ν) : Calc (Voice ν) :=
  match chainIdx idx with
  | none => .ok (v.raise .idx)
  | some k => do
    let f ← chainFreq N c v k
    pure (v.setNum (.freq k) f)

/-- The meaning of `PH.ADV`. -/
def execPhAdv (idx : Idx) (s : State) : Host.Outcome State Fault Refusal :=
  finish s (phAdv f32 idx s.voice)

/-- The meaning of `PH.RST`. -/
def execPhRst (idx : Idx) (s : State) : Host.Outcome State Fault Refusal :=
  finish s (phRst f32 idx s.voice)

/-- The meaning of `FRQ.CV`. -/
def execFrqCv (idx : Idx) (s : State) : Host.Outcome State Fault Refusal :=
  finish s (frqCv f32 s.config idx s.voice)

end Sys2Proof.Machine
end

