-- ==== Sys2Proof/Machine/WaveTable.lean ====
section
/-! DEFINITION. WaveTable operations: `WT.BUILD`, `WT.LOOKUP` (40_wavetable.md). -/

namespace Sys2Proof.Machine

/-- `N = max(WT_SIZE, 1)` (R100). -/
def tableSize {ν : Type} (c : Config ν) : Nat := (max c.wtSize 1).toNat

/-- `wt_index(p) = floor(p * N) mod N`, the floored modulo (R102). -/
def wtIndex {ν : Type} (N : Numerics ν) (c : Config ν) (p : ν) : Calc Nat := do
  let t ← N.mul p (int N (tableSize c))
  let f ← N.floor t
  pure ((f.getD (c.floorInf t)) % (tableSize c : Int)).toNat

/-- The value of a cell; a cell without one stops (10_state.md R37). -/
def cellValue {ν : Type} : Option ν → Calc ν
  | some x => .ok x
  | none => .error .noValue

/-- `wt_lookup(p) = WT[wt_index(p)]` (R102): no interpolation. -/
def wtLookup {ν : Type} (N : Numerics ν) (c : Config ν) (m : Memory ν) (p : ν) : Calc ν := do
  let i ← wtIndex N c p
  cellValue (Memory.read m i)

/-- The sample of cell `i`: `WT_AMP * sin(2π·x)` with `x = i / N` (R101). -/
def wtSample {ν : Type} (N : Numerics ν) (c : Config ν) (i : Nat) : Calc ν := do
  let x ← N.div (int N i) (int N (tableSize c))
  let y ← N.app c.sin2pi x
  N.mul c.wtAmp y

/-- Writing cell `i` with its sample. -/
def wtFillCell {ν : Type} (N : Numerics ν) (c : Config ν) (m : Memory ν) (i : Nat) : Calc (Memory ν) := do
  let x ← wtSample N c i
  pure (Memory.write m i x)

/-- The loop of `WT.BUILD`: cells 0 to N - 1, ascending (R101). -/
def wtFill {ν : Type} (N : Numerics ν) (c : Config ν) (m : Memory ν) : Calc (Memory ν) :=
  (List.range (tableSize c)).foldlM (wtFillCell N c) m

/-- `WT.BUILD` (R101). -/
def wtBuild {ν : Type} (N : Numerics ν) (c : Config ν) (idx : Idx) (v : Voice ν) : Calc (Voice ν) :=
  match noIdx idx with
  | none => .ok (v.raise .idx)
  | some _ =>
    if v.wtb then .ok (v.raise .wtr)
    else do
      let m ← wtFill N c v.wt
      pure ((v.setWt m).setStatus (setBit v.status wtbBit))

/-- `WT.LOOKUP j` (R103, R104). -/
def wtLookupCmd {ν : Type} (N : Numerics ν) (c : Config ν) (idx : Idx) (v : Voice ν) : Calc (Voice ν) :=
  match phaseIdx idx with
  | none => .ok (v.raise .idx)
  | some j =>
    if v.wtb then do
      let x ← wtLookup N c v.wt (v.num (.ph j))
      pure (v.setNum .r0 x)
    else .ok (v.raise .wtu)

/-- The meaning of `WT.BUILD`. -/
def execWtBuild (idx : Idx) (s : State) : Host.Outcome State Fault Refusal :=
  finish s (wtBuild f32 s.config idx s.voice)

/-- The meaning of `WT.LOOKUP`. -/
def execWtLookup (idx : Idx) (s : State) : Host.Outcome State Fault Refusal :=
  finish s (wtLookupCmd f32 s.config idx s.voice)

end Sys2Proof.Machine
end

