-- ==== Sys2Proof/Machine/Waveform.lean ====
section
/-! DEFINITION. WaveformGenerator: `WG.SINT`, `WG.SIND`, `WG.TRI`, `WG.SAW`, `WG.SQR`, `PW.MOD`
(42_waveform.md). Every formula is applied literally to a phase outside [0, 1) (R120). -/

namespace Sys2Proof.Machine

/-- `sine_t(p)`: by table (R121). -/
def sineTable {ν : Type} (N : Numerics ν) (c : Config ν) (m : Memory ν) (p : ν) : Calc ν :=
  wtLookup N c m p

/-- `sine_d(p) = sin(2π·p)`: direct (R122). -/
def sineDirect {ν : Type} (N : Numerics ν) (c : Config ν) (p : ν) : Calc ν :=
  N.app c.sin2pi p

/-- The sine by the strategy `CFG0.SD` selects: 1 direct, 0 by table (R122, R133). -/
def sineBy {ν : Type} (N : Numerics ν) (c : Config ν) (v : Voice ν) (p : ν) : Calc ν :=
  if sd v.cfg0 then sineDirect N c p else sineTable N c v.wt p

/-- `tri(p) = (p < 0.5) ? 4 * p - 1 : 3 - 4 * p` (R123). -/
def tri {ν : Type} (N : Numerics ν) (p : ν) : Calc ν := do
  let rising ← N.lt p (N.lit 1 2)
  let q ← N.mul (int N 4) p
  if rising then N.sub q (int N 1) else N.sub (int N 3) q

/-- `saw(p) = 2 * p - 1` (R124). -/
def saw {ν : Type} (N : Numerics ν) (p : ν) : Calc ν := do
  let q ← N.mul (int N 2) p
  N.sub q (int N 1)

/-- `square(p, w) = (p < clamp(w, 0.01, 0.99)) ? +1 : -1` (R125). -/
def square {ν : Type} (N : Numerics ν) (p w : ν) : Calc ν := do
  let wc ← clamp N w (wMin N) (wMax N)
  let high ← N.lt p wc
  pure (if high then int N 1 else N.minusOne)

/-- `wave(sel, p, w)`: the waveform selector of the chains (R133). -/
def waveOf {ν : Type} (N : Numerics ν) (c : Config ν) (v : Voice ν) (sel : Wave) (p w : ν) : Calc ν :=
  match sel with
  | .sine => sineBy N c v p
  | .triangle => tri N p
  | .saw => saw N p
  | .square => square N p w

/-- `pw_mod(k) = clamp(PW[k] + PWM_AMT[k] * (PWM_CV[k] * 0.1), 0.01, 0.99)` (R131). -/
def pulseWidth {ν : Type} (N : Numerics ν) (pw amt cv : ν) : Calc ν := do
  let u ← N.mul cv (cvScale N)
  let d ← N.mul amt u
  let w ← N.add pw d
  clamp N w (wMin N) (wMax N)

/-- `WG.SINT j` (R126). -/
def wgSint {ν : Type} (N : Numerics ν) (c : Config ν) (idx : Idx) (v : Voice ν) : Calc (Voice ν) :=
  match phaseIdx idx with
  | none => .ok (v.raise .idx)
  | some j =>
    if v.wtb then do
      let x ← sineTable N c v.wt (v.num (.ph j))
      pure (v.setNum .r0 x)
    else .ok (v.raise .wtu)

/-- `WG.SIND j` (R127). -/
def wgSind {ν : Type} (N : Numerics ν) (c : Config ν) (idx : Idx) (v : Voice ν) : Calc (Voice ν) :=
  match phaseIdx idx with
  | none => .ok (v.raise .idx)
  | some j => do
    let x ← sineDirect N c (v.num (.ph j))
    pure (v.setNum .r0 x)

/-- `WG.TRI j` (R128). -/
def wgTri {ν : Type} (N : Numerics ν) (idx : Idx) (v : Voice ν) : Calc (Voice ν) :=
  match phaseIdx idx with
  | none => .ok (v.raise .idx)
  | some j => do
    let x ← tri N (v.num (.ph j))
    pure (v.setNum .r0 x)

/-- `WG.SAW j` (R129). -/
def wgSaw {ν : Type} (N : Numerics ν) (idx : Idx) (v : Voice ν) : Calc (Voice ν) :=
  match phaseIdx idx with
  | none => .ok (v.raise .idx)
  | some j => do
    let x ← saw N (v.num (.ph j))
    pure (v.setNum .r0 x)

/-- `WG.SQR j` (R130): the width is `A0`. -/
def wgSqr {ν : Type} (N : Numerics ν) (idx : Idx) (v : Voice ν) : Calc (Voice ν) :=
  match phaseIdx idx with
  | none => .ok (v.raise .idx)
  | some j => do
    let x ← square N (v.num (.ph j)) (v.num .a0)
    pure (v.setNum .r0 x)

/-- `PW.MOD k` (R132). -/
def pwMod {ν : Type} (N : Numerics ν) (idx : Idx) (v : Voice ν) : Calc (Voice ν) :=
  match chainIdx idx with
  | none => .ok (v.raise .idx)
  | some k => do
    let w ← pulseWidth N (v.num (.pw k)) (v.num (.pwmAmt k)) (v.num (.pwmCv k))
    pure (v.setNum (.width k) w)

/-- The meaning of `WG.SINT`. -/
def execWgSint (idx : Idx) (s : State) : Host.Outcome State Fault Refusal :=
  finish s (wgSint f32 s.config idx s.voice)

/-- The meaning of `WG.SIND`. -/
def execWgSind (idx : Idx) (s : State) : Host.Outcome State Fault Refusal :=
  finish s (wgSind f32 s.config idx s.voice)

/-- The meaning of `WG.TRI`. -/
def execWgTri (idx : Idx) (s : State) : Host.Outcome State Fault Refusal :=
  finish s (wgTri f32 idx s.voice)

/-- The meaning of `WG.SAW`. -/
def execWgSaw (idx : Idx) (s : State) : Host.Outcome State Fault Refusal :=
  finish s (wgSaw f32 idx s.voice)

/-- The meaning of `WG.SQR`. -/
def execWgSqr (idx : Idx) (s : State) : Host.Outcome State Fault Refusal :=
  finish s (wgSqr f32 idx s.voice)

/-- The meaning of `PW.MOD`. -/
def execPwMod (idx : Idx) (s : State) : Host.Outcome State Fault Refusal :=
  finish s (pwMod f32 idx s.voice)

end Sys2Proof.Machine
end

