-- ==== Sys2Proof/Machine/HarmonicBank.lean ====
section
/-! DEFINITION. HarmonicBank: `HB.TICK` (43_harmonic_bank.md). -/

namespace Sys2Proof.Machine

/-- The eight slots, ascending (R138). -/
def slots : List (Fin 8) := [0, 1, 2, 3, 4, 5, 6, 7]

/-- `slot_freq(i)`: the integer ratio of the clamped base frequency, or the table's entry, both unclamped
(R136). -/
def slotFreq {ν : Type} (N : Numerics ν) (c : Config ν) (cfg0 : Word) (fb : ν) (i : Fin 8) : Calc ν :=
  match fsel cfg0 with
  | none => N.mul fb (int N (i + 1))
  | some m => .ok (c.ftab m i)

/-- `slot_amp(i)`: the scaled CV where it is connected, else the clamped manual level (R137). -/
def slotAmp {ν : Type} (N : Numerics ν) (v : Voice ν) (i : Fin 8) : Calc ν :=
  if hc v.cfg0 i then cvUnit N (v.num (.hcv i))
  else clamp N (v.num (.level i)) (int N 0) (int N 1)

/-- One slot of `hb_tick`: frequency, advance, amplitude, sine of the updated phase, accumulate, latch
(R138). The block and the running sum are threaded through. -/
def hbSlot {ν : Type} (N : Numerics ν) (c : Config ν) (fb : ν) (acc : Voice ν × ν) (i : Fin 8) :
    Calc (Voice ν × ν) := do
  let v := acc.1
  let f ← slotFreq N c v.cfg0 fb i
  let p ← phaseAdvance N (v.num (.ph (slotPhase i))) f (v.num .dt)
  let a ← slotAmp N v i
  let x ← sineBy N c v p
  let y ← N.mul a x
  let sum ← N.add acc.2 y
  pure (((v.setNum (.ph (slotPhase i)) p).setNum (.slotF i) f).setNum (.slotA i) a, sum)

/-- `hb_tick()` (R138): `HB_OUT = (OUT_GAIN * sum) / 8`. -/
def hbTick {ν : Type} (N : Numerics ν) (c : Config ν) (v : Voice ν) : Calc (Voice ν) := do
  let fb ← absToFreq N (v.num (.freq 0))
  let r ← slots.foldlM (hbSlot N c fb) (v, int N 0)
  let g ← N.mul (outGain N v.cfg0) r.2
  let o ← N.div g (int N 8)
  pure (r.1.setNum .hbOut o)

/-- Whether the bank needs a table that is not built: `CFG0.SD = 0` and `STATUS.WTB = 0` (R139). -/
def bankUnbuilt {ν : Type} (v : Voice ν) : Bool := !(sd v.cfg0) && !v.wtb

/-- `HB.TICK` (R139). -/
def hbTickCmd {ν : Type} (N : Numerics ν) (c : Config ν) (idx : Idx) (v : Voice ν) : Calc (Voice ν) :=
  match noIdx idx with
  | none => .ok (v.raise .idx)
  | some _ => if bankUnbuilt v then .ok (v.raise .wtu) else hbTick N c v

/-- The meaning of `HB.TICK`. -/
def execHbTick (idx : Idx) (s : State) : Host.Outcome State Fault Refusal :=
  finish s (hbTickCmd f32 s.config idx s.voice)

end Sys2Proof.Machine
end

