-- ==== Sys2Proof/Machine/System.lean ====
section
/-! DEFINITION. System operations: `NOP` (47_system.md). -/

namespace Sys2Proof.Machine

/-- `NOP` (R190): the state after the step is the state before it. -/
def nop {ν : Type} (idx : Idx) (v : Voice ν) : Calc (Voice ν) :=
  match noIdx idx with
  | none => .ok (v.raise .idx)
  | some _ => .ok v

/-- The meaning of `NOP`. -/
def execNop (idx : Idx) (s : State) : Host.Outcome State Fault Refusal :=
  finish s (nop idx s.voice)

end Sys2Proof.Machine
end

