-- ==== Sys2Proof/Machine/VoiceGraph.lean ====
section
/-! DEFINITION. VoiceGraph, the per-sample mixer: `VG.BANK`, `VG.TRIO` (46_voice_graph.md). The stages
run in the order of 00_scope.md R3. -/

namespace Sys2Proof.Machine

/-- `amp_factor()` (R177): the scaled amplitude CV where it is connected, else 1. -/
def ampFactor {ν : Type} (N : Numerics ν) (v : Voice ν) : Calc ν :=
  if ac v.cfg0 then cvUnit N (v.num .ampCv) else .ok (int N 1)

/-- Stages common to both instruments: the cutoff of unit `k` by mode `m`, then the filter on `x`
(R176, R178). -/
def filterStage {ν : Type} (N : Numerics ν) (c : Config ν) (k : Fin 3) (m : CutMode) (x : ν) (v : Voice ν) :
    Calc (Voice ν) := do
  let co ← cutoffBy N c m (v.num (.cut k)) (v.num (.cutCv k))
  let y ← fltStep N c (v.num .sr) (v.num (.fltOut k)) x co (sw (v.cfgc.get k))
  pure ((v.setNum (.cutoff k) co).setNum (.fltOut k) y)

/-- The tick of the HarmonicBank instrument, after its fault checks (R176); `m` is `CFGC[0].CMOD`. The
gain is applied inside the bank (R180). -/
def bankTick {ν : Type} (N : Numerics ν) (c : Config ν) (m : CutMode) (v : Voice ν) : Calc (Voice ν) := do
  let f ← chainFreq N c v 0
  let v1 ← hbTick N c (v.setNum (.freq 0) f)
  let v2 ← envStep N c 0 v1
  let v3 ← filterStage N c 0 m (v2.num .hbOut) v2
  let e ← N.mul (v3.num (.fltOut 0)) (v3.num (.envOut 0))
  let af ← ampFactor N v3
  let o ← N.mul e af
  pure ((v3.setNum (.out 0) o).setNum .mix o)

/-- `VG.BANK` (R176, R181): `F_CFG`, then `F_WTU`, before any write. -/
def vgBank {ν : Type} (N : Numerics ν) (c : Config ν) (idx : Idx) (v : Voice ν) : Calc (Voice ν) :=
  match noIdx idx with
  | none => .ok (v.raise .idx)
  | some _ =>
    match cmod (v.cfgc.get 0) with
    | none => .ok (v.raise .cfg)
    | some m => if bankUnbuilt v then .ok (v.raise .wtu) else bankTick N c m v

/-- One chain of the three-chain instrument (R178): frequency, phase, width, waveform, envelope, cutoff,
filter, output; `af` is the amplitude factor and `m` is `CFGC[k].CMOD`. The gain is applied at the end of
the chain (R180). -/
def chainTick {ν : Type} (N : Numerics ν) (c : Config ν) (af : ν) (k : Fin 3) (m : CutMode) (v : Voice ν) :
    Calc (Voice ν) := do
  let f ← chainFreq N c v k
  let p ← phaseAdvance N (v.num (.ph (chainPhase k))) f (v.num .dt)
  let w ← pulseWidth N (v.num (.pw k)) (v.num (.pwmAmt k)) (v.num (.pwmCv k))
  let x ← waveOf N c v (waveSel (v.cfgc.get k)) p w
  let v1 := ((v.setNum (.freq k) f).setNum (.ph (chainPhase k)) p).setNum (.width k) w
  let v2 ← envStep N c k v1
  let v3 ← filterStage N c k m x v2
  let g ← N.mul (outGain N v3.cfg0) (v3.num (.fltOut k))
  let e ← N.mul g (v3.num (.envOut k))
  let o ← N.mul e af
  pure (v3.setNum (.out k) o)

/-- The mix of the three chains (R179): `((OUT[0] + OUT[1]) + OUT[2]) / 3`. -/
def mixOf {ν : Type} (N : Numerics ν) (a b c : ν) : Calc ν := do
  let s ← N.add a b
  let t ← N.add s c
  N.div t (int N 3)

/-- The tick of the three-chain instrument, after its fault checks (R178); `m0`, `m1`, `m2` are the
chains' `CMOD`. -/
def trioTick {ν : Type} (N : Numerics ν) (c : Config ν) (m0 m1 m2 : CutMode) (v : Voice ν) : Calc (Voice ν) := do
  let af ← ampFactor N v
  let v0 ← chainTick N c af 0 m0 v
  let v1 ← chainTick N c af 1 m1 v0
  let v2 ← chainTick N c af 2 m2 v1
  let x ← mixOf N (v2.num (.out 0)) (v2.num (.out 1)) (v2.num (.out 2))
  pure (v2.setNum .mix x)

/-- Whether the three chains need a table that is not built: `CFG0.SD = 0`, `STATUS.WTB = 0`, and some
chain a sine (R178, R181). -/
def trioUnbuilt {ν : Type} (v : Voice ν) : Bool :=
  bankUnbuilt v &&
    (waveSel (v.cfgc.get 0) == .sine || waveSel (v.cfgc.get 1) == .sine || waveSel (v.cfgc.get 2) == .sine)

/-- `VG.TRIO` (R178, R181): `F_CFG` where any chain's `CMOD` is 3, then `F_WTU`, before any write. -/
def vgTrio {ν : Type} (N : Numerics ν) (c : Config ν) (idx : Idx) (v : Voice ν) : Calc (Voice ν) :=
  match noIdx idx with
  | none => .ok (v.raise .idx)
  | some _ =>
    match cmod (v.cfgc.get 0), cmod (v.cfgc.get 1), cmod (v.cfgc.get 2) with
    | some m0, some m1, some m2 =>
      if trioUnbuilt v then .ok (v.raise .wtu) else trioTick N c m0 m1 m2 v
    | _, _, _ => .ok (v.raise .cfg)

/-- The meaning of `VG.BANK`. -/
def execVgBank (idx : Idx) (s : State) : Host.Outcome State Fault Refusal :=
  finish s (vgBank f32 s.config idx s.voice)

/-- The meaning of `VG.TRIO`. -/
def execVgTrio (idx : Idx) (s : State) : Host.Outcome State Fault Refusal :=
  finish s (vgTrio f32 s.config idx s.voice)

end Sys2Proof.Machine
end

