-- ==== Sys2Proof/Machine/Dispatch.lean ====
section
/-! DEFINITION. The dispatch from a command to its meaning. -/

namespace Sys2Proof.Machine

def exec (i : Instr) (s : State) : Host.Outcome State Fault Refusal :=
  match i with
  | .nop idx => Sys2Proof.Machine.execNop idx s
  | .wtBuild idx => Sys2Proof.Machine.execWtBuild idx s
  | .wtLookup idx => Sys2Proof.Machine.execWtLookup idx s
  | .phAdv idx => Sys2Proof.Machine.execPhAdv idx s
  | .phRst idx => Sys2Proof.Machine.execPhRst idx s
  | .frqCv idx => Sys2Proof.Machine.execFrqCv idx s
  | .wgSint idx => Sys2Proof.Machine.execWgSint idx s
  | .wgSind idx => Sys2Proof.Machine.execWgSind idx s
  | .wgTri idx => Sys2Proof.Machine.execWgTri idx s
  | .wgSaw idx => Sys2Proof.Machine.execWgSaw idx s
  | .wgSqr idx => Sys2Proof.Machine.execWgSqr idx s
  | .pwMod idx => Sys2Proof.Machine.execPwMod idx s
  | .hbTick idx => Sys2Proof.Machine.execHbTick idx s
  | .envStep idx => Sys2Proof.Machine.execEnvStep idx s
  | .envRst idx => Sys2Proof.Machine.execEnvRst idx s
  | .fltProc idx => Sys2Proof.Machine.execFltProc idx s
  | .cutMod idx => Sys2Proof.Machine.execCutMod idx s
  | .vgBank idx => Sys2Proof.Machine.execVgBank idx s
  | .vgTrio idx => Sys2Proof.Machine.execVgTrio idx s

end Sys2Proof.Machine
end

