-- ==== Sys2Proof/Machine/Step.lean ====
section
/-! DEFINITION. One step of the machine: the host's next action (00_scope.md R9, 20_memory.md R64 to R66). -/

namespace Sys2Proof.Machine

/-- `Exec(cmd)` (20_memory.md R66, 30_encoding.md R81): an illegal word raises `F_ILL`, any other runs the
command it decodes to. -/
def hostExec (w : Cmd) (s : State) : Host.Outcome State Fault Refusal :=
  match decode w with
  | .ok i => exec i s
  | .error .illegal => raiseFault .ill s

/-- One host action. -/
def perform (a : HostAction) (s : State) : Host.Outcome State Fault Refusal :=
  match a with
  | .writeReg n w => hostWrite n w s
  | .readReg n => hostRead n s
  | .exec w => hostExec w s

/-- One step: the host's next action is performed; with none pending the block does nothing
(00_scope.md R9; log 8). -/
def step (s : State) : Host.Outcome State Fault Refusal :=
  match takeAction s with
  | none => .next s
  | some (a, s') => perform a s'

/-- The state in which the host's next action is `Exec` of the table's instruction (log 10). -/
def State.withFetchWord (s : State) (nbits w : Nat) : State :=
  s.withExec (BitVec.ofNat 16 (w % 2 ^ nbits))

end Sys2Proof.Machine
end

