-- ==== Sys2Proof/Machine/Command.lean ====
section
/-! DEFINITION. All commands over any number type and any configuration: the block as the spec writes it,
in either reading of `NUMERICS` (00_scope.md R11). The machine's `exec` is this at `f32` and the state's
configuration. -/

namespace Sys2Proof.Machine

/-- What a command does to the block (30_encoding.md R82). -/
def runCommand {ν : Type} (N : Numerics ν) (c : Config ν) (i : Instr) (v : Voice ν) : Calc (Voice ν) :=
  match i with
  | .nop idx => nop idx v
  | .wtBuild idx => wtBuild N c idx v
  | .wtLookup idx => wtLookupCmd N c idx v
  | .phAdv idx => phAdv N idx v
  | .phRst idx => phRst N idx v
  | .frqCv idx => frqCv N c idx v
  | .wgSint idx => wgSint N c idx v
  | .wgSind idx => wgSind N c idx v
  | .wgTri idx => wgTri N idx v
  | .wgSaw idx => wgSaw N idx v
  | .wgSqr idx => wgSqr N idx v
  | .pwMod idx => pwMod N idx v
  | .hbTick idx => hbTickCmd N c idx v
  | .envStep idx => envStepCmd N c idx v
  | .envRst idx => envRst N idx v
  | .fltProc idx => fltProc N c idx v
  | .cutMod idx => cutModCmd N c idx v
  | .vgBank idx => vgBank N c idx v
  | .vgTrio idx => vgTrio N c idx v

end Sys2Proof.Machine
end

