-- ==== Sys2Proof/Machine/Reals.lean ====
section
/-! DEFINITION. The reference reading `NUMERICS = REAL` (00_scope.md R11): the same rules over the exact
real numbers. It states what the spec says holds "under REAL"; the machine itself is the F32 reading. -/

namespace Sys2Proof.Machine

/-- `NUMERICS = REAL`: every operation is exact and there is no NaN and no infinity (R11, R13). A division
by zero, which no rule performs, would stop (log 15). -/
noncomputable def reals : Numerics ℝ where
  add a b := .ok (a + b)
  sub a b := .ok (a - b)
  mul a b := .ok (a * b)
  div a b := if b = 0 then .error .nan else .ok (a / b)
  lt a b := .ok (decide (a < b))
  le a b := .ok (decide (a ≤ b))
  floor a := .ok (some ⌊a⌋)
  lit n d := (n : ℝ) / (d : ℝ)
  minusOne := -1
  app f a := .ok (f a)

/-- A configuration under `REAL` (00_scope.md R7, R11): the constraints on the OPEN parameters, the exact
sine and power, and π. -/
structure RealConfig (c : Config ℝ) : Prop where
  baseFreq_pos : 0 < c.baseFreq
  epsDiv_pos : 0 < c.epsDiv
  ftab_pos : ∀ m i, 0 < c.ftab m i
  fltK_nonneg : 0 ≤ c.fltK
  sin2pi_eq : ∀ x, c.sin2pi x = Real.sin (2 * Real.pi * x)
  exp2_eq : ∀ x, c.exp2 x = (2 : ℝ) ^ x
  pi_eq : c.pi = Real.pi

end Sys2Proof.Machine
end

