-- ==== Sys2Proof/Safety.lean ====
section
/-! DEFINITION. What claims about the machine are stated in: what a command may write, what an action
leaves unchanged, which states are sound, and which runs have gone wrong. -/

namespace Sys2Proof.Machine

/-- No fault bit is set. The spec calls a state with a fault bit set "gone wrong" (60_exceptions.md R201). -/
def Voice.noFault {ν : Type} (v : Voice ν) : Prop := ∀ f : FaultBit, v.faultBit f = false

/-- Every register outside the list reads the same in both blocks. -/
def SameRegsBut (changed : List Reg) (v w : Voice NumWord) : Prop :=
  ∀ r, r ∉ changed → w.word r = v.word r

/-- Every wavetable cell reads the same in both blocks. -/
def SameTable (v w : Voice NumWord) : Prop :=
  ∀ i, Memory.read w.wt i = Memory.read v.wt i

/-- The host's side and the OPEN parameters are the same in both states. -/
def SameHost (s t : State) : Prop := t.pending = s.pending ∧ t.reply = s.reply ∧ t.params = s.params

/-- The frame of a command that stores nothing in the wavetable: every register outside the list, every
cell and the host's side are unchanged. -/
def Frame (changed : List Reg) (s t : State) : Prop :=
  SameRegsBut changed s.voice t.voice ∧ SameTable s.voice t.voice ∧ SameHost s t

/-- The phase registers, slot latches and output the bank writes (43_harmonic_bank.md R139). -/
def bankRegs : List Reg :=
  [.num (.ph 0), .num (.ph 1), .num (.ph 2), .num (.ph 3), .num (.ph 4), .num (.ph 5), .num (.ph 6),
   .num (.ph 7), .num (.slotF 0), .num (.slotF 1), .num (.slotF 2), .num (.slotF 3), .num (.slotF 4),
   .num (.slotF 5), .num (.slotF 6), .num (.slotF 7), .num (.slotA 0), .num (.slotA 1), .num (.slotA 2),
   .num (.slotA 3), .num (.slotA 4), .num (.slotA 5), .num (.slotA 6), .num (.slotA 7), .num .hbOut]

/-- The five registers of an envelope unit (44_envelope.md R154). -/
def envRegs (k : Fin 3) : List Reg :=
  [.envSt k, .num (.envOut k), .num (.envProg k), .envGprev k, .num (.envRel0 k)]

/-- The registers chain `k` of `VG.TRIO` writes (46_voice_graph.md R178). -/
def chainRegs (k : Fin 3) : List Reg :=
  [.num (.freq k), .num (.ph (chainPhase k)), .num (.width k), .num (.cutoff k), .num (.fltOut k),
   .num (.out k)] ++ envRegs k

/-- The unit an index names, if it is legal, as one list entry of registers. -/
def atUnit {n : Nat} (f : Fin n → List Reg) : Option (Fin n) → List Reg
  | some k => f k
  | none => []

/-- The registers each command may write when it performs its rule, from the "Writes" and pseudocode of
its rule (files 40 to 47). A fault writes `STATUS` instead. -/
def cmdWrites : Instr → List Reg
  | .nop _ => []
  | .wtBuild _ => [.status]
  | .wtLookup _ => [.num .r0]
  | .phAdv idx => atUnit (fun j => [.num (.ph j), .num .r0]) (phaseIdx idx)
  | .phRst idx => atUnit (fun j => [.num (.ph j)]) (phaseIdx idx)
  | .frqCv idx => atUnit (fun k => [.num (.freq k)]) (chainIdx idx)
  | .wgSint _ => [.num .r0]
  | .wgSind _ => [.num .r0]
  | .wgTri _ => [.num .r0]
  | .wgSaw _ => [.num .r0]
  | .wgSqr _ => [.num .r0]
  | .pwMod idx => atUnit (fun k => [.num (.width k)]) (chainIdx idx)
  | .hbTick _ => bankRegs
  | .envStep idx => atUnit (fun k => .num .r0 :: envRegs k) (chainIdx idx)
  | .envRst idx => atUnit envRegs (chainIdx idx)
  | .fltProc idx => atUnit (fun k => [.num (.fltOut k), .num .r0]) (chainIdx idx)
  | .cutMod idx => atUnit (fun k => [.num (.cutoff k)]) (chainIdx idx)
  | .vgBank _ =>
    [.num (.freq 0), .num (.cutoff 0), .num (.fltOut 0), .num (.out 0), .num .mix] ++ bankRegs ++ envRegs 0
  | .vgTrio _ => .num .mix :: (chainRegs 0 ++ chainRegs 1 ++ chainRegs 2)

/-- Whether a command is the one that stores in the wavetable (20_memory.md R61). -/
def cmdIsBuild : Instr → Bool
  | .wtBuild _ => true
  | .nop _ | .wtLookup _ | .phAdv _ | .phRst _ | .frqCv _ | .wgSint _ | .wgSind _ | .wgTri _ | .wgSaw _
  | .wgSqr _ | .pwMod _ | .hbTick _ | .envStep _ | .envRst _ | .fltProc _ | .cutMod _ | .vgBank _
  | .vgTrio _ => false

/-! The register numbers of 20_memory.md R62, as that table prints them. -/

/-- Host access RW. -/
def rwNumbers : List Nat :=
  [0x00, 0x01, 0x02, 0x03, 0x04, 0x05, 0x08, 0x09, 0x0A, 0x0C, 0x0D, 0x0E, 0x10, 0x11, 0x12, 0x14, 0x15, 0x16,
   0x18, 0x19, 0x1A, 0x1C, 0x1D, 0x1E, 0x20, 0x21, 0x22, 0x24, 0x25, 0x26, 0x28, 0x29, 0x2A, 0x2C, 0x2D, 0x2E,
   0x30, 0x31, 0x32, 0x34, 0x35, 0x36, 0x38, 0x39, 0x3A] ++
  [0x40, 0x41, 0x42, 0x43, 0x44, 0x45, 0x46, 0x47, 0x48, 0x49, 0x4A, 0x4B, 0x4C, 0x4D, 0x4E, 0x4F]

/-- Host access RO. -/
def roNumbers : List Nat :=
  [0x80, 0x81, 0x82, 0x83, 0x84, 0x85, 0x86, 0x87, 0x88, 0x89, 0x8A, 0x90, 0x91, 0x92, 0x93, 0x94, 0x95, 0x96,
   0x97, 0x98, 0x99, 0x9A, 0x9B, 0x9C, 0x9D, 0x9E, 0x9F, 0xA0, 0xA1, 0xA2, 0xA4, 0xA5, 0xA6, 0xA8, 0xA9, 0xAA] ++
  [0xAC, 0xAD, 0xAE, 0xB0, 0xB1, 0xB2, 0xB4, 0xB5, 0xB6, 0xB8, 0xB9, 0xBA, 0xBC, 0xBD, 0xBE, 0xC0, 0xC1, 0xC2,
   0xC4, 0xC5, 0xC6, 0xC8, 0xC9, 0xCA, 0xCB]

/-- The state in which the host's first pending action is performed: the action is taken off the list and
nothing has been returned (log 8, 9). -/
def State.taken (s : State) (rest : List HostAction) : State := { s with pending := rest, reply := none }

/-- The three kinds of command words (30_encoding.md R85). -/
inductive WordClass where
  | legal
  | badIndex
  | illegal
deriving DecidableEq, Repr

/-- The kind of a command word. -/
def classify (w : Cmd) : WordClass :=
  match decode w with
  | .ok i => if i.wellFormed then .legal else .badIndex
  | .error _ => .illegal

/-! Constants of the rules as binary32 words (95_test_vectors.md V-F32-1, V-F32-2, and exact integers). -/

/-- 1.0 -/
def oneW : NumWord := 0x3F800000

/-- The result of `clamp` on words, by order keys (00_scope.md R14). -/
def clampWord (x lo hi : NumWord) : NumWord :=
  if F32.key x < F32.key lo then lo else if F32.key hi < F32.key x then hi else x

/-- The result of `max` on words, by order keys (00_scope.md R14). -/
def maxWord (a b : NumWord) : NumWord := if F32.key a < F32.key b then b else a

/-- The table is sound: in canonical form; a cell holds a value exactly when the table is built and the
cell exists; every value is a finite number (10_state.md R35, R37; 40_wavetable.md R101). -/
def TableSound (c : Config NumWord) (v : Voice NumWord) : Prop :=
  Memory.wf v.wt ∧
  (∀ i, (Memory.read v.wt i).isSome = (v.wtb && decide (i < tableSize c))) ∧
  (∀ i x, Memory.read v.wt i = some x → F32.isFinite x = true)

/-- The reserved bits read 0 (10_state.md R28, R29, R34). -/
def ReservedZero (v : Voice NumWord) : Prop :=
  v.cfg0 &&& 0xFFFF00E0 = 0 ∧ (∀ k, v.cfgc.get k &&& 0xFFFFFFC0 = 0) ∧ v.status &&& 0xFFFFC0FE = 0

/-- No register holds a NaN, and the input registers hold finite numbers (00_scope.md R13). -/
def NumbersSound (v : Voice NumWord) : Prop :=
  (∀ r, F32.isNaN (v.num r) = false) ∧ (∀ r, r.isInput = true → F32.isFinite (v.num r) = true)

/-- The states the machine can be in: OPEN parameters within R7's constraints; table, reserved bits and numbers
sound. -/
def Inv (s : State) : Prop :=
  s.params.allowed ∧ TableSound s.config s.voice ∧ ReservedZero s.voice ∧ NumbersSound s.voice

/-- The value of a finite binary32 number as a real number. -/
noncomputable def realValue (w : NumWord) : ℝ := (F32.units w : ℝ) / 2 ^ 149

/-- An operation answers the exact value `x` rounded once to nearest, ties to even: where `|x|` is below the
midpoint of the largest finite number and `2^128`, a finite number to which no finite number is nearer, and whose
last bit is 0 where another is as near; from that midpoint on, the infinity of the sign of `x` (00_scope.md R11;
log 2). -/
def RoundsTo (o : Calc NumWord) (x : ℝ) : Prop :=
  ∃ r, o = .ok r ∧
    (|x| < 2 ^ 128 - 2 ^ 103 → F32.isFinite r = true ∧ ∀ w, F32.isFinite w = true →
      |realValue r - x| ≤ |realValue w - x| ∧
      (|realValue r - x| = |realValue w - x| → realValue w ≠ realValue r → r.getLsbD 0 = false)) ∧
    (2 ^ 128 - 2 ^ 103 ≤ |x| → (0 < x → r = 0x7F800000) ∧ (x < 0 → r = 0xFF800000))

/-- The envelope outputs and release levels are in [0, 1] and the progress counters are not negative
(10_state.md R30). -/
def EnvelopesInRange (v : Voice NumWord) : Prop :=
  ∀ k, (0 ≤ F32.key (v.num (.envOut k)) ∧ F32.key (v.num (.envOut k)) ≤ F32.key (F32.lit 1 1)) ∧
    (0 ≤ F32.key (v.num (.envRel0 k)) ∧ F32.key (v.num (.envRel0 k)) ≤ F32.key (F32.lit 1 1)) ∧
    0 ≤ F32.key (v.num (.envProg k))

end Sys2Proof.Machine
end

