-- ==== Sys2Proof/Certificates/Slice0/Obligations.lean ====
section
/-! DEFINITION. The statements about the machine, from the numbered rules of the spec. -/

open Sys2Proof Sys2Proof.Machine

/-! ## Encoding and decoding -/

/-- Every command is read back from its own word: no bit of an encoding is dropped (30_encoding.md R80 to
R82). -/
def Obligations.DecodeInvertsEncode : Prop :=
  ∀ i : Instr, decode (encode i) = .ok i

/-- Every word that decodes is the word of the command it decodes to, so no two words mean the same
command (30_encoding.md R80 to R82). -/
def Obligations.EncodeInvertsDecode : Prop :=
  ∀ (w : Cmd) (i : Instr), decode w = .ok i → encode i = w

/-- 30_encoding.md R84: an unassigned `op` or a non-zero `z` raises `F_ILL`; an assigned `op` with `z = 0`
and `idx ≥ LIMIT(op)` raises `F_IDX`; neither changes anything but the fault bit; and 0x0000 is the one legal
word that decodes to `NOP`. That the action leaves the host's list and that nothing is returned are the model's
own fields (log 8, 9). -/
def Obligations.IllegalWordsRaiseTheirFault : Prop :=
  (∀ (s : State) (w : Cmd),
    (w.extractLsb' 4 4 ≠ 0 ∨
      w.extractLsb' 8 8 ∉ [0x00#8, 0x10#8, 0x11#8, 0x20#8, 0x21#8, 0x22#8, 0x30#8, 0x31#8, 0x32#8, 0x33#8, 0x34#8,
        0x35#8, 0x40#8, 0x50#8, 0x51#8, 0x60#8, 0x61#8, 0x70#8, 0x71#8]) →
    step (s.withExec w) = .next ((s.taken s.pending).withVoice (s.voice.raise .ill))) ∧
  (∀ (s : State) (w : Cmd) (i : Instr), decode w = .ok i → i.limit ≤ (w.extractLsb' 0 4).toNat →
    step (s.withExec w) = .next ((s.taken s.pending).withVoice (s.voice.raise .idx))) ∧
  (∀ (w : Cmd) (idx : Idx), decode w = .ok (.nop idx) → (Instr.nop idx).wellFormed = true → w = 0x0000)

/-- 30_encoding.md R85: of the 65536 words 111 are legal, 193 raise `F_IDX` and 65232 raise `F_ILL`. -/
def Obligations.LegalWordCounts : Prop :=
  (List.range 65536).countP (fun n => classify (BitVec.ofNat 16 n) == .legal) = 111 ∧
  (List.range 65536).countP (fun n => classify (BitVec.ofNat 16 n) == .badIndex) = 193 ∧
  (List.range 65536).countP (fun n => classify (BitVec.ofNat 16 n) == .illegal) = 65232

/-- One word of each family, written out from 30_encoding.md R80 and R82, decodes to its command. -/
def Obligations.WrittenOutWordsDecode : Prop :=
  decode 0x0000 = .ok (.nop 0) ∧ decode 0x1000 = .ok (.wtBuild 0) ∧ decode 0x110A = .ok (.wtLookup 10) ∧
  decode 0x2005 = .ok (.phAdv 5) ∧ decode 0x2202 = .ok (.frqCv 2) ∧ decode 0x3409 = .ok (.wgSqr 9) ∧
  decode 0x4000 = .ok (.hbTick 0) ∧ decode 0x5002 = .ok (.envStep 2) ∧ decode 0x6001 = .ok (.fltProc 1) ∧
  decode 0x7100 = .ok (.vgTrio 0) ∧ decode 0x20A0 = .error .illegal ∧ decode 0x3600 = .error .illegal

/-- A step whose pending action is `Exec` of a word that decodes runs the decoded command, after taking the
action off the host's list (20_memory.md R66; log 8, 9). -/
def Obligations.StepRunsTheDecodedCommand : Prop :=
  ∀ (s : State) (w : Cmd) (rest : List HostAction) (i : Instr),
    s.pending = .exec w :: rest → decode w = .ok i → step s = exec i (s.taken rest)

/-- 30_encoding.md R81, R83, R84: the index limits, operation by operation. An index at or above its limit
raises `F_IDX` and does nothing else; an index below it never raises `F_IDX` (60_exceptions.md R201). That a
command carries its index out of range and raises the fault in its own meaning, not in the decoder, is the
model's choice (log 16). -/
def Obligations.IndexLimits : Prop :=
  ∀ (s : State) (idx : Idx),
    (∀ i ∈ [Instr.nop idx, .wtBuild idx, .hbTick idx, .vgBank idx, .vgTrio idx],
      (1 ≤ idx.toNat → exec i s = .next (s.withVoice (s.voice.raise .idx))) ∧
      (idx.toNat < 1 → ∀ t, exec i s = .next t → t.voice.faultBit .idx = s.voice.faultBit .idx)) ∧
    (∀ i ∈ [Instr.wtLookup idx, .phAdv idx, .phRst idx, .wgSint idx, .wgSind idx, .wgTri idx, .wgSaw idx, .wgSqr idx],
      (11 ≤ idx.toNat → exec i s = .next (s.withVoice (s.voice.raise .idx))) ∧
      (idx.toNat < 11 → ∀ t, exec i s = .next t → t.voice.faultBit .idx = s.voice.faultBit .idx)) ∧
    (∀ i ∈ [Instr.frqCv idx, .pwMod idx, .envStep idx, .envRst idx, .fltProc idx, .cutMod idx],
      (3 ≤ idx.toNat → exec i s = .next (s.withVoice (s.voice.raise .idx))) ∧
      (idx.toNat < 3 → ∀ t, exec i s = .next t → t.voice.faultBit .idx = s.voice.faultBit .idx))

/-! ## The host's register access -/

/-- 20_memory.md R64: `WriteReg`. A host RW `Num` register takes the word (a finite one, 00_scope.md R13)
and nothing else changes; `CFG0` takes bits 4:0 and 15:8; `CFGC[k]` takes bits 5:0; any other number raises
`F_REG` and nothing is written. That it does so at every word, a NaN or an infinity to a read-only `Num` register
too, because the access check comes before R13's refusal, is the model's choice (log 13); that the action leaves
the host's list and nothing is returned are the model's own fields (log 8, 9). -/
def Obligations.WriteRegStoresOrFaults : Prop :=
  ∀ (s : State) (n : RegNum) (w : Word) (rest : List HostAction), s.pending = .writeReg n w :: rest →
    (∀ r : NumReg, r.number = n.toNat → n.toNat ∈ rwNumbers → F32.isFinite w = true →
      ∃ t, step s = .next t ∧ t.voice.num r = w ∧ Frame [.num r] (s.taken rest) t) ∧
    (n.toNat = 0x02 →
      ∃ t, step s = .next t ∧ Frame [.cfg0] (s.taken rest) t ∧
        ∀ b < 32, t.voice.cfg0.getLsbD b = (w.getLsbD b && (decide (b < 5) || (decide (8 ≤ b) && decide (b < 16))))) ∧
    (∀ k : Fin 3, n.toNat = 0x08 + k →
      ∃ t, step s = .next t ∧ Frame [.cfgc k] (s.taken rest) t ∧
        ∀ b < 32, (t.voice.cfgc.get k).getLsbD b = (w.getLsbD b && decide (b < 6))) ∧
    (n.toNat ∉ rwNumbers → step s = .next ((s.taken rest).withVoice (s.voice.raise .reg)))

/-- 20_memory.md R65: `ReadReg` of a mapped number returns the register and changes no register; an
unmapped number raises `F_REG` and returns 0. A `Num` is returned as its binary32 word (R63). -/
def Obligations.ReadRegReturnsTheRegister : Prop :=
  ∀ (s : State) (n : RegNum) (rest : List HostAction), s.pending = .readReg n :: rest →
    (∀ r : Reg, r.number = n.toNat → step s = .next { s.taken rest with reply := some (s.voice.word r) }) ∧
    (n.toNat ∉ rwNumbers → n.toNat ∉ roNumbers →
      step s = .next ({ s.taken rest with reply := some 0 }.withVoice (s.voice.raise .reg)))

/-- 20_memory.md R62: the map names a register exactly at the numbers of the table, the register named has
that number, and the `Num` registers the host may write are those of the RW rows. -/
def Obligations.RegisterMapIsTheTable : Prop :=
  (∀ n : RegNum, (Reg.ofNumber n).isSome = decide (n.toNat ∈ rwNumbers ++ roNumbers)) ∧
  (∀ n r, Reg.ofNumber n = some r ↔ r.number = n.toNat) ∧
  (∀ r : NumReg, r.isInput = decide (r.number ∈ rwNumbers))

/-- A `WriteReg` of a NaN or an infinity to a `Num` register the host may write is refused (00_scope.md R13,
93_implementation_defined.md U9; log 13). -/
def Obligations.NonFiniteWriteIsRefused : Prop :=
  ∀ (s : State) (n : RegNum) (w : Word) (rest : List HostAction) (r : NumReg),
    s.pending = .writeReg n w :: rest → r.number = n.toNat → n.toNat ∈ rwNumbers → F32.isFinite w = false →
    step s = .refused .nonFiniteWrite

/-! ## Reset -/

/-- 10_state.md R36 and R37: after reset every register reads 0, every envelope is Idle, and no cell of the
wavetable holds a value. -/
def Obligations.ResetValues : Prop :=
  (∀ r, State.reset.voice.word r = 0) ∧ (∀ k, State.reset.voice.envSt.get k = .idle) ∧
  (∀ i, Memory.read State.reset.voice.wt i = none)

/-! ## Faults -/

/-- A fault bit once set stays set, whatever the host does (60_exceptions.md R201). -/
def Obligations.FaultBitsAreSticky : Prop :=
  ∀ (s t : State) (f : FaultBit), step s = .next t → s.voice.faultBit f = true → t.voice.faultBit f = true

/-- A step that sets a fault bit changes nothing else: no other register, no other `STATUS` bit, no cell
(60_exceptions.md R201); and it sets one bit only (R204). -/
def Obligations.FaultingStepOnlySetsItsBit : Prop :=
  ∀ (s t : State) (f : FaultBit), step s = .next t → s.voice.faultBit f = false → t.voice.faultBit f = true →
    SameRegsBut [.status] s.voice t.voice ∧ SameTable s.voice t.voice ∧
    ∀ b < 32, t.voice.status.getLsbD b = (s.voice.status.getLsbD b || decide (b = f.bit))

/-- After a fault the block executes its commands as before: a command on a state with a fault bit set gives
what it gives without it, with the bit still set (60_exceptions.md R201). -/
def Obligations.FaultBitsDoNotInfluenceCommands : Prop :=
  ∀ (i : Instr) (s t : State) (f : FaultBit), exec i s = .next t →
    exec i (s.withVoice (s.voice.raise f)) = .next (t.withVoice (t.voice.raise f))

/-- 60_exceptions.md R203: `CMOD = 3` raises `F_CFG` in `CUT.MOD k` for its chain, in `VG.BANK` for chain 0
and in `VG.TRIO` for any chain; and a step that raises `F_CFG` is one of these three commands with `CMOD = 3`
in a chain it tests, so no other command and no register access raises it. -/
def Obligations.CfgFaultFromReservedModeOnly : Prop :=
  (∀ (s : State) (k : Fin 3), (s.voice.cfgc.get k).extractLsb' 4 2 = 3 →
    exec (.cutMod (BitVec.ofNat 4 k)) s = .next (s.withVoice (s.voice.raise .cfg)) ∧
    exec (.vgTrio 0) s = .next (s.withVoice (s.voice.raise .cfg)) ∧
    (k = 0 → exec (.vgBank 0) s = .next (s.withVoice (s.voice.raise .cfg)))) ∧
  (∀ s t : State, step s = .next t → s.voice.faultBit .cfg = false → t.voice.faultBit .cfg = true →
    ∃ (i : Instr) (rest : List HostAction), s.pending = .exec (encode i) :: rest ∧
      ((∃ k : Fin 3, i = .cutMod (BitVec.ofNat 4 k) ∧ (s.voice.cfgc.get k).extractLsb' 4 2 = 3) ∨
        (i = .vgBank 0 ∧ (s.voice.cfgc.get 0).extractLsb' 4 2 = 3) ∨
        (i = .vgTrio 0 ∧ ∃ k, (s.voice.cfgc.get k).extractLsb' 4 2 = 3)))

/-- 40_wavetable.md R104: every operation that would look the table up raises `F_WTU` while it is not built,
and does nothing else. The composites' `F_CFG` comes first (60_exceptions.md R204), so no chain they test
has `CMOD = 3` here. -/
def Obligations.LookupBeforeBuildFaults : Prop :=
  ∀ s : State, s.voice.status.getLsbD 0 = false →
    (∀ j : Fin 11, exec (.wtLookup (BitVec.ofNat 4 j)) s = .next (s.withVoice (s.voice.raise .wtu)) ∧
      exec (.wgSint (BitVec.ofNat 4 j)) s = .next (s.withVoice (s.voice.raise .wtu))) ∧
    (s.voice.cfg0.getLsbD 2 = false →
      exec (.hbTick 0) s = .next (s.withVoice (s.voice.raise .wtu)) ∧
      ((s.voice.cfgc.get 0).extractLsb' 4 2 ≠ 3 →
        exec (.vgBank 0) s = .next (s.withVoice (s.voice.raise .wtu))) ∧
      ((∀ k, (s.voice.cfgc.get k).extractLsb' 4 2 ≠ 3) → (∃ k, (s.voice.cfgc.get k).extractLsb' 0 2 = 0) →
        exec (.vgTrio 0) s = .next (s.withVoice (s.voice.raise .wtu))))

/-! ## Frames and whole-machine rules -/

/-- What every command leaves unchanged. A command either raises one fault, or changes only the registers
its rule lists (`cmdWrites`: `PH.ADV` its phase and `R0`; `ENV.STEP` its unit and `R0`; `VG.BANK` and
`VG.TRIO` the lists of R176 and R178; ...); every cell of the wavetable is unchanged but by `WT.BUILD`; the
host's side is unchanged. -/
def Obligations.CommandFrame : Prop :=
  ∀ (i : Instr) (s t : State), exec i s = .next t →
    (∃ f, t = s.withVoice (s.voice.raise f)) ∨
    (SameRegsBut (cmdWrites i) s.voice t.voice ∧ SameHost s t ∧
      (cmdIsBuild i = false → SameTable s.voice t.voice))

/-- No command writes an input register (10_state.md R24, R27, R28, R29). -/
def Obligations.CommandsNeverWriteInputs : Prop :=
  ∀ (i : Instr) (s t : State), exec i s = .next t →
    (∀ r : NumReg, r.number ∈ rwNumbers → t.voice.num r = s.voice.num r) ∧
    t.voice.cfg0 = s.voice.cfg0 ∧ ∀ k, t.voice.cfgc.get k = s.voice.cfgc.get k

/-- `R0` is written by the nine commands of 10_state.md R24 and by no other command. -/
def Obligations.ResultRegisterWriters : Prop :=
  ∀ (i : Instr) (s t : State), exec i s = .next t → t.voice.num .r0 ≠ s.voice.num .r0 →
    ∃ idx, i ∈ [Instr.wtLookup idx, .phAdv idx, .wgSint idx, .wgSind idx, .wgTri idx, .wgSaw idx, .wgSqr idx,
      .fltProc idx, .envStep idx]

/-- The wavetable is never changed once built, by any step, and stays built; and it becomes built by
`WT.BUILD` only (10_state.md R22, R34, R35). -/
def Obligations.BuiltTableNeverChanges : Prop :=
  (∀ s t : State, step s = .next t → s.voice.status.getLsbD 0 = true →
    t.voice.wt = s.voice.wt ∧ t.voice.status.getLsbD 0 = true) ∧
  ∀ s t : State, step s = .next t → s.voice.status.getLsbD 0 = false → t.voice.status.getLsbD 0 = true →
    ∃ rest, s.pending = .exec 0x1000 :: rest

/-- The sound states: OPEN parameters within R7's constraints, canonical table with a value in each of its N
cells exactly when built, reserved bits 0, no NaN in a register and finite inputs (10_state.md R28, R29, R34,
R35, R37; 00_scope.md R13). Every step from a sound state leads to a sound state. -/
def Obligations.StepKeepsSoundState : Prop :=
  ∀ s t : State, Inv s → step s = .next t → Inv t

/-- The reset state is sound. -/
def Obligations.ResetStateIsSound : Prop := Inv State.reset

/-- From a sound state no step ends in the model's fault: a built table has a value in every cell a lookup
can reach (20_memory.md R67; log 11). -/
def Obligations.SoundStatesNeverFault : Prop :=
  ∀ (s : State) (f : Fault), Inv s → step s ≠ .fault f

/-- 44_envelope.md R156: with `DT ≥ 0` no command takes an envelope output or a release level out of [0, 1],
nor a progress counter below 0. -/
def Obligations.EnvelopesStayInRange : Prop :=
  ∀ (i : Instr) (s t : State), Inv s → EnvelopesInRange s.voice → 0 ≤ F32.key (s.voice.num .dt) →
    exec i s = .next t → EnvelopesInRange t.voice

/-! ## System and wavetable -/

/-- 47_system.md R190: `NOP`, word 0x0000, changes nothing; another index raises `F_IDX`; another `z` raises
`F_ILL`. -/
def Obligations.NopChangesNothing : Prop :=
  (∀ s : State, exec (.nop 0) s = .next s) ∧ encode (.nop 0) = 0x0000 ∧
  (∀ (s : State) (idx : Idx), idx ≠ 0 → exec (.nop idx) s = .next (s.withVoice (s.voice.raise .idx))) ∧
  (∀ (s : State) (w : Cmd), w.extractLsb' 8 8 = 0 → w.extractLsb' 4 4 ≠ 0 →
    step (s.withExec w) = .next ((s.taken s.pending).withVoice (s.voice.raise .ill)))

/-- 40_wavetable.md R101: `WT.BUILD` on an unbuilt table writes every cell `i < N` with `WT_AMP *
SIN2PI(i / N)` and sets `WTB`; nothing else changes, no cell at or above N. It completes so where the amplitude is
finite and the last index, N - 1, converts to a finite number; at other OPEN parameters some sample is a NaN, and
the step is refused (00_scope.md R13). On a built table it raises `F_WTR` and changes nothing else. -/
def Obligations.BuildFillsTheTable : Prop :=
  ∀ s : State,
    (s.voice.status.getLsbD 0 = false →
      if F32.isFinite s.params.wtAmp = true ∧ F32.isFinite (F32.lit ((max s.params.wtSize 1).toNat - 1) 1) = true then
        ∃ t, exec (.wtBuild 0) s = .next t ∧ t.voice.status = s.voice.status ||| 1#32 ∧
          SameRegsBut [.status] s.voice t.voice ∧ SameHost s t ∧
          (∀ i < (max s.params.wtSize 1).toNat, ∃ q x,
            F32.div (F32.lit i 1) (F32.lit (max s.params.wtSize 1).toNat 1) = .ok q ∧
            F32.mul s.params.wtAmp (s.config.sin2pi q) = .ok x ∧ Memory.read t.voice.wt i = some x) ∧
          (∀ i, (max s.params.wtSize 1).toNat ≤ i → Memory.read t.voice.wt i = Memory.read s.voice.wt i)
      else exec (.wtBuild 0) s = .refused .nanOperation) ∧
    (s.voice.status.getLsbD 0 = true →
      exec (.wtBuild 0) s = .next (s.withVoice (s.voice.raise .wtr)))

/-- 40_wavetable.md R102, R103 and 42_waveform.md R126: on a sound built table `WT.LOOKUP j` and `WG.SINT j`
complete, with `R0` the value of the cell of index `floor(PH[j] * N) mod N` and nothing else changed. Where
the product is infinite the index is some cell below N (the model's choice, log 14). Where the phase is a zero and N
converts to an infinity the product is a NaN, and the step is refused (00_scope.md R13). -/
def Obligations.LookupReadsTheIndexedCell : Prop :=
  ∀ (s : State) (j : Fin 11), TableSound s.config s.voice → s.voice.status.getLsbD 0 = true →
    F32.isNaN (s.voice.num (.ph j)) = false →
    if F32.mag (s.voice.num (.ph j)) = 0 ∧ F32.isFinite (F32.lit (max s.params.wtSize 1).toNat 1) = false then
      exec (.wtLookup (BitVec.ofNat 4 j)) s = .refused .nanOperation ∧
        exec (.wgSint (BitVec.ofNat 4 j)) s = .refused .nanOperation
    else
      ∃ m i x t, F32.mul (s.voice.num (.ph j)) (F32.lit (max s.params.wtSize 1).toNat 1) = .ok m ∧
        i < (max s.params.wtSize 1).toNat ∧
        (F32.isFinite m = true → (i : Int) = (F32.units m / 2 ^ 149) % (max s.params.wtSize 1)) ∧
        Memory.read s.voice.wt i = some x ∧ exec (.wtLookup (BitVec.ofNat 4 j)) s = .next t ∧
        exec (.wgSint (BitVec.ofNat 4 j)) s = .next t ∧ t.voice.num .r0 = x ∧ Frame [.num .r0] s t

/-- 20_memory.md R67: the index of a table lookup is always in [0, N), under both readings. -/
def Obligations.TableIndexInRange : Prop :=
  (∀ (s : State) (p : NumWord) (i : Nat), wtIndex f32 s.config p = .ok i → i < (max s.params.wtSize 1).toNat) ∧
  (∀ (c : Config ℝ) (p : ℝ), ∃ i, wtIndex reals c p = .ok i ∧ (i : Int) = ⌊p * ((max c.wtSize 1).toNat : ℝ)⌋ % max c.wtSize 1 ∧
    i < (max c.wtSize 1).toNat)

/-! ## Phase and frequency -/

/-- 41_phase.md R110, R111: on finite operands `PH.ADV j` completes; `q = PH[j] + A0 * DT`, one product and
one sum, less 1 where `q ≥ 1`; the phase and `R0` take the result and nothing else changes. -/
def Obligations.PhaseAdvance : Prop :=
  ∀ (s : State) (j : Fin 11), F32.isFinite (s.voice.num (.ph j)) = true → F32.isFinite (s.voice.num .a0) = true →
    F32.isFinite (s.voice.num .dt) = true →
    ∃ d q r t, F32.mul (s.voice.num .a0) (s.voice.num .dt) = .ok d ∧ F32.add (s.voice.num (.ph j)) d = .ok q ∧
      (if F32.key oneW ≤ F32.key q then F32.sub q oneW = .ok r else r = q) ∧
      exec (.phAdv (BitVec.ofNat 4 j)) s = .next t ∧ t.voice.num (.ph j) = r ∧ t.voice.num .r0 = r ∧
      Frame [.num (.ph j), .num .r0] s t

/-- 41_phase.md R111: under F32 too, a phase in [0, 1) advanced by a rounded product in [0, 1) stays in
[0, 1). -/
def Obligations.PhaseStaysInUnitInterval : Prop :=
  ∀ (s t : State) (j : Fin 11) (d : NumWord), 0 ≤ F32.key (s.voice.num (.ph j)) →
    F32.key (s.voice.num (.ph j)) < F32.key oneW → F32.mul (s.voice.num .a0) (s.voice.num .dt) = .ok d →
    0 ≤ F32.key d → F32.key d < F32.key oneW → exec (.phAdv (BitVec.ofNat 4 j)) s = .next t →
    0 ≤ F32.key (t.voice.num (.ph j)) ∧ F32.key (t.voice.num (.ph j)) < F32.key oneW

/-- 41_phase.md R113: `PH.RST j`, word 0x2100 | j, sets the phase to 0 and changes nothing else: not `R0`,
not the latches, the envelopes or the filters. An index of 11 or more raises `F_IDX`. -/
def Obligations.PhaseReset : Prop :=
  (∀ (s : State) (j : Fin 11), ∃ t, exec (.phRst (BitVec.ofNat 4 j)) s = .next t ∧ t.voice.num (.ph j) = 0 ∧
    Frame [.num (.ph j)] s t) ∧
  (∀ j : Fin 11, encode (.phRst (BitVec.ofNat 4 j)) = 0x2100#16 ||| BitVec.ofNat 16 j) ∧
  ∀ (s : State) (idx : Idx), 11 ≤ idx.toNat → exec (.phRst idx) s = .next (s.withVoice (s.voice.raise .idx))

/-- 41_phase.md R114, R115: `FRQ.CV k` completes on an input that is no NaN, with `FREQ[k]` the clamp to
[10, 20000] of `FABS[k]` where `FA = 1`, of the rounded product `BASE_FREQ * EXP2(PITCH[k])` where `FA = 0`;
nothing else changes, and the result is within the bounds. The product answers at every finite `BASE_FREQ > 0`. -/
def Obligations.FrequencyIsClamped : Prop :=
  ∀ (s : State) (k : Fin 3),
    ((s.voice.cfgc.get k).getLsbD 2 = true → F32.isNaN (s.voice.num (.fabs k)) = false →
      ∃ t, exec (.frqCv (BitVec.ofNat 4 k)) s = .next t ∧
        t.voice.num (.freq k) = clampWord (s.voice.num (.fabs k)) 0x41200000 0x469C4000 ∧
        Frame [.num (.freq k)] s t ∧ F32.key 0x41200000 ≤ F32.key (t.voice.num (.freq k)) ∧
        F32.key (t.voice.num (.freq k)) ≤ F32.key 0x469C4000) ∧
    ((s.voice.cfgc.get k).getLsbD 2 = false → F32.isNaN (s.voice.num (.pitch k)) = false →
      (F32.isFinite s.params.baseFreq = true → 0 < F32.key s.params.baseFreq →
        ∃ f, F32.mul s.params.baseFreq (s.config.exp2 (s.voice.num (.pitch k))) = .ok f) ∧
      ∀ f, F32.mul s.params.baseFreq (s.config.exp2 (s.voice.num (.pitch k))) = .ok f →
        ∃ t, exec (.frqCv (BitVec.ofNat 4 k)) s = .next t ∧
          t.voice.num (.freq k) = clampWord f 0x41200000 0x469C4000 ∧
          Frame [.num (.freq k)] s t ∧ F32.key 0x41200000 ≤ F32.key (t.voice.num (.freq k)) ∧
          F32.key (t.voice.num (.freq k)) ≤ F32.key 0x469C4000)

/-! ## Waveforms -/

/-- 42_waveform.md R122, R127: `WG.SIND j` on a finite phase completes with `R0 = SIN2PI(PH[j])`, at most 1
in size, 0, 1, 0, -1 at the phases 0, 1/4, 1/2, 3/4 (00_scope.md R12(b)); nothing else changes. R12(b) gives the
number 0: that it is the word +0 at the phases 0 and 1/2 is the model's choice (log 5). -/
def Obligations.DirectSine : Prop :=
  ∀ (s : State) (j : Fin 11), F32.isFinite (s.voice.num (.ph j)) = true →
    ∃ t, exec (.wgSind (BitVec.ofNat 4 j)) s = .next t ∧
      t.voice.num .r0 = s.config.sin2pi (s.voice.num (.ph j)) ∧ F32.mag (t.voice.num .r0) ≤ F32.mag oneW ∧
      Frame [.num .r0] s t ∧
      (s.voice.num (.ph j) = 0 → t.voice.num .r0 = 0) ∧
      (s.voice.num (.ph j) = 0x3E800000 → t.voice.num .r0 = oneW) ∧
      (s.voice.num (.ph j) = 0x3F000000 → t.voice.num .r0 = 0) ∧
      (s.voice.num (.ph j) = 0x3F400000 → t.voice.num .r0 = 0xBF800000)

/-- 42_waveform.md R123, R124, R128, R129: on a finite phase `WG.TRI j` completes with `4p - 1` for
`p < 0.5` and `3 - 4p` else, `WG.SAW j` with `2p - 1`, each product and difference rounded once; nothing
but `R0` changes. -/
def Obligations.TriangleAndSaw : Prop :=
  ∀ (s : State) (j : Fin 11), F32.isFinite (s.voice.num (.ph j)) = true →
    (∃ q r t, F32.mul 0x40800000 (s.voice.num (.ph j)) = .ok q ∧
      (if F32.key (s.voice.num (.ph j)) < F32.key 0x3F000000 then F32.sub q oneW = .ok r
        else F32.sub 0x40400000 q = .ok r) ∧
      exec (.wgTri (BitVec.ofNat 4 j)) s = .next t ∧ t.voice.num .r0 = r ∧ Frame [.num .r0] s t) ∧
    (∃ q r t, F32.mul 0x40000000 (s.voice.num (.ph j)) = .ok q ∧ F32.sub q oneW = .ok r ∧
      exec (.wgSaw (BitVec.ofNat 4 j)) s = .next t ∧ t.voice.num .r0 = r ∧ Frame [.num .r0] s t)

/-- 42_waveform.md R125, R130: `WG.SQR j` on numbers that are no NaN completes with `R0 = +1` where
`PH[j] < clamp(A0, 0.01, 0.99)`, strictly, and -1 else; nothing else changes. -/
def Obligations.SquareComparesWithTheClampedWidth : Prop :=
  ∀ (s : State) (j : Fin 11), F32.isNaN (s.voice.num (.ph j)) = false → F32.isNaN (s.voice.num .a0) = false →
    ∃ t, exec (.wgSqr (BitVec.ofNat 4 j)) s = .next t ∧ Frame [.num .r0] s t ∧
      t.voice.num .r0 =
        if F32.key (s.voice.num (.ph j)) < F32.key (clampWord (s.voice.num .a0) 0x3C23D70A 0x3F7D70A4) then oneW
        else 0xBF800000

/-- 42_waveform.md R131, R132: `PW.MOD k` on finite inputs completes with `WIDTH[k]` the clamp to
[0.01, 0.99] of `PW + PWM_AMT * (PWM_CV * 0.1)`, each operation rounded once; the width is within the
bounds and nothing else changes. -/
def Obligations.PulseWidthIsClamped : Prop :=
  ∀ (s : State) (k : Fin 3), F32.isFinite (s.voice.num (.pw k)) = true →
    F32.isFinite (s.voice.num (.pwmAmt k)) = true → F32.isFinite (s.voice.num (.pwmCv k)) = true →
    ∃ u d w t, F32.mul (s.voice.num (.pwmCv k)) 0x3DCCCCCD = .ok u ∧ F32.mul (s.voice.num (.pwmAmt k)) u = .ok d ∧
      F32.add (s.voice.num (.pw k)) d = .ok w ∧ exec (.pwMod (BitVec.ofNat 4 k)) s = .next t ∧
      t.voice.num (.width k) = clampWord w 0x3C23D70A 0x3F7D70A4 ∧ Frame [.num (.width k)] s t ∧
      F32.key 0x3C23D70A ≤ F32.key (t.voice.num (.width k)) ∧
      F32.key (t.voice.num (.width k)) ≤ F32.key 0x3F7D70A4

/-! ## Harmonic bank -/

/-- 43_harmonic_bank.md R136 to R139: `HB.TICK`, slot by slot. `f`, `p`, `a`, `x`, `y` are the eight slots'
frequencies, advanced phases, amplitudes, sines and products, `sum` the running sum from 0. Where every
operation of the rule gives these values, the command completes with the phases, the latches and
`HB_OUT = (OUT_GAIN * sum) / 8` of the rule; nothing else changes. -/
def Obligations.BankTick : Prop :=
  ∀ (s : State) (f p a x y : Fin 8 → NumWord) (sum : Fin 9 → NumWord) (g o : NumWord),
    (s.voice.cfg0.getLsbD 2 = true ∨ s.voice.status.getLsbD 0 = true) →
    F32.isNaN (s.voice.num (.freq 0)) = false →
    (∀ i : Fin 8, match (s.voice.cfg0.extractLsb' 0 2).toNat with
      | 0 => F32.mul (clampWord (s.voice.num (.freq 0)) 0x41200000 0x469C4000) (F32.lit ((i : Nat) + 1) 1) = .ok (f i)
      | 1 => f i = s.config.ftab .standard i
      | 2 => f i = s.config.ftab .logSpaced i
      | _ => f i = s.config.ftab .sqrtSpaced i) →
    (∀ i, phaseAdvance f32 (s.voice.num (.ph (slotPhase i))) (f i) (s.voice.num .dt) = .ok (p i)) →
    (∀ i : Fin 8, if s.voice.cfg0.getLsbD (8 + i) then
        ∃ u, F32.mul (s.voice.num (.hcv i)) 0x3DCCCCCD = .ok u ∧ a i = clampWord u 0 oneW
      else F32.isNaN (s.voice.num (.level i)) = false ∧ a i = clampWord (s.voice.num (.level i)) 0 oneW) →
    (∀ i, (if s.voice.cfg0.getLsbD 2 then F32.app s.config.sin2pi (p i)
      else wtLookup f32 s.config s.voice.wt (p i)) = .ok (x i)) →
    (∀ i, F32.mul (a i) (x i) = .ok (y i)) →
    sum 0 = 0 → (∀ i : Fin 8, F32.add (sum i.castSucc) (y i) = .ok (sum i.succ)) →
    F32.mul (if s.voice.cfg0.getLsbD 3 then 0x41200000 else 0x40A00000) (sum 8) = .ok g →
    F32.div g 0x41000000 = .ok o →
    ∃ t, exec (.hbTick 0) s = .next t ∧ t.voice.num .hbOut = o ∧ Frame bankRegs s t ∧
      ∀ i : Fin 8, t.voice.num (.ph (slotPhase i)) = p i ∧ t.voice.num (.slotF i) = f i ∧
        t.voice.num (.slotA i) = a i

/-- 43_harmonic_bank.md R142: with no amplitude CV connected and every manual level 0, whenever `HB.TICK`
performs its rule the output is a zero. -/
def Obligations.SilentBankGivesZero : Prop :=
  ∀ s t : State, (∀ i : Fin 8, s.voice.cfg0.getLsbD (8 + i) = false) →
    (∀ i, F32.mag (s.voice.num (.level i)) = 0) →
    (s.voice.cfg0.getLsbD 2 = true ∨ s.voice.status.getLsbD 0 = true) →
    exec (.hbTick 0) s = .next t → F32.mag (t.voice.num .hbOut) = 0

/-! ## Envelope. In these statements `gate` is `GATE_V[k] >= 1.0` (44_envelope.md R146). -/

/-- 44_envelope.md R147, R150, R151, R153: with no rising edge an Idle unit stays Idle with output 0; with
no edge a Sustain unit stays in Sustain with the clamped sustain level; progress and release level are kept,
the gate is remembered, `R0` takes the output. -/
def Obligations.EnvelopeIdleAndSustain : Prop :=
  ∀ (s : State) (k : Fin 3), F32.isNaN (s.voice.num (.gateV k)) = false → F32.isNaN (s.voice.num (.sus k)) = false →
    (s.voice.envSt.get k = .idle →
      (F32.key (s.voice.num (.gateV k)) < F32.key oneW ∨ s.voice.envGprev.get k = true) →
      ∃ t, exec (.envStep (BitVec.ofNat 4 k)) s = .next t ∧ t.voice.envSt.get k = .idle ∧
        t.voice.num (.envOut k) = 0 ∧ t.voice.num .r0 = 0 ∧
        t.voice.envGprev.get k = decide (F32.key oneW ≤ F32.key (s.voice.num (.gateV k))) ∧
        Frame [.num .r0, .num (.envOut k), .envGprev k] s t) ∧
    (s.voice.envSt.get k = .sustain →
      s.voice.envGprev.get k = decide (F32.key oneW ≤ F32.key (s.voice.num (.gateV k))) →
      ∃ t, exec (.envStep (BitVec.ofNat 4 k)) s = .next t ∧ t.voice.envSt.get k = .sustain ∧
        t.voice.num (.envOut k) = clampWord (s.voice.num (.sus k)) 0 oneW ∧
        t.voice.num .r0 = clampWord (s.voice.num (.sus k)) 0 oneW ∧
        Frame [.num .r0, .num (.envOut k)] s t)

/-- 44_envelope.md R147, R148, R153: a rising edge from any state, or an Attack without a falling edge,
performs one Attack action from the current output: `A ≤ 0` gives output 1 and Decay at once; else the
output rises by `dt / max(A, EPS_DIV)` and Decay is entered with output 1 once it is 1 or more. The OPEN parameters
are within R7's constraints, here and below: `EPS_DIV > 0`. -/
def Obligations.EnvelopeAttack : Prop :=
  ∀ (s : State) (k : Fin 3) (gate : Bool), s.params.allowed →
    gate = decide (F32.key oneW ≤ F32.key (s.voice.num (.gateV k))) → F32.isNaN (s.voice.num (.gateV k)) = false →
    F32.isNaN (s.voice.num (.sus k)) = false → F32.isFinite (s.voice.num (.att k)) = true →
    F32.isFinite (s.voice.num .dt) = true → F32.isFinite (s.voice.num (.envOut k)) = true →
    F32.isFinite (s.voice.num (.envProg k)) = true →
    ((gate = true ∧ s.voice.envGprev.get k = false) ∨
      (s.voice.envSt.get k = .attack ∧ (gate = true ∨ s.voice.envGprev.get k = false))) →
    ∃ prog out t,
      F32.add (if gate && !(s.voice.envGprev.get k) then 0 else s.voice.num (.envProg k)) (s.voice.num .dt) = .ok prog ∧
      (if F32.key (s.voice.num (.att k)) ≤ 0 then out = oneW
        else ∃ d, F32.div (s.voice.num .dt) (maxWord (s.voice.num (.att k)) s.params.epsDiv) = .ok d ∧
          F32.add (s.voice.num (.envOut k)) d = .ok out) ∧
      exec (.envStep (BitVec.ofNat 4 k)) s = .next t ∧
      (if F32.key oneW ≤ F32.key out then
        t.voice.envSt.get k = .decay ∧ t.voice.num (.envOut k) = oneW ∧ t.voice.num (.envProg k) = 0
        else t.voice.envSt.get k = .attack ∧ t.voice.num (.envOut k) = out ∧ t.voice.num (.envProg k) = prog) ∧
      t.voice.num .r0 = t.voice.num (.envOut k) ∧ t.voice.envGprev.get k = gate ∧
      Frame [.num .r0, .envSt k, .num (.envOut k), .num (.envProg k), .envGprev k] s t

/-- 44_envelope.md R149, R153: a Decay without an edge recomputes the output from the progress,
`1 + (Sc - 1) * (prog / De)`, and enters Sustain at the clamped level once the time has elapsed or the
level is reached. `prog`, `e`, `r`, `y`, `out` are the values of the rule's operations. -/
def Obligations.EnvelopeDecay : Prop :=
  ∀ (s : State) (k : Fin 3) (prog e r y out : NumWord), s.params.allowed →
    F32.isNaN (s.voice.num (.gateV k)) = false →
    F32.isNaN (s.voice.num (.sus k)) = false → F32.isNaN (s.voice.num (.dec k)) = false →
    s.voice.envSt.get k = .decay →
    s.voice.envGprev.get k = decide (F32.key oneW ≤ F32.key (s.voice.num (.gateV k))) →
    F32.add (s.voice.num (.envProg k)) (s.voice.num .dt) = .ok prog →
    F32.sub (clampWord (s.voice.num (.sus k)) 0 oneW) oneW = .ok e →
    F32.div prog (maxWord (s.voice.num (.dec k)) s.params.epsDiv) = .ok r → F32.mul e r = .ok y →
    F32.add oneW y = .ok out →
    ∃ t, exec (.envStep (BitVec.ofNat 4 k)) s = .next t ∧
      (if F32.key (maxWord (s.voice.num (.dec k)) s.params.epsDiv) ≤ F32.key prog ∨
          F32.key out ≤ F32.key (clampWord (s.voice.num (.sus k)) 0 oneW) then
        t.voice.envSt.get k = .sustain ∧ t.voice.num (.envOut k) = clampWord (s.voice.num (.sus k)) 0 oneW ∧
          t.voice.num (.envProg k) = 0
        else t.voice.envSt.get k = .decay ∧ t.voice.num (.envOut k) = out ∧ t.voice.num (.envProg k) = prog) ∧
      t.voice.num .r0 = t.voice.num (.envOut k) ∧
      Frame [.num .r0, .envSt k, .num (.envOut k), .num (.envProg k)] s t

/-- 44_envelope.md R147, R152, R153: a falling edge outside Idle, or a Release without a rising edge,
performs one Release action: on the edge the output is recorded and the progress starts from 0; the output
is `rel0 * (1 - prog / Re)`, and Idle is entered with output 0 once the time has elapsed or the output is
at most 0.001. `prog`, `r`, `y`, `out` are the values of the rule's operations. -/
def Obligations.EnvelopeRelease : Prop :=
  ∀ (s : State) (k : Fin 3) (gate falling : Bool) (rel0 prog r y out : NumWord), s.params.allowed →
    gate = decide (F32.key oneW ≤ F32.key (s.voice.num (.gateV k))) → F32.isNaN (s.voice.num (.gateV k)) = false →
    F32.isNaN (s.voice.num (.sus k)) = false → F32.isNaN (s.voice.num (.rel k)) = false →
    falling = (!gate && s.voice.envGprev.get k) →
    ((falling = true ∧ s.voice.envSt.get k ≠ .idle) ∨
      (s.voice.envSt.get k = .release ∧ s.voice.envGprev.get k = gate)) →
    rel0 = (if falling then s.voice.num (.envOut k) else s.voice.num (.envRel0 k)) →
    F32.add (if falling then 0 else s.voice.num (.envProg k)) (s.voice.num .dt) = .ok prog →
    F32.div prog (maxWord (s.voice.num (.rel k)) s.params.epsDiv) = .ok r → F32.sub oneW r = .ok y →
    F32.mul rel0 y = .ok out →
    ∃ t, exec (.envStep (BitVec.ofNat 4 k)) s = .next t ∧ t.voice.num (.envRel0 k) = rel0 ∧
      (if F32.key (maxWord (s.voice.num (.rel k)) s.params.epsDiv) ≤ F32.key prog ∨
          F32.key out ≤ F32.key 0x3A83126F then
        t.voice.envSt.get k = .idle ∧ t.voice.num (.envOut k) = 0 ∧ t.voice.num (.envProg k) = 0
        else t.voice.envSt.get k = .release ∧ t.voice.num (.envOut k) = out ∧ t.voice.num (.envProg k) = prog) ∧
      t.voice.num .r0 = t.voice.num (.envOut k) ∧ t.voice.envGprev.get k = gate ∧
      Frame (.num .r0 :: envRegs k) s t

/-- 44_envelope.md R155: `ENV.RST k`, word 0x5100 | k, puts the unit in its reset condition and changes
nothing else, `R0` not either; an index of 3 or more raises `F_IDX`. A gate still high is a rising edge at the
next `ENV.STEP k`: whenever that step performs its rule, it starts an attack, at once over where `ATT ≤ 0`. -/
def Obligations.EnvelopeReset : Prop :=
  (∀ (s : State) (k : Fin 3), ∃ t, exec (.envRst (BitVec.ofNat 4 k)) s = .next t ∧ t.voice.envSt.get k = .idle ∧
    t.voice.num (.envOut k) = 0 ∧ t.voice.num (.envProg k) = 0 ∧ t.voice.envGprev.get k = false ∧
    t.voice.num (.envRel0 k) = 0 ∧ Frame (envRegs k) s t ∧
    ∀ u, F32.key oneW ≤ F32.key (s.voice.num (.gateV k)) → exec (.envStep (BitVec.ofNat 4 k)) t = .next u →
      u.voice.envSt.get k = .attack ∨ u.voice.envSt.get k = .decay) ∧
  (∀ k : Fin 3, encode (.envRst (BitVec.ofNat 4 k)) = 0x5100#16 ||| BitVec.ofNat 16 k) ∧
  ∀ (s : State) (idx : Idx), 3 ≤ idx.toNat → exec (.envRst idx) s = .next (s.withVoice (s.voice.raise .idx))

/-! ## Filter -/

/-- 45_filter.md R165 to R168: `FLT.PROC k`. `dtf`, `alpha`, `d`, `m`, `y` are the values of the rule's
operations, `alpha` by the rational form where `SW = 0` and by the swept form, clamped to [0, 1], where
`SW = 1`, from the cutoff clamped to [20, 20000]; `FLT_OUT[k]` and `R0` take the new output and nothing else
changes. -/
def Obligations.FilterStep : Prop :=
  ∀ (s : State) (k : Fin 3) (cc dtf alpha d m y : NumWord), s.params.allowed →
    F32.isNaN (s.voice.num .sr) = false → F32.isNaN (s.voice.num .a1) = false →
    cc = clampWord (s.voice.num .a1) 0x41A00000 0x469C4000 →
    F32.div oneW (maxWord (s.voice.num .sr) s.params.epsDiv) = .ok dtf →
    (if (s.voice.cfgc.get k).getLsbD 3 then
      ∃ a b e, F32.mul dtf s.params.fltK = .ok a ∧ F32.mul a cc = .ok b ∧ F32.mul b cc = .ok e ∧
        alpha = clampWord e 0 oneW
      else ∃ a b e g, F32.mul 0x40000000 s.config.pi = .ok a ∧ F32.mul a cc = .ok b ∧ F32.div oneW b = .ok e ∧
        F32.add dtf e = .ok g ∧ F32.div dtf g = .ok alpha) →
    F32.sub (s.voice.num .a0) (s.voice.num (.fltOut k)) = .ok d → F32.mul alpha d = .ok m →
    F32.add (s.voice.num (.fltOut k)) m = .ok y →
    ∃ t, exec (.fltProc (BitVec.ofNat 4 k)) s = .next t ∧ t.voice.num (.fltOut k) = y ∧ t.voice.num .r0 = y ∧
      Frame [.num (.fltOut k), .num .r0] s t

/-- 45_filter.md R169, R170: `CUT.MOD k` by `CMOD`: 0 the manual cutoff; 1 the sum, where its operations
answer, as on finite inputs and gain they do; 2 the exponential, where its last product is no NaN;
3 raises `F_CFG`. Nothing but `CUTOFF[k]` changes. -/
def Obligations.CutoffModulation : Prop :=
  ∀ (s : State) (k : Fin 3),
    ((s.voice.cfgc.get k).extractLsb' 4 2 = 0 →
      ∃ t, exec (.cutMod (BitVec.ofNat 4 k)) s = .next t ∧ t.voice.num (.cutoff k) = s.voice.num (.cut k) ∧
        Frame [.num (.cutoff k)] s t) ∧
    ((s.voice.cfgc.get k).extractLsb' 4 2 = 1 →
      (F32.isFinite s.params.cutCvGain = true → F32.isFinite (s.voice.num (.cut k)) = true →
        F32.isFinite (s.voice.num (.cutCv k)) = true →
        ∃ d x, F32.mul s.params.cutCvGain (s.voice.num (.cutCv k)) = .ok d ∧
          F32.add (s.voice.num (.cut k)) d = .ok x) ∧
      ∀ d x, F32.mul s.params.cutCvGain (s.voice.num (.cutCv k)) = .ok d → F32.add (s.voice.num (.cut k)) d = .ok x →
        ∃ t, exec (.cutMod (BitVec.ofNat 4 k)) s = .next t ∧ t.voice.num (.cutoff k) = x ∧
          Frame [.num (.cutoff k)] s t) ∧
    (∀ u w x, (s.voice.cfgc.get k).extractLsb' 4 2 = 2 → F32.mul (s.voice.num (.cutCv k)) 0x3DCCCCCD = .ok u →
      F32.mul u 0x41200000 = .ok w → F32.mul (s.voice.num (.cut k)) (s.config.exp2 w) = .ok x →
      ∃ t, exec (.cutMod (BitVec.ofNat 4 k)) s = .next t ∧ t.voice.num (.cutoff k) = x ∧
        Frame [.num (.cutoff k)] s t) ∧
    ((s.voice.cfgc.get k).extractLsb' 4 2 = 3 →
      exec (.cutMod (BitVec.ofNat 4 k)) s = .next (s.withVoice (s.voice.raise .cfg)))

/-! ## The composite commands -/

/-- 46_voice_graph.md R176, R177: `VG.BANK` is its stages in their order: the frequency of chain 0, the bank,
envelope 0, cutoff 0, filter 0 on the bank's output, and `OUT[0] = MIX = (FLT_OUT[0] * ENV_OUT[0]) * af`,
with the table built or the direct sine, and `CMOD` not 3. The values named are those of the stages; the
command completes with them: the bank's phases, latches and output, the five registers of envelope 0, and the
rest; and nothing but the registers R176 lists changes. -/
def Obligations.BankInstrumentTick : Prop :=
  ∀ (s : State) (m : CutMode) (f co y e af o : NumWord) (v1 v2 : Voice NumWord),
    cmod (s.voice.cfgc.get 0) = some m →
    (s.voice.cfg0.getLsbD 2 = true ∨ s.voice.status.getLsbD 0 = true) →
    chainFreq f32 s.config s.voice 0 = .ok f →
    hbTick f32 s.config (s.voice.setNum (.freq 0) f) = .ok v1 →
    envStep f32 s.config 0 v1 = .ok v2 →
    cutoffBy f32 s.config m (s.voice.num (.cut 0)) (s.voice.num (.cutCv 0)) = .ok co →
    fltStep f32 s.config (s.voice.num .sr) (s.voice.num (.fltOut 0)) (v1.num .hbOut) co (sw (s.voice.cfgc.get 0)) = .ok y →
    F32.mul y (v2.num (.envOut 0)) = .ok e →
    (if s.voice.cfg0.getLsbD 4 then
        ∃ u, F32.mul (s.voice.num .ampCv) 0x3DCCCCCD = .ok u ∧ af = clampWord u 0 oneW
      else af = oneW) →
    F32.mul e af = .ok o →
    ∃ t, exec (.vgBank 0) s = .next t ∧ t.voice.num (.freq 0) = f ∧ t.voice.num .hbOut = v1.num .hbOut ∧
      (∀ i : Fin 8, t.voice.num (.ph (slotPhase i)) = v1.num (.ph (slotPhase i))) ∧
      (∀ i : Fin 8, t.voice.num (.slotF i) = v1.num (.slotF i) ∧ t.voice.num (.slotA i) = v1.num (.slotA i)) ∧
      t.voice.envUnit 0 = v2.envUnit 0 ∧
      t.voice.envSt.get 0 = v2.envSt.get 0 ∧ t.voice.num (.envOut 0) = v2.num (.envOut 0) ∧
      t.voice.num (.cutoff 0) = co ∧ t.voice.num (.fltOut 0) = y ∧ t.voice.num (.out 0) = o ∧
      t.voice.num .mix = o ∧
      Frame ([.num (.freq 0), .num (.cutoff 0), .num (.fltOut 0), .num (.out 0), .num .mix] ++ bankRegs ++ envRegs 0) s t

/-- 46_voice_graph.md R178, R179: `VG.TRIO` with no `CMOD` of 3, and the table built or the direct sine or no
sine chain. Each chain's values are those of its stages ON THE STATE BEFORE THE STEP, whatever the other
chains do, its waveform selected by bits 1:0 of `CFGC[k]`: sine (by `CFG0.SD`), triangle, saw, square
(42_waveform.md R133); `MIX` is their sum in order over 3; nothing but the registers R178 lists changes. -/
def Obligations.TrioInstrumentTick : Prop :=
  ∀ (s : State) (m : Fin 3 → CutMode) (af : NumWord) (f p w x co y g e o : Fin 3 → NumWord)
    (u : Fin 3 → EnvUnit NumWord) (a b c : NumWord),
    (∀ k, cmod (s.voice.cfgc.get k) = some (m k)) →
    (s.voice.cfg0.getLsbD 2 = true ∨ s.voice.status.getLsbD 0 = true ∨
      ∀ k, ((s.voice.cfgc.get k).extractLsb' 0 2).toNat ≠ 0) →
    ampFactor f32 s.voice = .ok af →
    (∀ k, chainFreq f32 s.config s.voice k = .ok (f k)) →
    (∀ k, phaseAdvance f32 (s.voice.num (.ph (chainPhase k))) (f k) (s.voice.num .dt) = .ok (p k)) →
    (∀ k, pulseWidth f32 (s.voice.num (.pw k)) (s.voice.num (.pwmAmt k)) (s.voice.num (.pwmCv k)) = .ok (w k)) →
    (∀ k, if ((s.voice.cfgc.get k).extractLsb' 0 2).toNat = 0 then
        (if s.voice.cfg0.getLsbD 2 then F32.app s.config.sin2pi (p k) = .ok (x k)
          else wtLookup f32 s.config s.voice.wt (p k) = .ok (x k))
      else if ((s.voice.cfgc.get k).extractLsb' 0 2).toNat = 1 then
        ∃ q, F32.mul 0x40800000 (p k) = .ok q ∧
          (if F32.key (p k) < F32.key 0x3F000000 then F32.sub q oneW = .ok (x k)
            else F32.sub 0x40400000 q = .ok (x k))
      else if ((s.voice.cfgc.get k).extractLsb' 0 2).toNat = 2 then
        ∃ q, F32.mul 0x40000000 (p k) = .ok q ∧ F32.sub q oneW = .ok (x k)
      else x k = if F32.key (p k) < F32.key (clampWord (w k) 0x3C23D70A 0x3F7D70A4) then oneW else 0xBF800000) →
    (∀ k, envStepUnit f32 s.config (s.voice.envIn k) (s.voice.envUnit k) = .ok (u k)) →
    (∀ k, cutoffBy f32 s.config (m k) (s.voice.num (.cut k)) (s.voice.num (.cutCv k)) = .ok (co k)) →
    (∀ k, fltStep f32 s.config (s.voice.num .sr) (s.voice.num (.fltOut k)) (x k) (co k) (sw (s.voice.cfgc.get k)) = .ok (y k)) →
    (∀ k, F32.mul (if s.voice.cfg0.getLsbD 3 then 0x41200000 else 0x40A00000) (y k) = .ok (g k)) →
    (∀ k, F32.mul (g k) (u k).out = .ok (e k)) → (∀ k, F32.mul (e k) af = .ok (o k)) →
    F32.add (o 0) (o 1) = .ok a → F32.add a (o 2) = .ok b → F32.div b 0x40400000 = .ok c →
    ∃ t, exec (.vgTrio 0) s = .next t ∧ t.voice.num .mix = c ∧
      (∀ k, t.voice.num (.freq k) = f k ∧ t.voice.num (.ph (chainPhase k)) = p k ∧ t.voice.num (.width k) = w k ∧
        t.voice.envUnit k = u k ∧ t.voice.num (.cutoff k) = co k ∧ t.voice.num (.fltOut k) = y k ∧
        t.voice.num (.out k) = o k) ∧
      Frame (.num .mix :: (chainRegs 0 ++ chainRegs 1 ++ chainRegs 2)) s t

/-- 46_voice_graph.md R181: `VG.BANK` and `VG.TRIO` check before they write: where a `CMOD` they read is 3
they raise `F_CFG` (even where the table is missing too); else where the table sine is needed and the table
is not built they raise `F_WTU`; in both cases only `STATUS` changes. -/
def Obligations.CompositeFaultsComeFirst : Prop :=
  ∀ s : State,
    ((s.voice.cfgc.get 0).extractLsb' 4 2 = 3 →
      exec (.vgBank 0) s = .next (s.withVoice (s.voice.raise .cfg))) ∧
    ((∃ k, (s.voice.cfgc.get k).extractLsb' 4 2 = 3) →
      exec (.vgTrio 0) s = .next (s.withVoice (s.voice.raise .cfg))) ∧
    ((s.voice.cfgc.get 0).extractLsb' 4 2 ≠ 3 → s.voice.cfg0.getLsbD 2 = false →
      s.voice.status.getLsbD 0 = false → exec (.vgBank 0) s = .next (s.withVoice (s.voice.raise .wtu))) ∧
    ((∀ k, (s.voice.cfgc.get k).extractLsb' 4 2 ≠ 3) → s.voice.cfg0.getLsbD 2 = false →
      s.voice.status.getLsbD 0 = false → (∃ k, (s.voice.cfgc.get k).extractLsb' 0 2 = 0) →
      exec (.vgTrio 0) s = .next (s.withVoice (s.voice.raise .wtu))) ∧
    (∀ f : FaultBit, SameRegsBut [.status] s.voice (s.voice.raise f) ∧ SameTable s.voice (s.voice.raise f))

/-- 46_voice_graph.md R178: the three chains are independent. Two states that agree on the shared inputs, the
table, the OPEN parameters, and everything of chain `k` give the same output, phase, filter memory and envelope
of chain `k` after `VG.TRIO`, whatever the other chains hold, where the command performs its rule in both. -/
def Obligations.ChainsAreIndependent : Prop :=
  ∀ (s s' t t' : State) (k : Fin 3),
    (∀ r ∈ [NumReg.dt, .sr, .ampCv, .pitch k, .fabs k, .pw k, .pwmAmt k, .pwmCv k, .gateV k, .att k, .dec k, .sus k,
      .rel k, .cut k, .cutCv k, .ph (chainPhase k), .envOut k, .envProg k, .envRel0 k, .fltOut k],
      s'.voice.num r = s.voice.num r) →
    s'.voice.cfg0 = s.voice.cfg0 → s'.voice.cfgc.get k = s.voice.cfgc.get k →
    s'.voice.envSt.get k = s.voice.envSt.get k → s'.voice.envGprev.get k = s.voice.envGprev.get k →
    s'.voice.wt = s.voice.wt → s'.params = s.params → s.voice.noFault → s'.voice.noFault →
    exec (.vgTrio 0) s = .next t → exec (.vgTrio 0) s' = .next t' → t.voice.noFault → t'.voice.noFault →
    ∀ r ∈ chainRegs k, t'.voice.word r = t.voice.word r

/-- 10_state.md R26: no rule reads the slot latches. Two states that differ in the latches only (and in the host's
side) give, by any command, states that differ in the latches only. -/
def Obligations.SlotLatchesAreNeverRead : Prop :=
  ∀ (i : Instr) (s s' t : State),
    (∀ r, (∀ j, r ≠ .num (.slotF j)) → (∀ j, r ≠ .num (.slotA j)) → s'.voice.word r = s.voice.word r) →
    s'.voice.wt = s.voice.wt → s'.params = s.params → exec i s = .next t →
    ∃ t', exec i s' = .next t' ∧ t'.voice.wt = t.voice.wt ∧
      ∀ r, (∀ j, r ≠ .num (.slotF j)) → (∀ j, r ≠ .num (.slotA j)) → t'.voice.word r = t.voice.word r

/-! ## Configuration and numbers -/

/-- 00_scope.md R12: the named properties of `SIN2PI`, `EXP2` and `PI` under F32, of which (c)'s exact
powers are the words `2^n` and "nearest to π" is meant among all finite binary32 values. The model's choices: that
`SIN2PI` at the words +0 and 1/2 is the word +0 (log 5; R12(b) gives the number 0, a zero of either sign at the
word -0), and that `EXP2` is monotone at infinities too (log 6). -/
def Obligations.SineAndPowerProperties : Prop :=
  ∀ s : State,
  (∀ x, F32.isFinite x = true → F32.isFinite (s.config.sin2pi x) = true ∧
    F32.key (F32.neg oneW) ≤ F32.key (s.config.sin2pi x) ∧ F32.key (s.config.sin2pi x) ≤ F32.key oneW) ∧
  (s.config.sin2pi 0 = 0 ∧ s.config.sin2pi 0x3E800000 = oneW ∧ s.config.sin2pi 0x3F000000 = 0 ∧
    s.config.sin2pi 0x3F400000 = F32.neg oneW ∧ F32.mag (s.config.sin2pi 0x80000000) = 0) ∧
  (∀ x, F32.isFinite x = true → F32.isNaN (s.config.exp2 x) = false ∧ 0 ≤ F32.key (s.config.exp2 x)) ∧
  (∀ x y, F32.isNaN x = false → F32.isNaN y = false → F32.key x ≤ F32.key y →
    F32.key (s.config.exp2 x) ≤ F32.key (s.config.exp2 y)) ∧
  (∀ (x : NumWord) (n : Int), F32.isFinite x = true → -126 ≤ n → n ≤ 127 → F32.units x = n * 2 ^ 149 →
    F32.isFinite (s.config.exp2 x) = true ∧ F32.units (s.config.exp2 x) = 2 ^ (n + 149).toNat) ∧
  (F32.isFinite s.config.pi = true ∧ ∀ w, F32.isFinite w = true →
    |realValue s.config.pi - Real.pi| ≤ |realValue w - Real.pi|)

/-- 00_scope.md R7, 10_state.md R20: the OPEN parameters are an argument of the model. The free choice a run starts
with is any within R7's constraints and no other; no step changes them; and every constant of the rules is the one
of the state's parameters. That they stand in the machine's state is the model's choice (log 19). -/
def Obligations.ParametersMeetConstraints : Prop :=
  State.reset.params.allowed ∧ (∀ p : OpenParams, p.allowed ↔ ∃ f : FreeParams, paramsOf f = p) ∧
  (∀ s t : State, step s = .next t → t.params = s.params) ∧
  (∀ p : OpenParams, p.allowed ↔
    (F32.isNaN p.baseFreq = false ∧ 0 < F32.key p.baseFreq) ∧ (F32.isNaN p.epsDiv = false ∧ 0 < F32.key p.epsDiv) ∧
    (∀ (m : Fin 3) (i : Fin 8), F32.isNaN ((p.ftab.get m).get i) = false ∧ 0 < F32.key ((p.ftab.get m).get i)) ∧
    (F32.isNaN p.fltK = false ∧ 0 ≤ F32.key p.fltK))

/-- 00_scope.md R11: `+ - * /` under F32 are the exact results rounded once to nearest, ties to even: on finite
operands, the divisor not 0, each operation answers; below `2^128 - 2^103` in size the answer is finite, no finite
number is nearer to the exact value, and where another is as near the answer's last bit is 0; from there on it is
the infinity of the exact value's sign. That `Num` is binary32 in this encoding is log 2. -/
def Obligations.OperationsRoundToNearestEven : Prop :=
  ∀ a b : NumWord, F32.isFinite a = true → F32.isFinite b = true →
    RoundsTo (F32.add a b) (realValue a + realValue b) ∧ RoundsTo (F32.sub a b) (realValue a - realValue b) ∧
    RoundsTo (F32.mul a b) (realValue a * realValue b) ∧
    (realValue b ≠ 0 → RoundsTo (F32.div a b) (realValue a / realValue b))

/-- 00_scope.md R11, R13: comparison and floor are exact, and an infinity compares above or below every finite
number, so a clamp maps it to a bound. -/
def Obligations.ComparisonAndFloorAreExact : Prop :=
  (∀ a b, F32.isFinite a = true → F32.isFinite b = true →
    F32.lt a b = .ok (decide (F32.units a < F32.units b)) ∧ F32.le a b = .ok (decide (F32.units a ≤ F32.units b)) ∧
    (∃ n, F32.floor a = .ok (some n) ∧ n = ⌊realValue a⌋)) ∧
  (∀ a, F32.isFinite a = true → F32.lt a 0x7F800000 = .ok true ∧ F32.lt 0xFF800000 a = .ok true) ∧
  (∀ lo hi, F32.isFinite lo = true → F32.isFinite hi = true → F32.key lo ≤ F32.key hi →
    clamp f32 0x7F800000 lo hi = .ok hi ∧ clamp f32 0xFF800000 lo hi = .ok lo)

/-! ## The reference reading `NUMERICS = REAL` -/

/-- 41_phase.md R112, R116 under REAL: from a phase in [0, 1), with `0 ≤ f * dt < 1`, repeated advances keep
the phase in [0, 1), and after `n` of them it is the fractional part of `p0 + n * f * dt`. -/
def Obligations.RealPhaseStaysInRange : Prop :=
  ∀ (p0 f dt : ℝ) (p : Nat → ℝ), 0 ≤ p0 → p0 < 1 → 0 ≤ f * dt → f * dt < 1 → p 0 = p0 →
    (∀ n, phaseAdvance reals (p n) f dt = .ok (p (n + 1))) →
    ∀ n, 0 ≤ p n ∧ p n < 1 ∧ p n = Int.fract (p0 + n * (f * dt))

/-- 44_envelope.md R158 under REAL: from a unit in Idle with output 0 and the gate low before, with the gate
held high, `A ≥ EPS_DIV` and `dt > 0`, the output after `n ≥ 1` steps is `n * dt / A` while that is below 1,
and output 1 is reached within `⌈A / dt⌉` steps. -/
def Obligations.RealAttackReachesOne : Prop :=
  ∀ (c : Config ℝ) (x : EnvIn ℝ) (u : Nat → EnvUnit ℝ), RealConfig c → 1 ≤ x.gateV → 0 < x.dt →
    c.epsDiv ≤ x.att → (u 0).st = .idle → (u 0).out = 0 → (u 0).gprev = false →
    (∀ n, envStepUnit reals c x (u n) = .ok (u (n + 1))) →
    (∀ n : Nat, 1 ≤ n → n * x.dt / x.att < 1 → (u n).st = .attack ∧ (u n).out = n * x.dt / x.att) ∧
    ∃ n : Nat, 1 ≤ n ∧ n ≤ ⌈x.att / x.dt⌉₊ ∧ (u n).out = 1

/-- 45_filter.md R167, R171 under REAL: with a constant input the error shrinks by the same factor `1 - alpha`
at each step, with `0 ≤ alpha ≤ 1`, so no output leaves the range between the first output and the input;
in the rational form `0 < alpha < 1`. -/
def Obligations.RealFilterConverges : Prop :=
  ∀ (c : Config ℝ) (sr x cutoff : ℝ) (swept : Bool) (y : Nat → ℝ), RealConfig c →
    (∀ n, fltStep reals c sr (y n) x cutoff swept = .ok (y (n + 1))) →
    ∃ alpha : ℝ, 0 ≤ alpha ∧ alpha ≤ 1 ∧ (swept = false → 0 < alpha ∧ alpha < 1) ∧
      (∀ n, y n - x = (1 - alpha) ^ n * (y 0 - x)) ∧
      ∀ n, min (y 0) x ≤ y n ∧ y n ≤ max (y 0) x

/-- 42_waveform.md R123, R134 under REAL: the triangle on [0, 1) is in [-1, 1], rises on [0, 0.5), falls on
[0.5, 1), and is continuous, at the wrap too. -/
def Obligations.RealTriangle : Prop :=
  ∃ f : ℝ → ℝ, (∀ p, tri reals p = .ok (f p)) ∧ f 0 = -1 ∧ f (1 / 2) = 1 ∧ f 1 = f 0 ∧ Continuous f ∧
    (∀ p, 0 ≤ p → p < 1 → -1 ≤ f p ∧ f p ≤ 1) ∧ StrictMonoOn f (Set.Ico 0 (1 / 2)) ∧
    StrictAntiOn f (Set.Ico (1 / 2) 1)

/-- 43_harmonic_bank.md R138, R142 under REAL, direct sine: `HB_OUT` is `(OUT_GAIN / 8)` times the sum of each
amplitude times the sine of its advanced phase. -/
def Obligations.RealBankOutput : Prop :=
  ∀ (c : Config ℝ) (v w : Voice ℝ), RealConfig c → v.cfg0.getLsbD 2 = true → hbTick reals c v = .ok w →
    w.num .hbOut = (if v.cfg0.getLsbD 3 then 10 else 5) / 8 *
      ∑ i : Fin 8, w.num (.slotA i) * Real.sin (2 * Real.pi * w.num (.ph (slotPhase i)))
end

