-- ==== Sys2Proof/Laws/Calc.lean ====
section
/-! SUPPORT. Taking a computation apart: when a sequence of operations gives a value. -/

namespace Sys2Proof.Machine

variable {α β : Type}

/-- A sequence gives a value exactly when its first part does and the rest does from there. -/
theorem calc_bind_ok {x : Calc α} {f : α → Calc β} {b : β} :
    (x >>= f) = .ok b ↔ ∃ a, x = .ok a ∧ f a = .ok b := by
  cases x with
  | error e => simp [bind, Except.bind]
  | ok a => simp [bind, Except.bind]

@[simp] theorem calc_ok_bind (a : α) (f : α → Calc β) : ((Except.ok a : Calc α) >>= f) = f a := rfl

@[simp] theorem calc_error_bind (e : Stop) (f : α → Calc β) :
    ((Except.error e : Calc α) >>= f) = .error e := rfl

theorem calc_pure (a : α) : (pure a : Calc α) = .ok a := rfl

@[simp] theorem calc_pure_ok {a b : α} : (pure a : Calc α) = .ok b ↔ a = b := by
  simp [calc_pure]

/-- Folding keeps what every step keeps. -/
theorem foldlM_keeps {P : β → Prop} {f : β → α → Calc β} (hf : ∀ b a b', P b → f b a = .ok b' → P b')
    (l : List α) {b b' : β} (hb : P b) (h : l.foldlM f b = .ok b') : P b' := by
  induction l generalizing b with
  | nil => simp [List.foldlM] at h; exact h ▸ hb
  | cons a l ih =>
    rw [List.foldlM_cons, calc_bind_ok] at h
    obtain ⟨c, hc, h⟩ := h
    exact ih (hf _ _ _ hb hc) h

end Sys2Proof.Machine
end

