-- ==== Sys2Proof/Laws/Float.lean ====
section
/-! SUPPORT. What the binary32 operations can do: words and their fields, exactness and monotonicity of
rounding, bounds on a rounded result, and no NaN among the results. -/

namespace Sys2Proof.F32

/-! Words -/

theorem mag_lt (w : NumWord) : mag w < 2 ^ 31 := Nat.mod_lt _ (by decide)

theorem toNat_eq (w : NumWord) : w.toNat = (if sign w then 2 ^ 31 else 0) + mag w := by
  unfold sign mag
  rw [BitVec.msb_eq_decide]
  have := w.isLt
  simp only [decide_eq_true_eq]
  split <;> omega

/-- A word is its sign and its magnitude. -/
theorem ext_sign_mag {v w : NumWord} (hs : sign v = sign w) (hm : mag v = mag w) : v = w := by
  apply BitVec.eq_of_toNat_eq
  rw [toNat_eq, toNat_eq, hs, hm]

@[simp] theorem mag_pack (s : Bool) {m : Nat} (h : m < 2 ^ 31) : mag (pack s m) = m := by
  unfold mag pack
  cases s <;> simp [BitVec.toNat_ofNat] <;> omega

@[simp] theorem sign_pack (s : Bool) {m : Nat} (h : m < 2 ^ 31) : sign (pack s m) = s := by
  unfold sign pack
  rw [BitVec.msb_eq_decide]
  cases s <;> simp [BitVec.toNat_ofNat] <;> omega

theorem pack_sign_mag (w : NumWord) : pack (sign w) (mag w) = w :=
  ext_sign_mag (sign_pack _ (mag_lt w)) (mag_pack _ (mag_lt w))

theorem infMag_lt : infMag < 2 ^ 31 := by decide

/-! Sizes -/

theorem scale_of_lt {m : Nat} (h : m < 2 ^ 23) : scale m = m := by
  unfold scale
  rw [if_pos (Nat.div_eq_of_lt h)]

/-- A magnitude word with exponent shift `s` and significand `q`. -/
theorem scale_shift (s q : Nat) (h1 : 2 ^ 23 ≤ q) (h2 : q < 2 ^ 24) : scale (s * 2 ^ 23 + q) = q * 2 ^ s := by
  have hq : q / 2 ^ 23 = 1 := by omega
  have hd : (s * 2 ^ 23 + q) / 2 ^ 23 = s + 1 := by omega
  have hm : (s * 2 ^ 23 + q) % 2 ^ 23 = q - 2 ^ 23 := by omega
  have hs : 2 ^ 23 + (q - 2 ^ 23) = q := by omega
  have h0 : s + 1 ≠ 0 := Nat.succ_ne_zero s
  simp only [scale, hd, hm, hs, h0, if_false, Nat.add_sub_cancel]

/-- Every magnitude word is of one of the two forms. -/
theorem mag_cases (m : Nat) : m < 2 ^ 23 ∨ ∃ s q, m = s * 2 ^ 23 + q ∧ 2 ^ 23 ≤ q ∧ q < 2 ^ 24 := by
  by_cases h : m < 2 ^ 23
  · exact .inl h
  · exact .inr ⟨m / 2 ^ 23 - 1, m % 2 ^ 23 + 2 ^ 23, by omega, by omega, by omega⟩

theorem scale_succ_lt (m : Nat) : scale m < scale (m + 1) := by
  rcases mag_cases m with h | ⟨s, q, rfl, h1, h2⟩
  · rw [scale_of_lt h]
    by_cases h' : m + 1 < 2 ^ 23
    · rw [scale_of_lt h']; omega
    · have e : m + 1 = 0 * 2 ^ 23 + 2 ^ 23 := by omega
      rw [e, scale_shift 0 (2 ^ 23) (by omega) (by omega)]
      omega
  · rw [scale_shift s q h1 h2]
    by_cases h' : q + 1 < 2 ^ 24
    · rw [Nat.add_assoc, scale_shift s (q + 1) (by omega) h']
      exact Nat.mul_lt_mul_of_pos_right (by omega) (Nat.two_pow_pos s)
    · have e : s * 2 ^ 23 + q + 1 = (s + 1) * 2 ^ 23 + 2 ^ 23 := by omega
      rw [e, scale_shift (s + 1) (2 ^ 23) (by omega) (by omega), Nat.pow_succ]
      have : q * 2 ^ s < 2 ^ 24 * 2 ^ s := Nat.mul_lt_mul_of_pos_right h2 (Nat.two_pow_pos s)
      omega

/-- A larger magnitude word is a larger number. -/
theorem scale_strictMono : StrictMono scale := strictMono_nat_of_lt_succ scale_succ_lt

@[simp] theorem scale_zero : scale 0 = 0 := by decide

theorem scale_pos {m : Nat} (h : 0 < m) : 0 < scale m := by
  simpa using scale_strictMono h

/-! Rounding -/

theorem nearestEven_bounds (n d : Nat) (hd : 0 < d) :
    2 * (nearestEven n d * d) ≤ 2 * n + d ∧ 2 * n ≤ 2 * (nearestEven n d * d) + d := by
  have e := Nat.div_add_mod n d
  have l := Nat.mod_lt n hd
  have c : n / d * d = d * (n / d) := Nat.mul_comm _ _
  unfold nearestEven
  split
  · rename_i h
    constructor <;> rw [c] <;> omega
  · rename_i h
    have : (n / d + 1) * d = d * (n / d) + d := by rw [Nat.add_mul, c, Nat.one_mul]
    constructor <;> rw [this] <;> omega

/-- Rounding to an integer is monotone in the exact value. -/
theorem nearestEven_mono {n d n' d' : Nat} (hd : 0 < d) (hd' : 0 < d') (h : n * d' ≤ n' * d) :
    nearestEven n d ≤ nearestEven n' d' := by
  have q : n / d ≤ n' / d' := by
    rw [Nat.le_div_iff_mul_le hd']
    have h1 : n / d * d * d' ≤ n' * d := (Nat.mul_le_mul_right d' (Nat.div_mul_le_self n d)).trans h
    have h2 : n / d * d' * d ≤ n' * d := by rwa [Nat.mul_right_comm]
    exact Nat.le_of_mul_le_mul_right h2 hd
  by_cases hlt : n / d < n' / d'
  · have a : nearestEven n d ≤ n / d + 1 := by unfold nearestEven; split <;> omega
    have b : n' / d' ≤ nearestEven n' d' := by unfold nearestEven; split <;> omega
    omega
  · have hq : n / d = n' / d' := by omega
    have e := Nat.div_add_mod n d
    have e' := Nat.div_add_mod n' d'
    have hr : n % d * d' ≤ n' % d' * d := by
      rw [← hq] at e'
      have : (d * (n / d) + n % d) * d' ≤ (d' * (n / d) + n' % d') * d := by rw [e, e']; exact h
      have c : d * (n / d) * d' = d' * (n / d) * d := by ring
      rw [Nat.add_mul, Nat.add_mul, c] at this
      omega
    have lt_of : 2 * (n' % d') < d' → 2 * (n % d) < d := by
      intro hh
      by_contra hc
      have h1 : d * d' ≤ 2 * (n % d) * d' := Nat.mul_le_mul_right _ (by omega)
      have h2 : 2 * (n' % d') * d < d' * d := Nat.mul_lt_mul_of_pos_right hh hd
      have h3 : d' * d = d * d' := Nat.mul_comm _ _
      have h4 : 2 * (n % d) * d' ≤ 2 * (n' % d') * d := by
        rw [Nat.mul_assoc, Nat.mul_assoc]; exact Nat.mul_le_mul_left 2 hr
      omega
    have le_of : 2 * (n' % d') = d' → 2 * (n % d) ≤ d := by
      intro hh
      have h4 : 2 * (n % d) * d' ≤ 2 * (n' % d') * d := by
        rw [Nat.mul_assoc, Nat.mul_assoc]; exact Nat.mul_le_mul_left 2 hr
      rw [hh, Nat.mul_comm d' d] at h4
      exact Nat.le_of_mul_le_mul_right h4 hd'
    unfold nearestEven
    rw [← hq]
    split
    · split <;> omega
    · rename_i hn
      rw [if_neg]
      rintro (h1 | ⟨h1, h2⟩)
      · exact hn (.inl (lt_of h1))
      · rcases Nat.lt_or_eq_of_le (le_of h1) with h3 | h3
        · exact hn (.inl h3)
        · exact hn (.inr ⟨h3, h2⟩)

theorem nearestEven_exact (q d : Nat) (hd : 0 < d) : nearestEven (q * d) d = q := by
  unfold nearestEven
  rw [Nat.mul_mod_left, Nat.mul_div_cancel _ hd, if_pos (.inl (by omega))]

/-- The significand has at most 24 bits, and exactly 24 where it is shifted. -/
theorem shift_bounds (n d : Nat) (hd : 0 < d) :
    n < d * 2 ^ shift n d * 2 ^ 24 ∧ (shift n d ≠ 0 → d * 2 ^ shift n d * 2 ^ 23 ≤ n) := by
  unfold shift
  by_cases h0 : n / d = 0
  · have : n < d := by
      rcases (Nat.div_eq_zero_iff).mp h0 with h | h <;> omega
    simp only [h0, Nat.log2_zero]
    constructor
    · simp; omega
    · intro h; simp at h
  · have hl := (Nat.log2_eq_iff h0).mp rfl
    have up : n / d < 2 ^ (Nat.log2 (n / d) - 23) * 2 ^ 24 := by
      rw [← Nat.pow_add]
      exact hl.2.trans_le (Nat.pow_le_pow_right (by decide) (by omega))
    constructor
    · rw [Nat.mul_assoc]
      exact (Nat.div_lt_iff_lt_mul hd).mp up |>.trans_eq (Nat.mul_comm _ _)
    · intro hs
      have : 2 ^ (Nat.log2 (n / d) - 23) * 2 ^ 23 ≤ n / d := by
        rw [← Nat.pow_add]
        exact (Nat.pow_le_pow_right (by decide) (by omega)).trans hl.1
      rw [Nat.mul_assoc]
      exact (Nat.mul_le_mul_left d this).trans (Nat.mul_div_le n d)

theorem shift_mono {n d n' d' : Nat} (hd : 0 < d) (hd' : 0 < d') (h : n * d' ≤ n' * d) :
    shift n d ≤ shift n' d' := by
  have q : n / d ≤ n' / d' := by
    rw [Nat.le_div_iff_mul_le hd']
    have h1 : n / d * d * d' ≤ n' * d := (Nat.mul_le_mul_right d' (Nat.div_mul_le_self n d)).trans h
    have h2 : n / d * d' * d ≤ n' * d := by rwa [Nat.mul_right_comm]
    exact Nat.le_of_mul_le_mul_right h2 hd
  unfold shift
  have : Nat.log2 (n / d) ≤ Nat.log2 (n' / d') := by
    rw [Nat.log2_eq_log_two, Nat.log2_eq_log_two]
    exact Nat.log_mono_right q
  omega

/-- The rounded significand lies in [2^23, 2^24] where it is shifted, and in [0, 2^24] in any case. -/
theorem significand_bounds (n d : Nat) (hd : 0 < d) :
    nearestEven n (d * 2 ^ shift n d) ≤ 2 ^ 24 ∧
      (shift n d ≠ 0 → 2 ^ 23 ≤ nearestEven n (d * 2 ^ shift n d)) := by
  have hp : 0 < d * 2 ^ shift n d := Nat.mul_pos hd (Nat.two_pow_pos _)
  obtain ⟨h1, h2⟩ := shift_bounds n d hd
  constructor
  · rw [← nearestEven_exact (2 ^ 24) _ hp]
    apply nearestEven_mono hp hp
    apply Nat.mul_le_mul_right
    rw [Nat.mul_comm]; exact h1.le
  · intro hs
    rw [← nearestEven_exact (2 ^ 23) _ hp]
    apply nearestEven_mono hp hp
    apply Nat.mul_le_mul_right
    rw [Nat.mul_comm]; exact h2 hs

/-- Rounding is monotone in the exact value. -/
theorem roundMag_mono {n d n' d' : Nat} (hd : 0 < d) (hd' : 0 < d') (h : n * d' ≤ n' * d) :
    roundMag n d ≤ roundMag n' d' := by
  unfold roundMag
  apply min_le_min_right
  obtain ⟨a1, a2⟩ := significand_bounds n d hd
  obtain ⟨b1, b2⟩ := significand_bounds n' d' hd'
  rcases Nat.lt_or_eq_of_le (shift_mono hd hd' h) with hs | hs
  · have := b2 (by omega)
    have : (shift n d + 1) * 2 ^ 23 ≤ shift n' d' * 2 ^ 23 := Nat.mul_le_mul_right _ hs
    omega
  · rw [hs]
    apply Nat.add_le_add_left
    apply nearestEven_mono (Nat.mul_pos hd (Nat.two_pow_pos _)) (Nat.mul_pos hd' (Nat.two_pow_pos _))
    have := Nat.mul_le_mul_right (2 ^ shift n' d') h
    calc n * (d' * 2 ^ shift n' d') = n * d' * 2 ^ shift n' d' := by ring
      _ ≤ n' * d * 2 ^ shift n' d' := this
      _ = n' * (d * 2 ^ shift n' d') := by ring

theorem roundMag_le (n d : Nat) : roundMag n d ≤ infMag := min_le_right _ _

/-- A number that is representable is rounded to itself. -/
theorem roundMag_exact {m d : Nat} (hm : m < infMag) (hd : 0 < d) : roundMag (scale m * d) d = m := by
  have hdiv : scale m * d / d = scale m := Nat.mul_div_cancel _ hd
  unfold roundMag
  rcases mag_cases m with h | ⟨s, q, rfl, h1, h2⟩
  · have hs : shift (scale m * d) d = 0 := by
      unfold shift
      rw [hdiv, scale_of_lt h]
      by_cases h0 : m = 0
      · simp [h0]
      · have : Nat.log2 m < 23 := (Nat.log2_lt h0).mpr h
        omega
    rw [hs, Nat.pow_zero, Nat.mul_one, nearestEven_exact _ _ hd, scale_of_lt h]
    omega
  · rw [scale_shift s q h1 h2] at *
    have hs : shift (q * 2 ^ s * d) d = s := by
      unfold shift
      rw [hdiv]
      have h0 : q * 2 ^ s ≠ 0 := Nat.mul_ne_zero (by omega) (Nat.two_pow_pos s).ne'
      have : Nat.log2 (q * 2 ^ s) = 23 + s := by
        rw [Nat.log2_eq_iff h0]
        constructor
        · rw [Nat.pow_add]; exact Nat.mul_le_mul_right _ h1
        · rw [show 23 + s + 1 = 24 + s by omega, Nat.pow_add]
          exact Nat.mul_lt_mul_of_pos_right h2 (Nat.two_pow_pos s)
      omega
    rw [hs]
    have : q * 2 ^ s * d = q * (d * 2 ^ s) := by ring
    rw [this, nearestEven_exact _ _ (Nat.mul_pos hd (Nat.two_pow_pos s))]
    omega

/-- If the exact value is at most a representable one, so is the rounded value. -/
theorem roundMag_le_of {n d m : Nat} (hm : m < infMag) (hd : 0 < d) (h : n ≤ scale m * d) : roundMag n d ≤ m := by
  have := roundMag_mono (n := n) (d := d) (n' := scale m * d) (d' := d) hd hd (Nat.mul_le_mul_right d h)
  rwa [roundMag_exact hm hd] at this

/-- If the exact value is at least a representable one, so is the rounded value. -/
theorem le_roundMag_of {n d m : Nat} (hm : m < infMag) (hd : 0 < d) (h : scale m * d ≤ n) : m ≤ roundMag n d := by
  have := roundMag_mono (n := scale m * d) (d := d) (n' := n) (d' := d) hd hd (Nat.mul_le_mul_right d h)
  rwa [roundMag_exact hm hd] at this

@[simp] theorem roundMag_zero (d : Nat) (hd : 0 < d) : roundMag 0 d = 0 :=
  Nat.le_zero.mp (roundMag_le_of (by decide) hd (by simp))

@[simp] theorem mag_round (s : Bool) (n d : Nat) : mag (round s n d) = roundMag n d :=
  mag_pack s (lt_of_le_of_lt (roundMag_le n d) infMag_lt)

@[simp] theorem sign_round (s : Bool) (n d : Nat) : sign (round s n d) = s :=
  sign_pack s (lt_of_le_of_lt (roundMag_le n d) infMag_lt)

theorem isNaN_round (s : Bool) (n d : Nat) : isNaN (round s n d) = false := by
  have := roundMag_le n d
  simp [isNaN]; omega

theorem isNaN_pack (s : Bool) {m : Nat} (h : m ≤ infMag) : isNaN (pack s m) = false := by
  simp only [isNaN, mag_pack s (lt_of_le_of_lt h infMag_lt), decide_eq_false_iff_not]
  omega

theorem isNaN_of_isFinite {w : NumWord} (h : isFinite w = true) : isNaN w = false := by
  simp [isNaN, isFinite] at *; omega

theorem isInf_of_isFinite {w : NumWord} (h : isFinite w = true) : isInf w = false := by
  simp [isInf, isFinite] at *; omega

/-- A number that is neither a NaN nor an infinity is finite. -/
theorem isFinite_of {w : NumWord} (h1 : isNaN w = false) (h2 : isInf w = false) : isFinite w = true := by
  simp [isInf, isFinite, isNaN] at *; omega

/-! Order -/

theorem units_le_iff {a b : NumWord} : units a ≤ units b ↔ key a ≤ key b := by
  have mono : ∀ {x y : Nat}, scale x ≤ scale y ↔ x ≤ y := scale_strictMono.le_iff_le
  have zero : ∀ {x : Nat}, scale x = 0 ↔ x = 0 := by
    intro x
    rw [← scale_zero]
    exact scale_strictMono.injective.eq_iff
  have h1 := @mono (mag a) (mag b)
  have h2 := @mono (mag b) (mag a)
  have h3 := @zero (mag a)
  have h4 := @zero (mag b)
  unfold units key
  cases sign a <;> cases sign b <;> simp <;> omega

theorem units_lt_iff {a b : NumWord} : units a < units b ↔ key a < key b := by
  rw [← not_le, ← not_le, units_le_iff]

/-- The exact value, in units times `d`, that `round s n d` rounds. -/
def signed (s : Bool) (n : Nat) : Int := if s then -(n : Int) else n

/-- If the exact value is at most a finite number, the rounded one is at most that number. -/
theorem key_round_le {s : Bool} {n d : Nat} {w : NumWord} (hd : 0 < d) (hw : isFinite w = true)
    (h : signed s n ≤ units w * d) : key (round s n d) ≤ key w := by
  have hw' : mag w < infMag := by simpa [isFinite] using hw
  unfold key
  rw [sign_round, mag_round]
  unfold signed units at h
  cases s <;> cases hs : sign w <;> simp only [hs, if_true, if_false, Bool.false_eq_true] at h ⊢
  · have : n ≤ scale (mag w) * d := by exact_mod_cast h
    exact_mod_cast roundMag_le_of hw' hd this
  · have h0 : (n : Int) ≤ 0 := h.trans (by have := Int.natCast_nonneg (scale (mag w)); have := Int.natCast_nonneg d; nlinarith)
    have hn : n = 0 := by omega
    have hz : scale (mag w) * d = 0 := by
      subst hn
      have : ((scale (mag w) * d : Nat) : Int) ≤ 0 := by push_cast; linarith
      omega
    have : scale (mag w) = 0 := by
      rcases Nat.mul_eq_zero.mp hz with h | h <;> omega
    have : mag w = 0 := by
      by_contra hc
      have := scale_pos (Nat.pos_of_ne_zero hc)
      omega
    rw [hn, roundMag_zero d hd, this]
    simp
  · omega
  · have : scale (mag w) * d ≤ n := by
      have : ((scale (mag w) * d : Nat) : Int) ≤ n := by push_cast; linarith
      exact_mod_cast this
    have := le_roundMag_of hw' hd this
    omega

@[simp] theorem key_neg (w : NumWord) : key (neg w) = -key w := by
  unfold key neg
  rw [sign_pack _ (mag_lt w), mag_pack _ (mag_lt w)]
  cases sign w <;> simp

@[simp] theorem units_neg (w : NumWord) : units (neg w) = -units w := by
  unfold units neg
  rw [sign_pack _ (mag_lt w), mag_pack _ (mag_lt w)]
  cases sign w <;> simp

@[simp] theorem mag_neg (w : NumWord) : mag (neg w) = mag w := mag_pack _ (mag_lt w)

@[simp] theorem sign_neg (w : NumWord) : sign (neg w) = !sign w := sign_pack _ (mag_lt w)

@[simp] theorem isFinite_neg (w : NumWord) : isFinite (neg w) = isFinite w := by simp [isFinite]

@[simp] theorem isNaN_neg (w : NumWord) : isNaN (neg w) = isNaN w := by simp [isNaN]

@[simp] theorem isInf_neg (w : NumWord) : isInf (neg w) = isInf w := by simp [isInf]

theorem neg_round (s : Bool) (n d : Nat) : neg (round s n d) = round (!s) n d := by
  apply ext_sign_mag <;> simp

/-- If the exact value is at least a finite number, the rounded one is at least that number. -/
theorem le_key_round {s : Bool} {n d : Nat} {w : NumWord} (hd : 0 < d) (hw : isFinite w = true)
    (h : units w * d ≤ signed s n) : key w ≤ key (round s n d) := by
  have := key_round_le (s := !s) (n := n) (d := d) (w := neg w) hd (by simpa using hw)
    (by rw [units_neg]; unfold signed at *; cases s <;> simp at h ⊢ <;> linarith)
  rw [← neg_round, key_neg, key_neg] at this
  omega

/-! No operation gives a NaN -/

theorem add_not_nan {a b r : NumWord} (h : add a b = .ok r) : isNaN r = false := by
  unfold add at h
  split at h
  · cases h
  · rename_i hn
    simp only [Bool.or_eq_true, not_or, Bool.not_eq_true] at hn
    split at h
    · split at h
      · cases h
      · cases h; exact hn.1
    · split at h
      · cases h; exact hn.2
      · cases h; exact isNaN_round _ _ _

theorem sub_not_nan {a b r : NumWord} (h : sub a b = .ok r) : isNaN r = false := add_not_nan h

theorem mul_not_nan {a b r : NumWord} (h : mul a b = .ok r) : isNaN r = false := by
  unfold mul at h
  split at h
  · cases h
  · split at h
    · split at h
      · cases h
      · cases h; exact isNaN_pack _ le_rfl
    · cases h; exact isNaN_round _ _ _

theorem div_not_nan {a b r : NumWord} (h : div a b = .ok r) : isNaN r = false := by
  unfold div at h
  split at h
  · cases h
  · split at h
    · split at h
      · cases h
      · cases h; exact isNaN_pack _ le_rfl
    · split at h
      · cases h; exact isNaN_pack _ (by decide)
      · split at h
        · split at h
          · cases h
          · cases h; exact isNaN_pack _ le_rfl
        · cases h; exact isNaN_round _ _ _

theorem app_not_nan {f : NumWord → NumWord} {a r : NumWord} (h : app f a = .ok r) : isNaN r = false := by
  unfold app at h
  split at h
  · cases h
  · rename_i hn
    cases h
    simp only [Bool.or_eq_true, not_or, Bool.not_eq_true] at hn
    exact hn.2

theorem lit_not_nan (n d : Nat) : isNaN (lit n d) = false := isNaN_round _ _ _

/-! The operations on finite operands -/

/-- The sum of two finite numbers, rounded once. -/
theorem add_finite {a b : NumWord} (ha : isFinite a = true) (hb : isFinite b = true) :
    add a b = .ok (ofUnits (sign a && sign b) (units a + units b)) := by
  simp [add, isNaN_of_isFinite ha, isNaN_of_isFinite hb, isInf_of_isFinite ha, isInf_of_isFinite hb]

/-- The product of two finite numbers, rounded once. -/
theorem mul_finite {a b : NumWord} (ha : isFinite a = true) (hb : isFinite b = true) :
    mul a b = .ok (round (sign a != sign b) (scale (mag a) * scale (mag b)) (2 ^ 149)) := by
  simp [mul, isNaN_of_isFinite ha, isNaN_of_isFinite hb, isInf_of_isFinite ha, isInf_of_isFinite hb]

/-- The quotient of two finite numbers, the divisor not 0, rounded once. -/
theorem div_finite {a b : NumWord} (ha : isFinite a = true) (hb : isFinite b = true) (h0 : isZero b = false) :
    div a b = .ok (round (sign a != sign b) (scale (mag a) * 2 ^ 149) (scale (mag b))) := by
  simp [div, isNaN_of_isFinite ha, isNaN_of_isFinite hb, isInf_of_isFinite ha, isInf_of_isFinite hb, h0]

theorem signed_natAbs (z : Bool) (n : Int) : signed (if n = 0 then z else decide (n < 0)) n.natAbs = n := by
  unfold signed
  by_cases h0 : n = 0
  · simp [h0]
  · rw [if_neg h0]
    by_cases hn : n < 0
    · rw [decide_eq_true hn, if_pos rfl]; omega
    · rw [decide_eq_false hn, if_neg (by decide)]; omega

/-- A rounded sum of units is at most any finite number the exact sum is at most. -/
theorem key_ofUnits_le {z : Bool} {n : Int} {w : NumWord} (hw : isFinite w = true) (h : n ≤ units w) :
    key (ofUnits z n) ≤ key w := by
  unfold ofUnits
  exact key_round_le (by decide) hw (by rw [signed_natAbs]; simpa using h)

/-- A rounded sum of units is at least any finite number the exact sum is at least. -/
theorem le_key_ofUnits {z : Bool} {n : Int} {w : NumWord} (hw : isFinite w = true) (h : units w ≤ n) :
    key w ≤ key (ofUnits z n) := by
  unfold ofUnits
  exact le_key_round (by decide) hw (by rw [signed_natAbs]; simpa using h)

theorem signed_mul (a b : NumWord) :
    signed (sign a != sign b) (scale (mag a) * scale (mag b)) = units a * units b := by
  unfold signed units
  cases sign a <;> cases sign b <;> simp

end Sys2Proof.F32
end

