-- ==== Sys2Proof/Laws/State.lean ====
section
/-! SUPPORT. One lemma per accessor per update of the block's state: reading a register after a write. -/

namespace Sys2Proof.Machine

variable {ν : Type}

theorem Vector_get_set {α : Type} {n : Nat} (v : Vector α n) (k j : Fin n) (x : α) :
    (v.set k x).get j = if j = k then x else v.get j := by
  by_cases h : j = k
  · subst h; simp [Vector.get_eq_getElem]
  · have : (k : Nat) ≠ j := fun e => h (Fin.ext e.symm)
    simp [Vector.get_eq_getElem, h, this]

@[simp] theorem Voice.num_setNum (v : Voice ν) (r r' : NumReg) (x : ν) :
    (v.setNum r x).num r' = if r' = r then x else v.num r' := by
  cases r <;> cases r' <;> first | rfl | (simp only [Voice.setNum, Voice.num, Vector_get_set]; simp)

@[simp] theorem Voice.num_setCfg0 (v : Voice ν) (w : Word) (r : NumReg) : (v.setCfg0 w).num r = v.num r := by
  cases r <;> rfl

@[simp] theorem Voice.num_setCfgc (v : Voice ν) (k : Fin 3) (w : Word) (r : NumReg) :
    (v.setCfgc k w).num r = v.num r := by
  cases r <;> rfl

@[simp] theorem Voice.num_setEnvSt (v : Voice ν) (k : Fin 3) (e : EnvState) (r : NumReg) :
    (v.setEnvSt k e).num r = v.num r := by
  cases r <;> rfl

@[simp] theorem Voice.num_setGprev (v : Voice ν) (k : Fin 3) (b : Bool) (r : NumReg) :
    (v.setGprev k b).num r = v.num r := by
  cases r <;> rfl

@[simp] theorem Voice.num_setStatus (v : Voice ν) (w : Word) (r : NumReg) : (v.setStatus w).num r = v.num r := by
  cases r <;> rfl

@[simp] theorem Voice.num_setWt (v : Voice ν) (m : Memory ν) (r : NumReg) : (v.setWt m).num r = v.num r := by
  cases r <;> rfl

@[simp] theorem Voice.num_raise (v : Voice ν) (f : FaultBit) (r : NumReg) : (v.raise f).num r = v.num r := by
  simp [Voice.raise]

/-! `CFG0` -/

@[simp] theorem Voice.cfg0_setNum (v : Voice ν) (r : NumReg) (x : ν) : (v.setNum r x).cfg0 = v.cfg0 := by
  cases r <;> rfl

@[simp] theorem Voice.cfg0_setCfg0 (v : Voice ν) (w : Word) : (v.setCfg0 w).cfg0 = w &&& 0x0000FF1F := rfl

@[simp] theorem Voice.cfg0_setCfgc (v : Voice ν) (k : Fin 3) (w : Word) : (v.setCfgc k w).cfg0 = v.cfg0 := rfl

@[simp] theorem Voice.cfg0_setEnvSt (v : Voice ν) (k : Fin 3) (e : EnvState) :
    (v.setEnvSt k e).cfg0 = v.cfg0 := rfl

@[simp] theorem Voice.cfg0_setGprev (v : Voice ν) (k : Fin 3) (b : Bool) : (v.setGprev k b).cfg0 = v.cfg0 := rfl

@[simp] theorem Voice.cfg0_setStatus (v : Voice ν) (w : Word) : (v.setStatus w).cfg0 = v.cfg0 := rfl

@[simp] theorem Voice.cfg0_setWt (v : Voice ν) (m : Memory ν) : (v.setWt m).cfg0 = v.cfg0 := rfl

@[simp] theorem Voice.cfg0_raise (v : Voice ν) (f : FaultBit) : (v.raise f).cfg0 = v.cfg0 := rfl

/-! `CFGC[k]` -/

@[simp] theorem Voice.cfgc_setNum (v : Voice ν) (r : NumReg) (x : ν) : (v.setNum r x).cfgc = v.cfgc := by
  cases r <;> rfl

@[simp] theorem Voice.cfgc_setCfg0 (v : Voice ν) (w : Word) : (v.setCfg0 w).cfgc = v.cfgc := rfl

@[simp] theorem Voice.cfgc_setCfgc (v : Voice ν) (k j : Fin 3) (w : Word) :
    (v.setCfgc k w).cfgc.get j = if j = k then w &&& 0x0000003F else v.cfgc.get j := by
  simp [Voice.setCfgc, Vector_get_set]

@[simp] theorem Voice.cfgc_setEnvSt (v : Voice ν) (k : Fin 3) (e : EnvState) :
    (v.setEnvSt k e).cfgc = v.cfgc := rfl

@[simp] theorem Voice.cfgc_setGprev (v : Voice ν) (k : Fin 3) (b : Bool) : (v.setGprev k b).cfgc = v.cfgc := rfl

@[simp] theorem Voice.cfgc_setStatus (v : Voice ν) (w : Word) : (v.setStatus w).cfgc = v.cfgc := rfl

@[simp] theorem Voice.cfgc_setWt (v : Voice ν) (m : Memory ν) : (v.setWt m).cfgc = v.cfgc := rfl

@[simp] theorem Voice.cfgc_raise (v : Voice ν) (f : FaultBit) : (v.raise f).cfgc = v.cfgc := rfl

/-! `ENV_ST[k]` -/

@[simp] theorem Voice.envSt_setNum (v : Voice ν) (r : NumReg) (x : ν) : (v.setNum r x).envSt = v.envSt := by
  cases r <;> rfl

@[simp] theorem Voice.envSt_setCfg0 (v : Voice ν) (w : Word) : (v.setCfg0 w).envSt = v.envSt := rfl

@[simp] theorem Voice.envSt_setCfgc (v : Voice ν) (k : Fin 3) (w : Word) : (v.setCfgc k w).envSt = v.envSt := rfl

@[simp] theorem Voice.envSt_setEnvSt (v : Voice ν) (k j : Fin 3) (e : EnvState) :
    (v.setEnvSt k e).envSt.get j = if j = k then e else v.envSt.get j := by
  simp [Voice.setEnvSt, Vector_get_set]

@[simp] theorem Voice.envSt_setGprev (v : Voice ν) (k : Fin 3) (b : Bool) : (v.setGprev k b).envSt = v.envSt := rfl

@[simp] theorem Voice.envSt_setStatus (v : Voice ν) (w : Word) : (v.setStatus w).envSt = v.envSt := rfl

@[simp] theorem Voice.envSt_setWt (v : Voice ν) (m : Memory ν) : (v.setWt m).envSt = v.envSt := rfl

@[simp] theorem Voice.envSt_raise (v : Voice ν) (f : FaultBit) : (v.raise f).envSt = v.envSt := rfl

/-! `ENV_GPREV[k]` -/

@[simp] theorem Voice.envGprev_setNum (v : Voice ν) (r : NumReg) (x : ν) :
    (v.setNum r x).envGprev = v.envGprev := by
  cases r <;> rfl

@[simp] theorem Voice.envGprev_setCfg0 (v : Voice ν) (w : Word) : (v.setCfg0 w).envGprev = v.envGprev := rfl

@[simp] theorem Voice.envGprev_setCfgc (v : Voice ν) (k : Fin 3) (w : Word) :
    (v.setCfgc k w).envGprev = v.envGprev := rfl

@[simp] theorem Voice.envGprev_setEnvSt (v : Voice ν) (k : Fin 3) (e : EnvState) :
    (v.setEnvSt k e).envGprev = v.envGprev := rfl

@[simp] theorem Voice.envGprev_setGprev (v : Voice ν) (k j : Fin 3) (b : Bool) :
    (v.setGprev k b).envGprev.get j = if j = k then b else v.envGprev.get j := by
  simp [Voice.setGprev, Vector_get_set]

@[simp] theorem Voice.envGprev_setStatus (v : Voice ν) (w : Word) : (v.setStatus w).envGprev = v.envGprev := rfl

@[simp] theorem Voice.envGprev_setWt (v : Voice ν) (m : Memory ν) : (v.setWt m).envGprev = v.envGprev := rfl

@[simp] theorem Voice.envGprev_raise (v : Voice ν) (f : FaultBit) : (v.raise f).envGprev = v.envGprev := rfl

/-! `STATUS` -/

@[simp] theorem Voice.status_setNum (v : Voice ν) (r : NumReg) (x : ν) : (v.setNum r x).status = v.status := by
  cases r <;> rfl

@[simp] theorem Voice.status_setCfg0 (v : Voice ν) (w : Word) : (v.setCfg0 w).status = v.status := rfl

@[simp] theorem Voice.status_setCfgc (v : Voice ν) (k : Fin 3) (w : Word) :
    (v.setCfgc k w).status = v.status := rfl

@[simp] theorem Voice.status_setEnvSt (v : Voice ν) (k : Fin 3) (e : EnvState) :
    (v.setEnvSt k e).status = v.status := rfl

@[simp] theorem Voice.status_setGprev (v : Voice ν) (k : Fin 3) (b : Bool) :
    (v.setGprev k b).status = v.status := rfl

@[simp] theorem Voice.status_setStatus (v : Voice ν) (w : Word) : (v.setStatus w).status = w := rfl

@[simp] theorem Voice.status_setWt (v : Voice ν) (m : Memory ν) : (v.setWt m).status = v.status := rfl

@[simp] theorem Voice.status_raise (v : Voice ν) (f : FaultBit) :
    (v.raise f).status = setBit v.status f.bit := rfl

/-! The wavetable -/

@[simp] theorem Voice.wt_setNum (v : Voice ν) (r : NumReg) (x : ν) : (v.setNum r x).wt = v.wt := by
  cases r <;> rfl

@[simp] theorem Voice.wt_setCfg0 (v : Voice ν) (w : Word) : (v.setCfg0 w).wt = v.wt := rfl

@[simp] theorem Voice.wt_setCfgc (v : Voice ν) (k : Fin 3) (w : Word) : (v.setCfgc k w).wt = v.wt := rfl

@[simp] theorem Voice.wt_setEnvSt (v : Voice ν) (k : Fin 3) (e : EnvState) : (v.setEnvSt k e).wt = v.wt := rfl

@[simp] theorem Voice.wt_setGprev (v : Voice ν) (k : Fin 3) (b : Bool) : (v.setGprev k b).wt = v.wt := rfl

@[simp] theorem Voice.wt_setStatus (v : Voice ν) (w : Word) : (v.setStatus w).wt = v.wt := rfl

@[simp] theorem Voice.wt_setWt (v : Voice ν) (m : Memory ν) : (v.setWt m).wt = m := rfl

@[simp] theorem Voice.wt_raise (v : Voice ν) (f : FaultBit) : (v.raise f).wt = v.wt := rfl

/-! An envelope unit as a whole -/

@[simp] theorem Voice.num_setEnvUnit (v : Voice ν) (k : Fin 3) (u : EnvUnit ν) (r : NumReg) :
    (v.setEnvUnit k u).num r =
      if r = .envRel0 k then u.rel0 else if r = .envProg k then u.prog
      else if r = .envOut k then u.out else v.num r := by
  simp [Voice.setEnvUnit]

@[simp] theorem Voice.cfg0_setEnvUnit (v : Voice ν) (k : Fin 3) (u : EnvUnit ν) :
    (v.setEnvUnit k u).cfg0 = v.cfg0 := by
  simp [Voice.setEnvUnit]

@[simp] theorem Voice.cfgc_setEnvUnit (v : Voice ν) (k : Fin 3) (u : EnvUnit ν) :
    (v.setEnvUnit k u).cfgc = v.cfgc := by
  simp [Voice.setEnvUnit]

@[simp] theorem Voice.envSt_setEnvUnit (v : Voice ν) (k j : Fin 3) (u : EnvUnit ν) :
    (v.setEnvUnit k u).envSt.get j = if j = k then u.st else v.envSt.get j := by
  simp [Voice.setEnvUnit]

@[simp] theorem Voice.envGprev_setEnvUnit (v : Voice ν) (k j : Fin 3) (u : EnvUnit ν) :
    (v.setEnvUnit k u).envGprev.get j = if j = k then u.gprev else v.envGprev.get j := by
  simp [Voice.setEnvUnit]

@[simp] theorem Voice.status_setEnvUnit (v : Voice ν) (k : Fin 3) (u : EnvUnit ν) :
    (v.setEnvUnit k u).status = v.status := by
  simp [Voice.setEnvUnit]

@[simp] theorem Voice.wt_setEnvUnit (v : Voice ν) (k : Fin 3) (u : EnvUnit ν) :
    (v.setEnvUnit k u).wt = v.wt := by
  simp [Voice.setEnvUnit]

/-- Two blocks with the same registers and the same wavetable are the same. -/
theorem Voice.ext_registers {v w : Voice ν} (hn : ∀ r, v.num r = w.num r) (h0 : v.cfg0 = w.cfg0)
    (hc : ∀ k, v.cfgc.get k = w.cfgc.get k) (he : ∀ k, v.envSt.get k = w.envSt.get k)
    (hg : ∀ k, v.envGprev.get k = w.envGprev.get k) (hs : v.status = w.status) (hw : v.wt = w.wt) : v = w := by
  have vec : ∀ {α : Type} {n : Nat} {a b : Vector α n}, (∀ k : Fin n, a.get k = b.get k) → a = b := by
    intro α n a b h
    ext i hi
    simpa [Vector.get_eq_getElem] using h ⟨i, hi⟩
  cases v; cases w
  simp only [Voice.mk.injEq]
  refine ⟨hn .dt, hn .sr, h0, hn .ampCv, hn .a0, hn .a1, vec hc, vec fun k => hn (.gateV k),
    vec fun k => hn (.pitch k), vec fun k => hn (.fabs k), vec fun k => hn (.pw k),
    vec fun k => hn (.pwmAmt k), vec fun k => hn (.pwmCv k), vec fun k => hn (.att k),
    vec fun k => hn (.dec k), vec fun k => hn (.sus k), vec fun k => hn (.rel k), vec fun k => hn (.cut k),
    vec fun k => hn (.cutCv k), vec fun i => hn (.level i), vec fun i => hn (.hcv i),
    vec fun j => hn (.ph j), vec fun i => hn (.slotF i), vec fun i => hn (.slotA i), vec he,
    vec fun k => hn (.envOut k), vec fun k => hn (.envProg k), vec hg, vec fun k => hn (.envRel0 k),
    vec fun k => hn (.fltOut k), vec fun k => hn (.freq k), vec fun k => hn (.cutoff k),
    vec fun k => hn (.width k), vec fun k => hn (.out k), hn .mix, hn .hbOut, hn .r0, hs, hw⟩

/-! The machine's state -/

@[simp] theorem State.voice_withVoice (s : State) (v : Voice NumWord) : (s.withVoice v).voice = v := rfl

@[simp] theorem State.pending_withVoice (s : State) (v : Voice NumWord) : (s.withVoice v).pending = s.pending := rfl

@[simp] theorem State.reply_withVoice (s : State) (v : Voice NumWord) : (s.withVoice v).reply = s.reply := rfl

@[simp] theorem State.voice_withExec (s : State) (w : Cmd) : (s.withExec w).voice = s.voice := rfl

@[simp] theorem State.pending_withExec (s : State) (w : Cmd) : (s.withExec w).pending = .exec w :: s.pending := rfl

@[simp] theorem State.reply_withExec (s : State) (w : Cmd) : (s.withExec w).reply = s.reply := rfl

end Sys2Proof.Machine
end

