-- ==== Sys2Proof/Laws/Ops.lean ====
section
/-! SUPPORT. What the shared operations can do: the index field, the register map, raising a fault, the
outcome of a computation, the dispatch. -/

namespace Sys2Proof.Machine

variable {ν : Type}

/-! The index field -/

theorem unitIdx_eq_some {n : Nat} {idx : Idx} {k : Fin n} : unitIdx n idx = some k ↔ idx.toNat = k := by
  unfold unitIdx
  split
  · simp [Fin.ext_iff]
  · rename_i h
    simp only [reduceCtorEq, false_iff]
    intro e
    exact h (e ▸ k.isLt)

theorem unitIdx_eq_none {n : Nat} {idx : Idx} : unitIdx n idx = none ↔ n ≤ idx.toNat := by
  unfold unitIdx
  split <;> simp <;> omega

@[simp] theorem phaseIdx_ofNat (j : Fin 11) : phaseIdx (BitVec.ofNat 4 j) = some j := by
  revert j; decide

@[simp] theorem chainIdx_ofNat (k : Fin 3) : chainIdx (BitVec.ofNat 4 k) = some k := by
  revert k; decide

@[simp] theorem noIdx_zero : noIdx 0#4 = some 0 := by decide

/-! Bits of `STATUS` -/

theorem getLsbD_setBit (w : Word) (n m : Nat) (hn : n < 32) :
    (setBit w n).getLsbD m = (w.getLsbD m || decide (n = m)) := by
  unfold setBit
  by_cases h : n = m
  · subst h; simp [hn]
  · simp [BitVec.getLsbD_twoPow, h]

theorem FaultBit.bit_lt (f : FaultBit) : f.bit < 32 := by cases f <;> decide

theorem FaultBit.bit_inj {f g : FaultBit} (h : f.bit = g.bit) : f = g := by
  cases f <;> cases g <;> first | rfl | exact absurd h (by decide)

theorem FaultBit.bit_ne_wtb (f : FaultBit) : f.bit ≠ wtbBit := by cases f <;> decide

/-- Raising a fault sets its bit and keeps the others. -/
@[simp] theorem Voice.faultBit_raise (v : Voice ν) (f g : FaultBit) :
    (v.raise f).faultBit g = (v.faultBit g || decide (f = g)) := by
  unfold Voice.faultBit
  rw [Voice.status_raise, getLsbD_setBit _ _ _ f.bit_lt]
  congr 1
  simp only [decide_eq_decide]
  exact ⟨FaultBit.bit_inj, fun h => h ▸ rfl⟩

@[simp] theorem Voice.wtb_raise (v : Voice ν) (f : FaultBit) : (v.raise f).wtb = v.wtb := by
  unfold Voice.wtb
  rw [Voice.status_raise, getLsbD_setBit _ _ _ f.bit_lt]
  simp [f.bit_ne_wtb]

/-! Words of registers -/

@[simp] theorem Voice.word_num (v : Voice NumWord) (r : NumReg) : v.word (.num r) = v.num r := rfl

@[simp] theorem Voice.word_status (v : Voice NumWord) : v.word .status = v.status := rfl

/-- Raising a fault writes `STATUS` only. -/
theorem sameRegs_raise (v : Voice NumWord) (f : FaultBit) : SameRegsBut [.status] v (v.raise f) := by
  intro r hr
  cases r with
  | num r => exact Voice.num_raise v f r
  | status => simp at hr
  | cfg0 => rfl
  | cfgc k => rfl
  | envSt k => rfl
  | envGprev k => rfl

/-! The register map -/

/-- The number of a register names it. -/
theorem Reg.ofNumber_number (r : Reg) : Reg.ofNumber (BitVec.ofNat 8 r.number) = some r := by
  cases r with
  | num r =>
    cases r <;> first | rfl | (rename_i k; revert k; decide +kernel)
  | cfg0 => rfl
  | cfgc k => revert k; decide +kernel
  | envSt k => revert k; decide +kernel
  | envGprev k => revert k; decide +kernel
  | status => rfl

theorem Reg.number_lt (r : Reg) : r.number < 256 := by
  cases r with
  | num r => cases r <;> simp only [Reg.number, NumReg.number] <;> omega
  | cfg0 => decide
  | cfgc k => simp only [Reg.number]; omega
  | envSt k => simp only [Reg.number]; omega
  | envGprev k => simp only [Reg.number]; omega
  | status => decide

/-- A mapped number is the number of the register it names. -/
theorem Reg.number_of_ofNumber {n : RegNum} {r : Reg} (h : Reg.ofNumber n = some r) : r.number = n.toNat := by
  have all : ∀ m : Fin 256, ∀ r ∈ Reg.ofNumber (BitVec.ofNat 8 m), r.number = m := by decide +kernel
  have := all ⟨n.toNat, n.isLt⟩ r (by simpa using h)
  simpa using this

/-! Outcomes -/

theorem finish_next {s t : State} {r : Calc (Voice NumWord)} :
    finish s r = .next t ↔ ∃ v, r = .ok v ∧ t = s.withVoice v := by
  cases r with
  | error e => cases e <;> simp [finish]
  | ok v => simp [finish, eq_comm]

theorem finish_refused {s : State} {r : Calc (Voice NumWord)} {q : Refusal} :
    finish s r = .refused q ↔ r = .error .nan ∧ q = .nanOperation := by
  cases r with
  | error e => cases e <;> simp [finish, eq_comm]
  | ok v => simp [finish]

theorem finish_fault {s : State} {r : Calc (Voice NumWord)} {q : Fault} :
    finish s r = .fault q ↔ r = .error .noValue ∧ q = .emptyCell := by
  cases r with
  | error e => cases e <;> simp [finish, eq_comm]
  | ok v => simp [finish]

@[simp] theorem finish_ok (s : State) (v : Voice NumWord) : finish s (.ok v) = .next (s.withVoice v) := rfl

/-- The machine's dispatch is the block's commands at the hardware's numbers and the state's configuration. -/
theorem exec_eq_finish (i : Instr) (s : State) : exec i s = finish s (runCommand f32 s.config i s.voice) := by
  cases i <;> rfl

/-- A command that answers a next state: what the block computed, and the host's side kept. -/
theorem exec_next {i : Instr} {s t : State} :
    exec i s = .next t ↔ ∃ v, runCommand f32 s.config i s.voice = .ok v ∧ t = s.withVoice v := by
  rw [exec_eq_finish, finish_next]

end Sys2Proof.Machine
end

