-- ==== Sys2Proof/Laws/Frames.lean ====
section
/-! SUPPORT. What each shared operation of the block can do when it gives a value, and what it leaves
unchanged. -/

namespace Sys2Proof.Machine

variable {ν : Type}

/-! Composing frames -/

theorem sameRegs_refl (l : List Reg) (v : Voice NumWord) : SameRegsBut l v v := fun _ _ => rfl

theorem sameRegs_trans {l : List Reg} {u v w : Voice NumWord} (h : SameRegsBut l u v) (h' : SameRegsBut l v w) :
    SameRegsBut l u w := fun r hr => (h' r hr).trans (h r hr)

theorem sameRegs_mono {l l' : List Reg} {v w : Voice NumWord} (h : SameRegsBut l v w) (hl : l ⊆ l') :
    SameRegsBut l' v w := fun r hr => h r (fun hm => hr (hl hm))

/-- Writing one `Num` register of the list. -/
theorem sameRegs_setNum {l : List Reg} {v w : Voice NumWord} (r : NumReg) (x : NumWord)
    (h : SameRegsBut l v w) (hr : .num r ∈ l) : SameRegsBut l v (w.setNum r x) := by
  intro q hq
  rw [← h q hq]
  cases q with
  | num q =>
    have : q ≠ r := fun e => hq (e ▸ hr)
    simp [this]
  | cfg0 => exact Voice.cfg0_setNum w r x
  | cfgc k => exact congrArg (·.get k) (Voice.cfgc_setNum w r x)
  | envSt k => exact congrArg (fun a => (a.get k).code) (Voice.envSt_setNum w r x)
  | envGprev k => exact congrArg (fun a => if a.get k then (1 : Word) else 0) (Voice.envGprev_setNum w r x)
  | status => exact Voice.status_setNum w r x

/-- Writing the registers of one envelope unit. -/
theorem sameRegs_setEnvUnit {l : List Reg} {v w : Voice NumWord} (k : Fin 3) (u : EnvUnit NumWord)
    (h : SameRegsBut l v w) (hk : envRegs k ⊆ l) : SameRegsBut l v (w.setEnvUnit k u) := by
  intro q hq
  rw [← h q hq]
  have hn : q ∉ envRegs k := fun e => hq (hk e)
  cases q with
  | num q =>
    have h1 : q ≠ .envRel0 k := fun e => hn (by simp [envRegs, e])
    have h2 : q ≠ .envProg k := fun e => hn (by simp [envRegs, e])
    have h3 : q ≠ .envOut k := fun e => hn (by simp [envRegs, e])
    simp [h1, h2, h3]
  | cfg0 => exact Voice.cfg0_setEnvUnit w k u
  | cfgc j => exact congrArg (·.get j) (Voice.cfgc_setEnvUnit w k u)
  | envSt j =>
    have : j ≠ k := fun e => hn (by simp [envRegs, e])
    simp [Voice.word, this]
  | envGprev j =>
    have : j ≠ k := fun e => hn (by simp [envRegs, e])
    have e := Voice.envGprev_setEnvUnit w k j u
    rw [if_neg this] at e
    exact congrArg (fun b => if b then (1 : Word) else 0) e
  | status => exact Voice.status_setEnvUnit w k u

/-! Inversion of the shared operations, over any number type -/

theorem envStep_ok {N : Numerics ν} {c : Config ν} {k : Fin 3} {v w : Voice ν} :
    envStep N c k v = .ok w ↔ ∃ u, envStepUnit N c (v.envIn k) (v.envUnit k) = .ok u ∧ v.setEnvUnit k u = w := by
  simp only [envStep, calc_bind_ok, calc_pure_ok]

theorem filterStage_ok {N : Numerics ν} {c : Config ν} {k : Fin 3} {m : CutMode} {x : ν} {v w : Voice ν} :
    filterStage N c k m x v = .ok w ↔
      ∃ co y, cutoffBy N c m (v.num (.cut k)) (v.num (.cutCv k)) = .ok co ∧
        fltStep N c (v.num .sr) (v.num (.fltOut k)) x co (sw (v.cfgc.get k)) = .ok y ∧
        (v.setNum (.cutoff k) co).setNum (.fltOut k) y = w := by
  simp only [filterStage, calc_bind_ok, calc_pure_ok, exists_and_left]

theorem hbSlot_ok {N : Numerics ν} {c : Config ν} {fb : ν} {acc acc' : Voice ν × ν} {i : Fin 8} :
    hbSlot N c fb acc i = .ok acc' ↔
      ∃ f p a x y sum, slotFreq N c acc.1.cfg0 fb i = .ok f ∧
        phaseAdvance N (acc.1.num (.ph (slotPhase i))) f (acc.1.num .dt) = .ok p ∧
        slotAmp N acc.1 i = .ok a ∧ sineBy N c acc.1 p = .ok x ∧ N.mul a x = .ok y ∧
        N.add acc.2 y = .ok sum ∧
        (((acc.1.setNum (.ph (slotPhase i)) p).setNum (.slotF i) f).setNum (.slotA i) a, sum) = acc' := by
  simp only [hbSlot, calc_bind_ok, calc_pure_ok, exists_and_left]

theorem hbTick_ok {N : Numerics ν} {c : Config ν} {v w : Voice ν} :
    hbTick N c v = .ok w ↔
      ∃ fb r g o, absToFreq N (v.num (.freq 0)) = .ok fb ∧
        slots.foldlM (hbSlot N c fb) (v, int N 0) = .ok r ∧ N.mul (outGain N v.cfg0) r.2 = .ok g ∧
        N.div g (int N 8) = .ok o ∧ r.1.setNum .hbOut o = w := by
  simp only [hbTick, calc_bind_ok, calc_pure_ok, exists_and_left]

theorem chainTick_ok {N : Numerics ν} {c : Config ν} {af : ν} {k : Fin 3} {m : CutMode} {v w : Voice ν} :
    chainTick N c af k m v = .ok w ↔
      ∃ f p wd x v2 v3 g e o, chainFreq N c v k = .ok f ∧
        phaseAdvance N (v.num (.ph (chainPhase k))) f (v.num .dt) = .ok p ∧
        pulseWidth N (v.num (.pw k)) (v.num (.pwmAmt k)) (v.num (.pwmCv k)) = .ok wd ∧
        waveOf N c v (waveSel (v.cfgc.get k)) p wd = .ok x ∧
        envStep N c k (((v.setNum (.freq k) f).setNum (.ph (chainPhase k)) p).setNum (.width k) wd) = .ok v2 ∧
        filterStage N c k m x v2 = .ok v3 ∧ N.mul (outGain N v3.cfg0) (v3.num (.fltOut k)) = .ok g ∧
        N.mul g (v3.num (.envOut k)) = .ok e ∧ N.mul e af = .ok o ∧ v3.setNum (.out k) o = w := by
  simp only [chainTick, calc_bind_ok, calc_pure_ok, exists_and_left]

theorem bankTick_ok {N : Numerics ν} {c : Config ν} {m : CutMode} {v w : Voice ν} :
    bankTick N c m v = .ok w ↔
      ∃ f v1 v2 v3 e af o, chainFreq N c v 0 = .ok f ∧ hbTick N c (v.setNum (.freq 0) f) = .ok v1 ∧
        envStep N c 0 v1 = .ok v2 ∧ filterStage N c 0 m (v2.num .hbOut) v2 = .ok v3 ∧
        N.mul (v3.num (.fltOut 0)) (v3.num (.envOut 0)) = .ok e ∧ ampFactor N v3 = .ok af ∧
        N.mul e af = .ok o ∧ (v3.setNum (.out 0) o).setNum .mix o = w := by
  simp only [bankTick, calc_bind_ok, calc_pure_ok, exists_and_left]

theorem trioTick_ok {N : Numerics ν} {c : Config ν} {m0 m1 m2 : CutMode} {v w : Voice ν} :
    trioTick N c m0 m1 m2 v = .ok w ↔
      ∃ af v0 v1 v2 x, ampFactor N v = .ok af ∧ chainTick N c af 0 m0 v = .ok v0 ∧
        chainTick N c af 1 m1 v0 = .ok v1 ∧ chainTick N c af 2 m2 v1 = .ok v2 ∧
        mixOf N (v2.num (.out 0)) (v2.num (.out 1)) (v2.num (.out 2)) = .ok x ∧ v2.setNum .mix x = w := by
  simp only [trioTick, calc_bind_ok, calc_pure_ok, exists_and_left]

theorem phaseAdvance_ok {N : Numerics ν} {p f dt q : ν} :
    phaseAdvance N p f dt = .ok q ↔
      ∃ d s wrap, N.mul f dt = .ok d ∧ N.add p d = .ok s ∧ N.le (int N 1) s = .ok wrap ∧
        (if wrap then N.sub s (int N 1) else .ok s) = .ok q := by
  simp only [phaseAdvance, calc_bind_ok, calc_pure, exists_and_left]

theorem clamp_ok {N : Numerics ν} {x lo hi y : ν} :
    clamp N x lo hi = .ok y ↔
      ∃ below above, N.lt x lo = .ok below ∧ N.lt hi x = .ok above ∧
        (if below then lo else if above then hi else x) = y := by
  simp only [clamp, calc_bind_ok, calc_pure_ok, exists_and_left]

theorem maxNum_ok {N : Numerics ν} {a b y : ν} :
    maxNum N a b = .ok y ↔ ∃ less, N.lt a b = .ok less ∧ (if less then b else a) = y := by
  simp only [maxNum, calc_bind_ok, calc_pure_ok]

/-! Frames of the stages -/

theorem envStep_frame {N : Numerics NumWord} {c : Config NumWord} {k : Fin 3} {v w : Voice NumWord}
    (h : envStep N c k v = .ok w) : SameRegsBut (envRegs k) v w ∧ w.wt = v.wt := by
  obtain ⟨u, -, rfl⟩ := envStep_ok.mp h
  exact ⟨sameRegs_setEnvUnit k u (sameRegs_refl _ v) (List.Subset.refl _), Voice.wt_setEnvUnit v k u⟩

theorem filterStage_frame {N : Numerics NumWord} {c : Config NumWord} {k : Fin 3} {m : CutMode} {x : NumWord}
    {v w : Voice NumWord} (h : filterStage N c k m x v = .ok w) :
    SameRegsBut [.num (.cutoff k), .num (.fltOut k)] v w ∧ w.wt = v.wt := by
  obtain ⟨co, y, -, -, rfl⟩ := filterStage_ok.mp h
  exact ⟨sameRegs_setNum _ _ (sameRegs_setNum _ _ (sameRegs_refl _ v) (by simp)) (by simp), by simp⟩

theorem slotRegs_mem (i : Fin 8) : Reg.num (.ph (slotPhase i)) ∈ bankRegs ∧ Reg.num (.slotF i) ∈ bankRegs ∧
    Reg.num (.slotA i) ∈ bankRegs := by
  revert i; decide

theorem hbTick_frame {N : Numerics NumWord} {c : Config NumWord} {v w : Voice NumWord}
    (h : hbTick N c v = .ok w) : SameRegsBut bankRegs v w ∧ w.wt = v.wt := by
  obtain ⟨fb, r, g, o, -, hr, -, -, rfl⟩ := hbTick_ok.mp h
  have keep : SameRegsBut bankRegs v r.1 ∧ r.1.wt = v.wt := by
    refine foldlM_keeps (P := fun acc : Voice NumWord × NumWord => SameRegsBut bankRegs v acc.1 ∧ acc.1.wt = v.wt)
      ?_ slots (b := (v, int N 0)) ⟨sameRegs_refl _ v, rfl⟩ hr
    rintro acc i acc' ⟨hs, hw⟩ h
    obtain ⟨f, p, a, x, y, sum, -, -, -, -, -, -, rfl⟩ := hbSlot_ok.mp h
    have hi := slotRegs_mem i
    exact ⟨sameRegs_setNum _ _ (sameRegs_setNum _ _ (sameRegs_setNum _ _ hs hi.1) hi.2.1) hi.2.2, by simpa using hw⟩
  exact ⟨sameRegs_setNum _ _ keep.1 (by decide), by simpa using keep.2⟩

theorem chainTick_frame {N : Numerics NumWord} {c : Config NumWord} {af : NumWord} {k : Fin 3} {m : CutMode}
    {v w : Voice NumWord} (h : chainTick N c af k m v = .ok w) :
    SameRegsBut (chainRegs k) v w ∧ w.wt = v.wt := by
  obtain ⟨f, p, wd, x, v2, v3, g, e, o, -, -, -, -, h2, h3, -, -, -, rfl⟩ := chainTick_ok.mp h
  obtain ⟨e1, e2⟩ := envStep_frame h2
  obtain ⟨f1, f2⟩ := filterStage_frame h3
  have start : SameRegsBut (chainRegs k) v
      (((v.setNum (.freq k) f).setNum (.ph (chainPhase k)) p).setNum (.width k) wd) :=
    sameRegs_setNum _ _ (sameRegs_setNum _ _ (sameRegs_setNum _ _ (sameRegs_refl _ v) (by simp [chainRegs]))
      (by simp [chainRegs])) (by simp [chainRegs])
  have env : envRegs k ⊆ chainRegs k := List.subset_append_right _ _
  have flt : [.num (.cutoff k), .num (.fltOut k)] ⊆ chainRegs k := by simp [chainRegs]
  exact ⟨sameRegs_setNum _ _ (sameRegs_trans (sameRegs_trans start (sameRegs_mono e1 env)) (sameRegs_mono f1 flt))
    (by simp [chainRegs]), by simp [f2, e2]⟩

theorem bankTick_frame {N : Numerics NumWord} {c : Config NumWord} {m : CutMode} {v w : Voice NumWord}
    (h : bankTick N c m v = .ok w) : SameRegsBut (cmdWrites (.vgBank 0)) v w ∧ w.wt = v.wt := by
  obtain ⟨f, v1, v2, v3, e, af, o, -, h1, h2, h3, -, -, -, rfl⟩ := bankTick_ok.mp h
  obtain ⟨a1, a2⟩ := hbTick_frame h1
  obtain ⟨b1, b2⟩ := envStep_frame h2
  obtain ⟨c1, c2⟩ := filterStage_frame h3
  have start : SameRegsBut (cmdWrites (.vgBank 0)) v (v.setNum (.freq 0) f) :=
    sameRegs_setNum _ _ (sameRegs_refl _ v) (by decide)
  have hb : SameRegsBut (cmdWrites (.vgBank 0)) v v3 :=
    sameRegs_trans (sameRegs_trans (sameRegs_trans start (sameRegs_mono a1 (by decide)))
      (sameRegs_mono b1 (by decide))) (sameRegs_mono c1 (by decide))
  exact ⟨sameRegs_setNum _ _ (sameRegs_setNum _ _ hb (by decide)) (by decide), by simp [c2, b2, a2]⟩

theorem trioTick_frame {N : Numerics NumWord} {c : Config NumWord} {m0 m1 m2 : CutMode} {v w : Voice NumWord}
    (h : trioTick N c m0 m1 m2 v = .ok w) : SameRegsBut (cmdWrites (.vgTrio 0)) v w ∧ w.wt = v.wt := by
  obtain ⟨af, v0, v1, v2, x, -, h0, h1, h2, -, rfl⟩ := trioTick_ok.mp h
  obtain ⟨a1, a2⟩ := chainTick_frame h0
  obtain ⟨b1, b2⟩ := chainTick_frame h1
  obtain ⟨c1, c2⟩ := chainTick_frame h2
  have k0 : chainRegs 0 ⊆ (cmdWrites (.vgTrio 0)) := by decide
  have k1 : chainRegs 1 ⊆ (cmdWrites (.vgTrio 0)) := by decide
  have k2 : chainRegs 2 ⊆ (cmdWrites (.vgTrio 0)) := by decide
  exact ⟨sameRegs_setNum _ _ (sameRegs_trans (sameRegs_trans (sameRegs_mono a1 k0) (sameRegs_mono b1 k1))
    (sameRegs_mono c1 k2)) (by decide), by simp [c2, b2, a2]⟩

end Sys2Proof.Machine
end

