-- ==== Sys2Proof/Laws/Memory.lean ====
section
/-! SUPPORT. The wavetable memory: a read after a write, and the canonical form kept. -/

namespace Sys2Proof.Machine

variable {ν : Type}

@[simp] theorem Memory.read_nil (i : Nat) : Memory.read ([] : Memory ν) i = none := rfl

/-- A write changes the cell written and no other. -/
theorem Memory.read_write (m : Memory ν) (i j : Nat) (y : ν) :
    Memory.read (Memory.write m i y) j = if j = i then some y else Memory.read m j := by
  induction m with
  | nil => by_cases h : i = j <;> simp [Memory.write, Memory.read, h, eq_comm]
  | cons p m ih =>
    obtain ⟨a, x⟩ := p
    simp only [Memory.write]
    split
    · by_cases h : i = j <;> simp [Memory.read, h, eq_comm]
    · split
      · rename_i hia
        subst hia
        by_cases h : i = j <;> simp [Memory.read, h, eq_comm]
      · rename_i hne
        by_cases h : a = j
        · subst h
          have : ¬ a = i := fun e => hne e.symm
          simp [Memory.read, this]
        · simp [Memory.read, h, ih]

theorem Memory.mem_write {m : Memory ν} {i : Nat} {y : ν} {p : Nat × ν} (h : p ∈ Memory.write m i y) :
    p = (i, y) ∨ p ∈ m := by
  induction m with
  | nil => simpa [Memory.write] using h
  | cons q m ih =>
    obtain ⟨a, x⟩ := q
    simp only [Memory.write] at h
    split at h
    · simpa using h
    · split at h
      · rcases List.mem_cons.mp h with h | h
        · exact .inl h
        · exact .inr (List.mem_cons_of_mem _ h)
      · rcases List.mem_cons.mp h with h | h
        · exact .inr (h ▸ List.mem_cons_self)
        · exact (ih h).imp_right (List.mem_cons_of_mem _)

/-- A write keeps the canonical form. -/
theorem Memory.wf_write {m : Memory ν} (hm : Memory.wf m) (i : Nat) (y : ν) : Memory.wf (Memory.write m i y) := by
  induction m with
  | nil => simp [Memory.wf, Memory.write]
  | cons p m ih =>
    obtain ⟨a, x⟩ := p
    have h1 := (List.pairwise_cons.mp hm).1
    have h2 : Memory.wf m := (List.pairwise_cons.mp hm).2
    simp only [Memory.write]
    split
    · rename_i hlt
      refine List.pairwise_cons.mpr ⟨fun p hp => ?_, hm⟩
      rcases List.mem_cons.mp hp with rfl | hp
      · exact hlt
      · exact Nat.lt_trans hlt (h1 _ hp)
    · rename_i hlt
      split
      · rename_i hia
        subst hia
        exact List.pairwise_cons.mpr ⟨h1, h2⟩
      · rename_i hne
        refine List.pairwise_cons.mpr ⟨fun p hp => ?_, ih h2⟩
        rcases Memory.mem_write hp with rfl | hp
        · simp only; omega
        · exact h1 _ hp

/-- The empty memory, the one after reset, is in canonical form. -/
theorem Memory.wf_nil : Memory.wf ([] : Memory ν) := List.Pairwise.nil

theorem State.reset_wf : Memory.wf State.reset.voice.wt := Memory.wf_nil

end Sys2Proof.Machine
end

