-- ==== Sys2Proof/Laws/Params.lean ====
section
/-! SUPPORT. What is known of the configuration at any OPEN parameters: the free choice is exactly R7's
constraint on numbers that are no NaN; the sine at most 1 in size, the power never a NaN; and what filling the
table can do. -/

namespace Sys2Proof.Machine

open F32

/-! The shapes of free numbers -/

theorem isFinite_pack {s : Bool} {m : Nat} (h : m < infMag) : isFinite (pack s m) = true := by
  simp [isFinite, mag_pack s (h.trans infMag_lt), h]

theorem positiveNum_positive (i : Fin 0x7F800000) : isPositive (positiveNum i) := by
  have h : (i : Nat) + 1 < 2 ^ 31 := by have := i.isLt; omega
  refine ⟨isNaN_pack _ (by have := i.isLt; unfold infMag; omega), ?_⟩
  simp only [key, positiveNum, sign_pack false h, mag_pack false h]
  simp only [Bool.false_eq_true, if_false]
  omega

/-! The parameters -/

/-- A free choice meets R7's constraints. -/
theorem paramsOf_allowed (f : FreeParams) : (paramsOf f).allowed := by
  refine ⟨positiveNum_positive _, positiveNum_positive _, fun m i => ?_, ?_⟩
  · simp only [paramsOf, Vector.get_eq_getElem, Vector.getElem_map]
    exact positiveNum_positive _
  · change isNaN (nonNegNum f.fltK) = false ∧ 0 ≤ key (nonNegNum f.fltK)
    cases f.fltK with
    | none => decide
    | some m =>
      have hm := m.isLt
      exact ⟨isNaN_pack _ (by unfold infMag; omega),
        by simp [nonNegNum, key, sign_pack false (show (m : Nat) < 2 ^ 31 by omega)]⟩

variable {p : OpenParams}

/-! The sine and the power -/

/-- `SIN2PI` is at most 1 in size at a finite argument. -/
theorem sin2pi_mag {x : NumWord} (hx : isFinite x = true) : mag ((configOf p).sin2pi x) ≤ 0x3F800000 := by
  have hp : ∀ (s : Bool) (m : Fin 0x3F800001), mag (pack s m) ≤ 0x3F800000 := by
    intro s m
    have := m.isLt
    rw [mag_pack s (by omega)]; omega
  simp only [configOf, sinOf, hx, if_true]
  split
  · decide
  · split
    · decide
    · split
      · decide
      · split
        · exact hp _ 0
        · exact hp _ _

theorem sin2pi_finite {x : NumWord} (hx : isFinite x = true) : isFinite ((configOf p).sin2pi x) = true := by
  exact decide_eq_true ((sin2pi_mag hx).trans_lt (by decide))

theorem expMag_le (f : MonoFn) (u k : Int) : expMag f u k ≤ infMag := by
  have h1 : ∀ n, expLow n ≤ infMag := by
    intro n; unfold expLow infMag; split
    · omega
    · split
      · decide
      · omega
  have h2 : ∀ n, expHigh n ≤ infMag := by
    intro n; unfold expHigh; split
    · decide
    · split
      · exact le_rfl
      · unfold infMag; omega
  unfold expMag
  split
  · exact h1 _
  · exact max_le (h1 _) ((min_le_left _ _).trans (h2 _))

theorem exp2_not_nan (x : NumWord) : isNaN ((configOf p).exp2 x) = false := by
  simp only [configOf, expOf]
  split
  · exact isNaN_pack _ (expMag_le _ _ _)
  · split
    · exact isNaN_pack _ ((min_le_left _ _).trans (by decide))
    · exact isNaN_pack _ (max_le (by decide) (min_le_left _ _))

/-! The table -/

theorem tableSize_pos {ν : Type} (c : Config ν) : 0 < tableSize c := by unfold tableSize; omega

/-- An integer converts to a finite number below the midpoint of the largest one and `2^128`. -/
theorem int_finite {n : Nat} (h : n ≤ 2 ^ 128 - 2 ^ 103 - 1) : isFinite (int f32 n) = true := by
  have h0 : 0 < 2 ^ 149 * 1 := by decide
  have : roundMag (n * 2 ^ 149) 1 ≤ roundMag ((2 ^ 128 - 2 ^ 103 - 1) * 2 ^ 149) 1 :=
    roundMag_mono (by decide) (by decide) (by rw [Nat.mul_one, Nat.mul_one]; exact Nat.mul_le_mul_right _ h)
  have hm : roundMag ((2 ^ 128 - 2 ^ 103 - 1) * 2 ^ 149) 1 < infMag := by decide +kernel
  have e : mag (int f32 n) = roundMag (n * 2 ^ 149) 1 := mag_round _ _ _
  exact decide_eq_true (e ▸ this.trans_lt hm)

theorem int_isZero {n : Nat} (h : 0 < n) : isZero (int f32 n) = false := by
  have : 1 ≤ roundMag (n * 2 ^ 149) 1 :=
    le_roundMag_of (by decide) (by decide)
      (by rw [scale_of_lt (by decide)]; have := Nat.mul_le_mul_right (2 ^ 149) h; omega)
  have e : mag (int f32 n) = roundMag (n * 2 ^ 149) 1 := mag_round _ _ _
  simp only [isZero, e, decide_eq_false_iff_not]
  omega

theorem mul_zero_left {b : NumWord} (hb : isFinite b = true) : ∃ z, mul 0 b = .ok z ∧ isZero z = true := by
  refine ⟨_, mul_finite (by decide) hb, ?_⟩
  have : scale (mag (0 : NumWord)) * scale (mag b) = 0 := by
    rw [show scale (mag (0 : NumWord)) = 0 from by decide, Nat.zero_mul]
  rw [isZero, mag_round, this, roundMag_zero _ (by decide)]
  rfl

/-- The quotient of two integers `i < n` is a finite number where `i` converts to one. -/
theorem quotient_ok {i n : Nat} (hi : i < n) (h1 : isFinite (int f32 i) = true) :
    ∃ q, F32.div (int f32 i) (int f32 n) = .ok q ∧ isFinite q = true := by
  have hz := int_isZero (n := n) (by omega)
  have hle : mag (int f32 i) ≤ mag (int f32 n) := by
    change mag (round _ _ _) ≤ mag (round _ _ _)
    rw [mag_round, mag_round]
    exact roundMag_mono (by decide) (by decide)
      (by rw [Nat.mul_one, Nat.mul_one]; exact Nat.mul_le_mul_right _ hi.le)
  have hm : mag (int f32 n) ≤ infMag := by
    change mag (round _ _ _) ≤ infMag
    rw [mag_round]; exact min_le_right _ _
  by_cases h2 : isFinite (int f32 n) = true
  · refine ⟨_, div_finite h1 h2 hz, decide_eq_true ?_⟩
    have hp : 0 < scale (mag (int f32 n)) := by
      apply scale_pos
      simp only [isZero, decide_eq_false_iff_not] at hz
      omega
    have one : scale 0x3F800000 = 2 ^ 149 := by decide
    have : roundMag (scale (mag (int f32 i)) * 2 ^ 149) (scale (mag (int f32 n))) ≤ 0x3F800000 :=
      roundMag_le_of (by decide) hp
        (by rw [one, Nat.mul_comm]; exact Nat.mul_le_mul_left _ (scale_strictMono.monotone hle))
    rw [mag_round]
    exact this.trans_lt (by decide)
  · have hinf : mag (int f32 n) = infMag := by
      simp only [isFinite, decide_eq_true_eq] at h2
      omega
    refine ⟨pack (sign (int f32 i) != sign (int f32 n)) 0, ?_, isFinite_pack (by decide)⟩
    have hn : isNaN (int f32 n) = false := by rw [isNaN, hinf]; decide
    have hni : isInf (int f32 i) = false := by
      simp only [isFinite, decide_eq_true_eq] at h1
      simp only [isInf, decide_eq_false_iff_not]
      omega
    rw [F32.div, isNaN_of_isFinite h1, hn, hni, show isInf (int f32 n) = true from by rw [isInf, hinf]; decide]
    rfl

/-- Every sample of the table is a finite number, at any parameters with a finite amplitude, where its index
converts to a finite number. -/
theorem wtSample_ok (hamp : isFinite p.wtAmp = true) {i : Nat} (hi : i < tableSize (configOf p))
    (h1 : isFinite (int f32 i) = true) : ∃ x, wtSample f32 (configOf p) i = .ok x ∧ isFinite x = true := by
  obtain ⟨q, hdiv, hq⟩ := quotient_ok hi h1
  have hsin := sin2pi_finite (p := p) hq
  have hmul := mul_finite hamp hsin
  have ha : mag p.wtAmp < infMag := by simpa [isFinite] using hamp
  refine ⟨round (sign p.wtAmp != sign ((configOf p).sin2pi q)) (scale (mag p.wtAmp) * scale (mag ((configOf p).sin2pi q)))
    (2 ^ 149), ?_, ?_⟩
  · have happ : F32.app (configOf p).sin2pi q = .ok ((configOf p).sin2pi q) := by
      simp [F32.app, isNaN_of_isFinite hq, isNaN_of_isFinite hsin]
    unfold wtSample
    change (F32.div _ _ >>= fun x => F32.app (configOf p).sin2pi x >>= fun y => F32.mul _ y) = _
    rw [hdiv, calc_ok_bind, happ, calc_ok_bind]
    exact hmul
  · have h : roundMag (scale (mag p.wtAmp) * scale (mag ((configOf p).sin2pi q))) (2 ^ 149) ≤ mag p.wtAmp :=
      roundMag_le_of ha (by decide)
        (Nat.mul_le_mul_left _ ((scale_strictMono.monotone (sin2pi_mag hq)).trans (by decide)))
    exact decide_eq_true (by rw [mag_round]; exact h.trans_lt ha)

/-- The integer of a smaller index converts to a finite number where the larger one's does. -/
theorem int_finite_mono {m n : Nat} (h : m ≤ n) (hn : isFinite (int f32 n) = true) : isFinite (int f32 m) = true := by
  simp only [isFinite, decide_eq_true_eq] at hn ⊢
  refine lt_of_le_of_lt ?_ hn
  change mag (round _ _ _) ≤ mag (round _ _ _)
  rw [mag_round, mag_round]
  exact roundMag_mono (by decide) (by decide) (by rw [Nat.mul_one, Nat.mul_one]; exact Nat.mul_le_mul_right _ h)

/-- A sample that is a number is a finite one, its amplitude and its index are finite. -/
theorem wtSample_finite {i : Nat} {x : NumWord} (hamp : isFinite p.wtAmp = true) (hi : i < tableSize (configOf p))
    (h : wtSample f32 (configOf p) i = .ok x) : isFinite (int f32 i) = true ∧ isFinite x = true := by
  by_cases h1 : isFinite (int f32 i) = true
  · obtain ⟨y, hy, hf⟩ := wtSample_ok hamp hi h1
    rw [h] at hy
    cases hy
    exact ⟨h1, hf⟩
  · exfalso
    have big : ∀ n, ¬ isFinite (int f32 n) = true → mag (int f32 n) = infMag := by
      intro n hn
      have : mag (int f32 n) ≤ infMag := by
        change mag (round _ _ _) ≤ _
        rw [mag_round]; exact min_le_right _ _
      simp only [isFinite, decide_eq_true_eq] at hn
      omega
    have e : F32.div (int f32 i) (int f32 (tableSize (configOf p))) = .error .nan := by
      rw [F32.div]
      simp [isNaN, isInf, big i h1, big _ (fun hc => h1 (int_finite_mono hi.le hc))]
    unfold wtSample at h
    change (F32.div _ _ >>= _) = _ at h
    rw [e] at h
    cases h

/-- The first quotient is 0. -/
theorem zero_quotient {n : Nat} (hn : 0 < n) : F32.div (int f32 0) (int f32 n) = .ok 0 := by
  have h0 : int f32 0 = 0 := by decide +kernel
  have hs : sign (int f32 n) = false := sign_round _ _ _
  by_cases h2 : isFinite (int f32 n) = true
  · rw [h0, div_finite (by decide) h2 (int_isZero hn), hs]
    have hp : 0 < scale (mag (int f32 n)) := by
      apply scale_pos
      have := int_isZero hn
      simp only [isZero, decide_eq_false_iff_not] at this
      omega
    rw [F32.round, show scale (mag (0 : NumWord)) = 0 from by decide, Nat.zero_mul, roundMag_zero _ hp]
    decide +kernel
  · have hm : mag (int f32 n) = infMag := by
      have : mag (int f32 n) ≤ infMag := by
        change mag (round _ _ _) ≤ _
        rw [mag_round]; exact min_le_right _ _
      simp only [isFinite, decide_eq_true_eq] at h2
      omega
    rw [h0, F32.div, show isNaN (int f32 n) = false from by rw [isNaN, hm]; decide,
      show isInf (int f32 n) = true from by rw [isInf, hm]; decide, hs]
    rfl

/-- The first sample is a number only where the amplitude is finite: its sine is 0. -/
theorem wtSample_zero {x : NumWord} (h : wtSample f32 (configOf p) 0 = .ok x) : isFinite p.wtAmp = true := by
  have hsin : F32.app (configOf p).sin2pi 0 = .ok 0 :=
    show F32.app (sinOf Config.freeSin Config.freeSinInf) 0 = .ok 0 from by decide +kernel
  unfold wtSample at h
  change (F32.div _ _ >>= fun x => F32.app (configOf p).sin2pi x >>= fun y => F32.mul p.wtAmp y) = _ at h
  rw [zero_quotient (tableSize_pos _), calc_ok_bind, hsin, calc_ok_bind] at h
  unfold F32.mul at h
  by_contra hc
  have : isNaN p.wtAmp = true ∨ isInf p.wtAmp = true := by
    simp only [isFinite, isNaN, isInf, decide_eq_true_eq] at hc ⊢
    omega
  have hz : isZero (0 : NumWord) = true := by decide
  rcases this with hh | hh <;> rw [hh, hz] at h <;> simp at h

/-- Filling a table of which every sample is a number gives a memory, from any memory. -/
theorem wtFill_ok_of {c : Config NumWord} (h : ∀ i < tableSize c, ∃ x, wtSample f32 c i = .ok x) (m : Memory NumWord) :
    ∃ m', wtFill f32 c m = .ok m' := by
  have : ∀ (l : List Nat) (m : Memory NumWord), (∀ i ∈ l, i < tableSize c) →
      ∃ m', l.foldlM (wtFillCell f32 c) m = .ok m' := by
    intro l
    induction l with
    | nil => intro m _; exact ⟨m, rfl⟩
    | cons a l ih =>
      intro m hl
      obtain ⟨x, hx⟩ := h a (hl a List.mem_cons_self)
      obtain ⟨m', hm'⟩ := ih (Memory.write m a x) (fun i hi => hl i (List.mem_cons_of_mem _ hi))
      refine ⟨m', ?_⟩
      rw [List.foldlM_cons, wtFillCell, hx]
      exact hm'
  exact this _ m (fun i hi => List.mem_range.mp hi)

/-- Filling the table takes a number from every sample. -/
theorem wtFill_samples {ν : Type} {N : Numerics ν} {c : Config ν} {m m' : Memory ν} (h : wtFill N c m = .ok m') :
    ∀ i < tableSize c, ∃ x, wtSample N c i = .ok x := by
  have : ∀ (l : List Nat) (m : Memory ν), l.foldlM (wtFillCell N c) m = .ok m' →
      ∀ i ∈ l, ∃ x, wtSample N c i = .ok x := by
    intro l
    induction l with
    | nil => intro _ _ i hi; cases hi
    | cons a l ih =>
      intro m h i hi
      rw [List.foldlM_cons, calc_bind_ok] at h
      obtain ⟨m1, h1, h2⟩ := h
      rw [wtFillCell, calc_bind_ok] at h1
      obtain ⟨x, hx, -⟩ := h1
      rcases List.mem_cons.mp hi with rfl | hi
      · exact ⟨x, hx⟩
      · exact ih m1 h2 i hi
  exact fun i hi => this _ m h i (List.mem_range.mpr hi)

/-- A table that is filled has a finite amplitude, and a finite sample in every cell. -/
theorem wtFill_finite {m m' : Memory NumWord} (h : wtFill f32 (configOf p) m = .ok m') :
    isFinite p.wtAmp = true ∧
      ∀ i < tableSize (configOf p), ∃ x, wtSample f32 (configOf p) i = .ok x ∧ isFinite x = true := by
  have hs := wtFill_samples h
  obtain ⟨x0, h0⟩ := hs 0 (tableSize_pos _)
  have ha := wtSample_zero h0
  exact ⟨ha, fun i hi => (hs i hi).imp fun _ hx => ⟨hx, (wtSample_finite ha hi hx).2⟩⟩

/-- Filling the table keeps the canonical form. -/
theorem wtFill_wf {ν : Type} {N : Numerics ν} {c : Config ν} {m m' : Memory ν} (hm : Memory.wf m)
    (h : wtFill N c m = .ok m') : Memory.wf m' := by
  refine foldlM_keeps (P := Memory.wf) (fun b a b' hb hab => ?_) _ hm h
  rw [wtFillCell, calc_bind_ok] at hab
  obtain ⟨x, -, hx⟩ := hab
  rw [calc_pure_ok] at hx
  exact hx ▸ Memory.wf_write hb a x

end Sys2Proof.Machine
end

