-- ==== Sys2Proof/Laws/PerInstr.lean ====
section
/-! SUPPORT. Statements made per instruction, with one lemma per constructor of `Instr`. -/

namespace Sys2Proof.Laws.EncodeFields

/-- The fields of a command's word (30_encoding.md R80, R82): its opcode, a zero `z`, and its index. -/
def Statement (i : Instr) : Prop :=
  opField (encode i) = i.opcode ∧ zField (encode i) = 0 ∧ idxField (encode i) = i.idx

theorem nop (idx : Idx) : Statement (.nop idx) := by
  unfold Statement; revert idx; decide
theorem wtBuild (idx : Idx) : Statement (.wtBuild idx) := by
  unfold Statement; revert idx; decide
theorem wtLookup (idx : Idx) : Statement (.wtLookup idx) := by
  unfold Statement; revert idx; decide
theorem phAdv (idx : Idx) : Statement (.phAdv idx) := by
  unfold Statement; revert idx; decide
theorem phRst (idx : Idx) : Statement (.phRst idx) := by
  unfold Statement; revert idx; decide
theorem frqCv (idx : Idx) : Statement (.frqCv idx) := by
  unfold Statement; revert idx; decide
theorem wgSint (idx : Idx) : Statement (.wgSint idx) := by
  unfold Statement; revert idx; decide
theorem wgSind (idx : Idx) : Statement (.wgSind idx) := by
  unfold Statement; revert idx; decide
theorem wgTri (idx : Idx) : Statement (.wgTri idx) := by
  unfold Statement; revert idx; decide
theorem wgSaw (idx : Idx) : Statement (.wgSaw idx) := by
  unfold Statement; revert idx; decide
theorem wgSqr (idx : Idx) : Statement (.wgSqr idx) := by
  unfold Statement; revert idx; decide
theorem pwMod (idx : Idx) : Statement (.pwMod idx) := by
  unfold Statement; revert idx; decide
theorem hbTick (idx : Idx) : Statement (.hbTick idx) := by
  unfold Statement; revert idx; decide
theorem envStep (idx : Idx) : Statement (.envStep idx) := by
  unfold Statement; revert idx; decide
theorem envRst (idx : Idx) : Statement (.envRst idx) := by
  unfold Statement; revert idx; decide
theorem fltProc (idx : Idx) : Statement (.fltProc idx) := by
  unfold Statement; revert idx; decide
theorem cutMod (idx : Idx) : Statement (.cutMod idx) := by
  unfold Statement; revert idx; decide
theorem vgBank (idx : Idx) : Statement (.vgBank idx) := by
  unfold Statement; revert idx; decide
theorem vgTrio (idx : Idx) : Statement (.vgTrio idx) := by
  unfold Statement; revert idx; decide

end Sys2Proof.Laws.EncodeFields
end

