-- ==== Sys2Proof/Tests/Slice0.lean ====
section
/-! SUPPORT. Tests of the model: ill-formed commands, words written out from the opcode map, one step of
each command against the spec's worked examples and test vectors, and a witness for the hypotheses of each
statement of Certificates/Slice0/Obligations.lean. -/

namespace Sys2Proof.Tests

set_option Elab.async false

open Sys2Proof.Machine

/-! ## Helpers -/

/-- The OPEN parameters of the test configuration TC of 95_test_vectors.md, read under F32. Only tests use them. -/
def tp : OpenParams where
  wtSize := 4
  wtAmp := F32.lit 1 1
  baseFreq := F32.lit 16 1
  epsDiv := F32.lit 1 1048576
  ftab := #v[Vector.ofFn (fun i => F32.lit (100 * (i + 1)) 1), Vector.ofFn (fun i => F32.lit (50 * 2 ^ (i : Nat)) 1),
    Vector.ofFn (fun i => F32.lit (10 * (i + 1) ^ 2) 1)]
  fltK := F32.lit 1 128
  cutCvGain := F32.lit 100 1

/-- The test configuration TC. -/
def tc : Config NumWord :=
  { configOf tp with sin2pi := sinOf (fun _ => (false, 0)) (fun x => x), exp2 := expOf .ident, floorInf := fun _ => 0 }

/-- The block after reset. -/
def v0 : Voice NumWord := Voice.reset 0

/-- The block with some `Num` registers set. -/
def putNums (v : Voice NumWord) (l : List (NumReg × NumWord)) : Voice NumWord :=
  l.foldl (fun v p => v.setNum p.1 p.2) v

/-- The block after reset with some `Num` registers set. -/
def nums (l : List (NumReg × NumWord)) : Voice NumWord := putNums v0 l

/-- A register after a command under TC. -/
def got (i : Instr) (v : Voice NumWord) (r : Reg) : Option Word :=
  (runCommand f32 tc i v).toOption.map (fun w => w.word r)

/-- The wavetable after a command under TC. -/
def table (i : Instr) (v : Voice NumWord) : Option (Memory NumWord) :=
  (runCommand f32 tc i v).toOption.map (fun w => w.wt)

/-- The block with the table of TC built (95_test_vectors.md V-WT-1). -/
def built (v : Voice NumWord) : Voice NumWord :=
  (v.setWt [(0, 0), (1, 0x3F800000), (2, 0), (3, 0xBF800000)]).setStatus 1

/-- The state after an outcome, if it is a next state. -/
def next? (o : Host.Outcome State Fault Refusal) : Option State :=
  match o with
  | .next t => some t
  | .fault _ => none
  | .refused _ => none

/-- A state with a block, the OPEN parameters of TC and no pending action. -/
def st (v : Voice NumWord) : State := { State.reset with voice := v, params := tp }

/-- The state after one host action from reset. -/
def act (a : HostAction) : Option State := next? (step { State.reset with pending := [a] })

/-- A register after one host action from reset. -/
def regAfter (a : HostAction) (r : Reg) : Option Word := (act a).map (fun t => t.voice.word r)

theorem exists_next {o : Host.Outcome State Fault Refusal} (h : (next? o).isSome = true) : ∃ t, o = .next t := by
  cases o with
  | next t => exact ⟨t, rfl⟩
  | fault f => cases h
  | refused f => cases h

/-! ## Well-formedness (30_encoding.md R83): an ill-formed term for each limit -/

theorem test_wellFormed_limit1 : (Instr.nop 1).wellFormed = false ∧ (Instr.wtBuild 1).wellFormed = false ∧
    (Instr.hbTick 15).wellFormed = false ∧ (Instr.vgBank 1).wellFormed = false ∧
    (Instr.vgTrio 1).wellFormed = false := by decide

theorem test_wellFormed_limit11 : (Instr.wtLookup 11).wellFormed = false ∧ (Instr.phAdv 11).wellFormed = false ∧
    (Instr.phRst 15).wellFormed = false ∧ (Instr.wgSint 11).wellFormed = false ∧
    (Instr.wgSind 11).wellFormed = false ∧ (Instr.wgTri 11).wellFormed = false ∧
    (Instr.wgSaw 11).wellFormed = false ∧ (Instr.wgSqr 11).wellFormed = false := by decide

theorem test_wellFormed_limit3 : (Instr.frqCv 3).wellFormed = false ∧ (Instr.pwMod 3).wellFormed = false ∧
    (Instr.envStep 3).wellFormed = false ∧ (Instr.envRst 3).wellFormed = false ∧
    (Instr.fltProc 3).wellFormed = false ∧ (Instr.cutMod 15).wellFormed = false := by decide

theorem test_wellFormed_boundary : (Instr.nop 0).wellFormed = true ∧ (Instr.phAdv 10).wellFormed = true ∧
    (Instr.cutMod 2).wellFormed = true := by decide

/-! ## Decoding: words written out from 30_encoding.md R80 and R82, one for every command -/

theorem test_decode_system_table : decode 0x0000 = .ok (.nop 0) ∧ decode 0x1000 = .ok (.wtBuild 0) ∧
    decode 0x110A = .ok (.wtLookup 10) := by decide

theorem test_decode_phase : decode 0x2005 = .ok (.phAdv 5) ∧ decode 0x2109 = .ok (.phRst 9) ∧
    decode 0x2202 = .ok (.frqCv 2) := by decide

theorem test_decode_waveform : decode 0x3003 = .ok (.wgSint 3) ∧ decode 0x3108 = .ok (.wgSind 8) ∧
    decode 0x3202 = .ok (.wgTri 2) ∧ decode 0x3302 = .ok (.wgSaw 2) ∧ decode 0x340A = .ok (.wgSqr 10) ∧
    decode 0x3502 = .ok (.pwMod 2) := by decide

theorem test_decode_bank_envelope : decode 0x4000 = .ok (.hbTick 0) ∧ decode 0x5001 = .ok (.envStep 1) ∧
    decode 0x5102 = .ok (.envRst 2) := by decide

theorem test_decode_filter_graph : decode 0x6002 = .ok (.fltProc 2) ∧ decode 0x6101 = .ok (.cutMod 1) ∧
    decode 0x7000 = .ok (.vgBank 0) ∧ decode 0x7100 = .ok (.vgTrio 0) := by decide

/-- V-DEC-3, 4, 15, 20, 25, 26, 27, 28, 29 -/
theorem test_decode_illegal : [0x0010#16, 0x0100#16, 0x3600#16, 0x5200#16, 0x7200#16, 0x8000#16, 0xFFFF#16,
    0x20A0#16, 0xFF0F#16].map decode = List.replicate 9 (.error .illegal) := by decide

/-- V-DEC-8, 10, 12, 14: the index is read as it stands. -/
theorem test_decode_bad_index : decode 0x110B = .ok (.wtLookup 11) ∧ decode 0x200F = .ok (.phAdv 15) ∧
    decode 0x2203 = .ok (.frqCv 3) ∧ decode 0x3503 = .ok (.pwMod 3) := by decide

theorem test_encode : encode (.phAdv 10) = 0x200A ∧ encode (.vgTrio 0) = 0x7100 ∧
    decodeTableWord 16 0x6102 = some (.cutMod 2) := by decide

/-- V-DEC-2, 3: `F_IDX` and `F_ILL`, and what `withFetchWord` runs. -/
theorem test_fault_bits : regAfter (.exec 0x0001) .status = some 0x0200 ∧
    regAfter (.exec 0x0010) .status = some 0x0100 ∧
    (next? (step (State.reset.withFetchWord 16 0x200F))).map (fun t => t.voice.status) = some 0x0200 := by
  decide +kernel

/-! ## Host access: V-REG-1 to V-REG-9 -/

theorem test_writeReg_reserved_bits : regAfter (.writeReg 0x02 0xFFFF) .cfg0 = some 0xFF1F ∧
    regAfter (.writeReg 0x09 0xFFFFFFFF) (.cfgc 1) = some 0x3F := by decide +kernel

theorem test_writeReg_faults : regAfter (.writeReg 0x80 0x3F000000) .status = some 0x2000 ∧
    regAfter (.writeReg 0x80 0x3F000000) (.num (.ph 0)) = some 0 ∧
    regAfter (.writeReg 0x3B 0x3F800000) .status = some 0x2000 ∧
    regAfter (.writeReg 0xCB 0) .status = some 0x2000 := by decide +kernel

theorem test_readReg : (act (.readReg 0x06)).bind (fun t => t.reply) = some 0 ∧
    regAfter (.readReg 0x8B) .status = some 0x2000 ∧ regAfter (.readReg 0x8A) .status = some 0 ∧
    (act (.readReg 0xCB)).bind (fun t => t.reply) = some 0 := by decide +kernel

/-! ## One step of each command. Expected values from the worked examples of files 40 to 47 and from
95_test_vectors.md; words of dyadic numbers by hand. -/

/-- 47_system.md R190 -/
theorem test_nop : act (.exec 0x0000) = some State.reset := rfl

/-- V-WT-1 -/
theorem test_wtBuild : table (.wtBuild 0) v0 = some [(0, 0), (1, 0x3F800000), (2, 0), (3, 0xBF800000)] ∧
    got (.wtBuild 0) v0 .status = some 0x0001 := by decide +kernel

/-- V-WT-7 -/
theorem test_wtBuild_twice : got (.wtBuild 0) (built v0) .status = some 0x1001 := by decide +kernel

/-- V-WT-8, V-WT-12 (0.3 is the word of V-F32-1) -/
theorem test_wtLookup : got (.wtLookup 0) v0 .status = some 0x0800 ∧
    got (.wtLookup 3) (built (nums [(.ph 3, 0x3E99999A)])) (.num .r0) = some 0x3F800000 := by decide +kernel

/-- V-WT-18: the floored modulo at -1/4 -/
theorem test_wtLookup_negative :
    got (.wtLookup 3) (built (nums [(.ph 3, 0xBE800000)])) (.num .r0) = some 0xBF800000 := by decide +kernel

/-- 41_phase.md R111: 0.75 + 3 * 0.125 wraps to 0.125 -/
theorem test_phAdv : got (.phAdv 0) (nums [(.ph 0, 0x3F400000), (.a0, 0x40400000), (.dt, 0x3E000000)]) (.num .r0) =
    some 0x3E000000 := by decide +kernel

/-- V-F32-4: the tenth sum is above 1 and wraps to 2^-23 -/
theorem test_phAdv_f32 :
    got (.phAdv 0) (nums [(.ph 0, 0x3F666668), (.a0, 0x3F800000), (.dt, 0x3DCCCCCD)]) (.num (.ph 0)) =
      some 0x34000000 := by decide +kernel

/-- 41_phase.md R113 -/
theorem test_phRst : got (.phRst 9) (nums [(.ph 9, 0x3F19999A), (.r0, 5)]) (.num (.ph 9)) = some 0 ∧
    got (.phRst 9) (nums [(.ph 9, 0x3F19999A), (.r0, 5)]) (.num .r0) = some 5 := by decide +kernel

/-- P5: 16 * 2^1 = 32 Hz -/
theorem test_frqCv_pitch : got (.frqCv 1) (nums [(.pitch 1, 0x3F800000)]) (.num (.freq 1)) = some 0x42000000 := by
  decide +kernel

/-- 41_phase.md R115: `FABS[k] ≤ 0` gives 10 -/
theorem test_frqCv_clamp : got (.frqCv 2) (v0.setCfgc 2 4) (.num (.freq 2)) = some 0x41200000 := by decide +kernel

/-- 42_waveform.md R126 -/
theorem test_wgSint : got (.wgSint 0) (built (nums [(.ph 0, 0x3F400000)])) (.num .r0) = some 0xBF800000 ∧
    got (.wgSint 0) v0 .status = some 0x0800 := by decide +kernel

/-- 42_waveform.md R127 -/
theorem test_wgSind : got (.wgSind 8) (nums [(.ph 8, 0x3E800000)]) (.num .r0) = some 0x3F800000 := by decide +kernel

/-- 42_waveform.md R128: 0.125 gives -0.5, 0.5 takes the falling branch and gives 1 -/
theorem test_wgTri : got (.wgTri 8) (nums [(.ph 8, 0x3E000000)]) (.num .r0) = some 0xBF000000 ∧
    got (.wgTri 8) (nums [(.ph 8, 0x3F000000)]) (.num .r0) = some 0x3F800000 := by decide +kernel

/-- 42_waveform.md R129 -/
theorem test_wgSaw : got (.wgSaw 9) (nums [(.ph 9, 0x3E000000)]) (.num .r0) = some 0xBF400000 := by decide +kernel

/-- 42_waveform.md R130: strict at the width; a width of 0 behaves as 0.01 -/
theorem test_wgSqr : got (.wgSqr 10) (nums [(.ph 10, 0x3F000000), (.a0, 0x3F000000)]) (.num .r0) = some 0xBF800000 ∧
    got (.wgSqr 10) v0 (.num .r0) = some 0x3F800000 := by decide +kernel

/-- 42_waveform.md R132: 0.75; and the upper bound 0.99 (V-F32-2) -/
theorem test_pwMod :
    got (.pwMod 0) (nums [(.pw 0, 0x3F000000), (.pwmAmt 0, 0x3F000000), (.pwmCv 0, 0x40A00000)]) (.num (.width 0)) =
      some 0x3F400000 ∧
    got (.pwMod 0) (nums [(.pw 0, 0x3F000000), (.pwmAmt 0, 0x3F000000), (.pwmCv 0, 0x41200000)]) (.num (.width 0)) =
      some 0x3F7D70A4 := by decide +kernel

/-- The bank of the worked example of 43_harmonic_bank.md R139. -/
def bankExample : Voice NumWord :=
  (nums [(.freq 0, 0x41800000), (.dt, 0x3C000000), (.level 1, 0x3F800000)]).setCfg0 4

/-- 43_harmonic_bank.md R139: 0.625, and slot 7 wraps to 0 -/
theorem test_hbTick : got (.hbTick 0) bankExample (.num .hbOut) = some 0x3F200000 ∧
    got (.hbTick 0) bankExample (.num (.ph 6)) = some 0x3F600000 ∧
    got (.hbTick 0) bankExample (.num (.ph 7)) = some 0 := by decide +kernel

/-- 43_harmonic_bank.md R139: the table sine before the build -/
theorem test_hbTick_unbuilt : got (.hbTick 0) v0 .status = some 0x0800 := by decide +kernel

/-- The unit of the worked example of 44_envelope.md R154. -/
def envExample : Voice NumWord :=
  nums [(.dt, 0x3E800000), (.att 0, 0x3F000000), (.dec 0, 0x3F000000), (.sus 0, 0x3F000000), (.rel 0, 0x3F000000),
    (.gateV 0, 0x40A00000)]

/-- 44_envelope.md R154, step 1: Attack, output 1/2 -/
theorem test_envStep_attack : got (.envStep 0) envExample (.num .r0) = some 0x3F000000 ∧
    got (.envStep 0) envExample (.envSt 0) = some 1 := by decide +kernel

/-- P2, first Release step: the output 1/2 is recorded and falls to 1/4 -/
theorem test_envStep_release :
    got (.envStep 0) (((putNums envExample [(.gateV 0, 0), (.envOut 0, 0x3F000000)]).setEnvSt 0 .sustain).setGprev 0 true)
      (.num .r0) = some 0x3E800000 := by decide +kernel

/-- 44_envelope.md R155 -/
theorem test_envRst :
    got (.envRst 1) (((nums [(.envOut 1, 0x3F000000)]).setEnvSt 1 .sustain).setGprev 1 true) (.envGprev 1) = some 0 ∧
    got (.envRst 1) (((nums [(.envOut 1, 0x3F000000)]).setEnvSt 1 .sustain).setGprev 1 true) (.num (.envOut 1)) = some 0 := by
  decide +kernel

/-- 45_filter.md R168: 1/2, in the swept form -/
theorem test_fltProc :
    got (.fltProc 0) ((nums [(.sr, 0x41800000), (.a1, 0x42000000), (.a0, 0x3F800000)]).setCfgc 0 8) (.num (.fltOut 0)) =
      some 0x3F000000 := by decide +kernel

/-- 45_filter.md R170: 1000 * 2^2 = 4000 (exponential), 1000 + 100 * 2 = 1200 (summed) -/
theorem test_cutMod :
    got (.cutMod 0) ((nums [(.cut 0, 0x447A0000), (.cutCv 0, 0x40000000)]).setCfgc 0 0x20) (.num (.cutoff 0)) =
      some 0x457A0000 ∧
    got (.cutMod 0) ((nums [(.cut 0, 0x447A0000), (.cutCv 0, 0x40000000)]).setCfgc 0 0x10) (.num (.cutoff 0)) =
      some 0x44960000 := by decide +kernel

/-- P6: the reserved `CMOD` -/
theorem test_cutMod_reserved : got (.cutMod 0) (v0.setCfgc 0 0x30) .status = some 0x0400 := by decide +kernel

/-- 46_voice_graph.md R176: 0.15625 -/
theorem test_vgBank :
    got (.vgBank 0) (((nums [(.dt, 0x3C000000), (.sr, 0x41800000), (.level 1, 0x3F800000), (.cut 0, 0x42000000),
      (.gateV 0, 0x40A00000), (.att 0, 0x3C800000)]).setCfg0 4).setCfgc 0 8) (.num .mix) = some 0x3E200000 := by
  decide +kernel

/-- V-VG-6, V-VG-3 -/
theorem test_vgBank_checks : got (.vgBank 0) v0 .status = some 0x0800 ∧
    got (.vgBank 0) ((v0.setCfgc 1 0x30).setCfg0 4) .status = some 0 := by decide +kernel

/-- 46_voice_graph.md R178: `OUT[0] = -5/8` -/
theorem test_vgTrio :
    got (.vgTrio 0) (((nums [(.dt, 0x3C800000), (.sr, 0x41800000), (.fabs 0, 0x41800000), (.cut 0, 0x42000000),
      (.gateV 0, 0x40A00000), (.att 0, 0x3D000000)]).setCfg0 4).setCfgc 0 0x0E) (.num (.out 0)) = some 0xBF200000 := by
  decide +kernel

/-- V-VG-4, V-VG-5 -/
theorem test_vgTrio_checks :
    got (.vgTrio 0) (((v0.setCfgc 0 1).setCfgc 1 2).setCfgc 2 3) .status = some 0 ∧
    got (.vgTrio 0) ((v0.setCfgc 0 1).setCfgc 1 2) .status = some 0x0800 := by decide +kernel

/-- V-F32-1, V-F32-2: the constants and the products by 0.1 -/
theorem test_f32 : F32.lit 1 10 = 0x3DCCCCCD ∧ F32.lit 1 100 = 0x3C23D70A ∧ F32.lit 99 100 = 0x3F7D70A4 ∧
    F32.lit 1 1000 = 0x3A83126F ∧ F32.mul 0x40400000 (F32.lit 1 10) = .ok 0x3E99999A ∧
    F32.mul 0x40E00000 (F32.lit 1 10) = .ok 0x3F333333 := by decide +kernel

/-! ## Witnesses: states and operands that meet the hypotheses of the statements -/

/-- The largest finite number. -/
def fltMax : NumWord := 0x7F7FFFFF

theorem tp_allowed : tp.allowed := by
  unfold OpenParams.allowed isPositive
  exact ⟨by decide +kernel, by decide +kernel, fun m i => by cases m <;> revert i <;> decide +kernel, by decide +kernel⟩

/-! A table of zeros, built, of whatever size. -/

/-- Cells 0 to n - 1, each 0. -/
def zeros (n : Nat) : Memory NumWord := (List.range n).map (fun i => (i, 0))

theorem read_map_zero (l : List Nat) (i : Nat) :
    Memory.read (l.map (fun i => (i, (0 : NumWord)))) i = if i ∈ l then some 0 else none := by
  induction l with
  | nil => rfl
  | cons a l ih =>
    rw [List.map_cons, Memory.read, ih]
    by_cases h : a = i
    · subst h; simp
    · have : ¬ i = a := fun e => h e.symm
      simp [h, this]

/-- The block with a table of `n` zeros built. -/
def zeroBuiltOf (n : Nat) (v : Voice NumWord) : Voice NumWord := (v.setWt (zeros n)).setStatus 1

theorem zeroBuiltOf_sound (c : Config NumWord) (v : Voice NumWord) : TableSound c (zeroBuiltOf (tableSize c) v) := by
  have hr : ∀ i, Memory.read (zeroBuiltOf (tableSize c) v).wt i = if i < tableSize c then some 0 else none := by
    intro i
    have := read_map_zero (List.range (tableSize c)) i
    simpa [zeroBuiltOf, zeros] using this
  refine ⟨?_, fun i => ?_, fun i x h => ?_⟩
  · change List.Pairwise _ _
    simp only [zeroBuiltOf, zeros, Voice.wt_setStatus, Voice.wt_setWt, List.pairwise_map]
    exact List.pairwise_lt_range
  · rw [hr, show (zeroBuiltOf (tableSize c) v).wtb = true from by
      rw [Voice.wtb, zeroBuiltOf, Voice.status_setStatus]; decide]
    by_cases h : i < tableSize c <;> simp [h]
  · rw [hr] at h
    split at h
    · cases h; decide
    · cases h

/-- The block with a table of zeros built, under TC. -/
def zeroBuilt (v : Voice NumWord) : Voice NumWord := zeroBuiltOf 4 v

theorem zeroBuilt_sound (v : Voice NumWord) : TableSound (st (zeroBuilt v)).config (zeroBuilt v) :=
  zeroBuiltOf_sound (configOf tp) v

theorem v0_num (r : NumReg) : v0.num r = 0 := by
  cases r <;> first | rfl | (rename_i k; revert k; decide +kernel)

/-- A sound state: after reset, with `A0 = 1`. -/
def sound : State := st (v0.setNum .a0 0x3F800000)

theorem sound_inv : Inv sound := by
  refine ⟨tp_allowed, ⟨Memory.wf_nil, fun i => rfl, fun i x h => by cases h⟩, ⟨by decide +kernel, by decide +kernel, by decide +kernel⟩,
    ⟨fun r => ?_, fun r _ => ?_⟩⟩
  · change F32.isNaN ((v0.setNum .a0 0x3F800000).num r) = false
    rw [Voice.num_setNum, v0_num]
    split <;> decide
  · change F32.isFinite ((v0.setNum .a0 0x3F800000).num r) = true
    rw [Voice.num_setNum, v0_num]
    split <;> decide

theorem witness_EncodeInvertsDecode : decode 0x110B = .ok (.wtLookup 11) ∧ decode 0x7100 = .ok (.vgTrio 0) := by decide

theorem witness_IllegalWordsRaiseTheirFault : (0x20A0#16).extractLsb' 4 4 ≠ 0 ∧ (0x3600#16).extractLsb' 8 8 = 0x36#8 ∧
    (decode 0x110B = .ok (.wtLookup 11) ∧ (Instr.wtLookup 11).limit ≤ ((0x110B#16).extractLsb' 0 4).toNat) ∧
    decode 0x0000 = .ok (.nop 0) ∧ (Instr.nop 0).wellFormed = true := by decide

theorem witness_StepRunsTheDecodedCommand : ∃ s : State, s.pending = .exec 0x3202 :: [] ∧ decode 0x3202 = .ok (.wgTri 2) :=
  ⟨State.reset.withExec 0x3202, by decide +kernel, by decide⟩

/-- Each limit from both sides, and a command that answers a next state below it. -/
theorem witness_IndexLimits : (1 ≤ (1#4).toNat ∧ 11 ≤ (11#4).toNat ∧ 3 ≤ (3#4).toNat ∧ 11 ≤ (15#4).toNat ∧
    (0#4).toNat < 1 ∧ (10#4).toNat < 11 ∧ (2#4).toNat < 3) ∧ (∃ t, exec (.nop 0) State.reset = .next t) ∧
    (∃ t, exec (.phAdv 10) State.reset = .next t) ∧ ∃ t, exec (.pwMod 2) State.reset = .next t :=
  ⟨by decide, exists_next (by decide +kernel), exists_next (by decide +kernel), exists_next (by decide +kernel)⟩

/-- `A0`, `HCV[7]`, `CFG0`, `CFGC[2]`, a read-only and an unmapped number. -/
theorem witness_WriteRegStoresOrFaults :
    (NumReg.a0.number = (0x04#8).toNat ∧ (0x04#8).toNat ∈ rwNumbers ∧ F32.isFinite 0xBF800000 = true) ∧
    ((NumReg.hcv 7).number = (0x4F#8).toNat ∧ (0x4F#8).toNat ∈ rwNumbers) ∧ (0x02#8).toNat = 0x02 ∧
    (0x0A#8).toNat = 0x08 + (2 : Fin 3) ∧ (0x80#8).toNat ∉ rwNumbers ∧ (0x0B#8).toNat ∉ rwNumbers := by decide

theorem witness_WriteRegStoresOrFaults_pending : ({ State.reset with pending := [.writeReg 0x04 0xBF800000] } : State).pending =
    .writeReg 0x04 0xBF800000 :: [] := rfl

theorem witness_ReadRegReturnsTheRegister : Reg.status.number = (0xCB#8).toNat ∧ (Reg.num .dt).number = (0x00#8).toNat ∧
    ((0x06#8).toNat ∉ rwNumbers ∧ (0x06#8).toNat ∉ roNumbers) ∧ (0xFF#8).toNat ∉ rwNumbers ∧ (0xFF#8).toNat ∉ roNumbers := by
  decide

theorem witness_ReadRegReturnsTheRegister_pending : ({ State.reset with pending := [.readReg 0x06] } : State).pending =
    .readReg 0x06 :: [] := rfl

theorem witness_NonFiniteWriteIsRefused : NumReg.dt.number = (0x00#8).toNat ∧ (0x00#8).toNat ∈ rwNumbers ∧
    F32.isFinite 0x7F800000 = false ∧ F32.isFinite 0x7FC00000 = false := by decide

/-- A fault bit set before a step that answers a next state. -/
theorem witness_FaultBitsAreSticky :
    ∃ s t : State, step s = .next t ∧ s.voice.faultBit .reg = true := by
  obtain ⟨t, h⟩ := exists_next (o := step { st (v0.raise .reg) with pending := [.exec 0x0000] }) (by decide +kernel)
  exact ⟨_, t, h, by decide +kernel⟩

/-- A step that sets a fault bit. -/
theorem witness_FaultingStepOnlySetsItsBit : ∃ s t : State, step s = .next t ∧ s.voice.faultBit .wtu = false ∧
    t.voice.faultBit .wtu = true :=
  ⟨State.reset.withExec 0x1100, State.reset.withVoice (v0.raise .wtu), by rfl, by decide +kernel, by decide +kernel⟩

theorem witness_FaultBitsDoNotInfluenceCommands : ∃ s t : State, exec (.wgTri 0) s = .next t := by
  obtain ⟨t, h⟩ := exists_next (o := exec (.wgTri 0) State.reset) (by decide +kernel)
  exact ⟨_, t, h⟩

/-- The reserved mode in each chain, and a command that raises `F_CFG` for it. -/
theorem witness_CfgFaultFromReservedModeOnly :
    (∀ k : Fin 3, ((v0.setCfgc k 0x30).cfgc.get k).extractLsb' 4 2 = 3) ∧
    ∃ s t : State, step s = .next t ∧ s.voice.faultBit .cfg = false ∧ t.voice.faultBit .cfg = true :=
  ⟨by decide +kernel, (st (v0.setCfgc 1 0x30)).withExec 0x6101,
    (st (v0.setCfgc 1 0x30)).withVoice ((v0.setCfgc 1 0x30).raise .cfg), by rfl, by decide +kernel, by decide +kernel⟩

/-- After reset: no table, the table sine selected, no reserved mode, every chain a sine. -/
theorem witness_LookupBeforeBuildFaults : State.reset.voice.status.getLsbD 0 = false ∧
    State.reset.voice.cfg0.getLsbD 2 = false ∧ (∀ k, (State.reset.voice.cfgc.get k).extractLsb' 4 2 ≠ 3) ∧
    ∃ k, (State.reset.voice.cfgc.get k).extractLsb' 0 2 = 0 := by decide +kernel

/-- A command that faults, and one that performs its rule. -/
theorem witness_CommandFrame : (∃ t, exec (.phAdv 11) State.reset = .next t) ∧ ∃ t, exec (.hbTick 0) (st bankExample) = .next t ∨
    exec (.phAdv 10) State.reset = .next t := by
  obtain ⟨t, h⟩ := exists_next (o := exec (.phAdv 10) State.reset) (by decide +kernel)
  exact ⟨exists_next (by decide +kernel), t, .inr h⟩

theorem witness_CommandsNeverWriteInputs : ∃ s t : State, exec (.phAdv 0) s = .next t ∧ NumReg.a0.number ∈ rwNumbers := by
  obtain ⟨t, h⟩ := exists_next (o := exec (.phAdv 0) (st (nums [(.a0, 0x3F800000)]))) (by decide +kernel)
  exact ⟨_, t, h, by decide⟩

/-- `WG.SAW` at phase 0 changes `R0` from 0 to -1. -/
theorem witness_ResultRegisterWriters : ∃ s t : State, exec (.wgSaw 0) s = .next t ∧ t.voice.num .r0 ≠ s.voice.num .r0 :=
  ⟨State.reset, State.reset.withVoice (v0.setNum .r0 0xBF800000), by rfl, by decide +kernel⟩

theorem wtBuild_next : ∃ t, exec (.wtBuild 0) (st v0) = .next t ∧ t.voice.status = 1 := by
  have h : (next? (exec (.wtBuild 0) (st v0))).map (fun t => t.voice.status) = some 1 := by decide +kernel
  obtain ⟨t, ht⟩ := exists_next (o := exec (.wtBuild 0) (st v0)) (by decide +kernel)
  rw [ht] at h
  exact ⟨t, ht, Option.some.inj h⟩

/-- A built table before a step, and a step that builds it. -/
theorem witness_BuiltTableNeverChanges :
    (∃ s t : State, step s = .next t ∧ s.voice.status.getLsbD 0 = true) ∧
    ∃ s t : State, step s = .next t ∧ s.voice.status.getLsbD 0 = false ∧ t.voice.status.getLsbD 0 = true := by
  obtain ⟨t, h⟩ := exists_next (o := step (st (built v0))) (by decide +kernel)
  obtain ⟨t', h', e⟩ := wtBuild_next
  refine ⟨⟨_, t, h, by decide +kernel⟩, (st v0).withExec 0x1000, t', h', by decide +kernel, ?_⟩
  rw [e]; decide

theorem witness_StepKeepsSoundState : ∃ s t : State, Inv s ∧ step s = .next t := ⟨sound, sound, sound_inv, rfl⟩

theorem witness_SoundStatesNeverFault : Inv sound := sound_inv

theorem witness_EnvelopesStayInRange : ∃ s t : State, Inv s ∧ EnvelopesInRange s.voice ∧ 0 ≤ F32.key (s.voice.num .dt) ∧
    exec (.envRst 2) s = .next t := by
  obtain ⟨t, h⟩ := exists_next (o := exec (.envRst 2) sound) (by decide +kernel)
  refine ⟨sound, t, sound_inv, ?_, by decide +kernel, h⟩
  unfold EnvelopesInRange
  decide +kernel

theorem witness_NopChangesNothing : (15#4 : Idx) ≠ 0 ∧ (0x00F0#16).extractLsb' 8 8 = 0 ∧ (0x00F0#16).extractLsb' 4 4 ≠ 0 := by
  decide

/-- An unbuilt table with parameters at which it can be built, a built table, the first cell and the first index beyond
the table; and allowed parameters at which it cannot be built: an infinite amplitude, and a last index `2^128` that
converts to an infinity. -/
theorem witness_BuildFillsTheTable : (st v0).voice.status.getLsbD 0 = false ∧
    (F32.isFinite tp.wtAmp = true ∧ F32.isFinite (F32.lit ((max tp.wtSize 1).toNat - 1) 1) = true) ∧
    (st (built v0)).voice.status.getLsbD 0 = true ∧ 0 < (max tp.wtSize 1).toNat ∧
    (max tp.wtSize 1).toNat ≤ (max tp.wtSize 1).toNat ∧
    ({ tp with wtAmp := 0x7F800000 } : OpenParams).allowed ∧ F32.isFinite 0x7F800000 = false ∧
    ({ tp with wtSize := 2 ^ 128 + 1 } : OpenParams).allowed ∧
    F32.isFinite (F32.lit ((max (2 ^ 128 + 1 : Int) 1).toNat - 1) 1) = false :=
  ⟨by decide +kernel, by decide +kernel, by decide +kernel, by decide +kernel, le_rfl, tp_allowed, by decide, tp_allowed,
    by decide +kernel⟩

/-- A sound built table, at a finite and at an infinite phase. -/
theorem witness_LookupReadsTheIndexedCell (p : NumWord) (hp : p = 0xBE800000 ∨ p = 0x7F800000) :
    ∃ s : State, TableSound s.config s.voice ∧ s.voice.status.getLsbD 0 = true ∧ s.voice.num (.ph 3) = p ∧
      F32.isNaN (s.voice.num (.ph 3)) = false ∧ F32.isFinite (F32.lit (max s.params.wtSize 1).toNat 1) = true := by
  refine ⟨st (zeroBuilt (nums [(.ph 3, p)])), zeroBuilt_sound _, show (1#32).getLsbD 0 = true from by decide, rfl, ?_,
    show F32.isFinite (F32.lit (max tp.wtSize 1).toNat 1) = true from by decide +kernel⟩
  change F32.isNaN p = false
  rcases hp with rfl | rfl <;> decide

/-- A zero phase on a sound built table whose size converts to an infinity. -/
theorem witness_LookupReadsTheIndexedCell_infinite : ∃ s : State, TableSound s.config s.voice ∧
    s.voice.status.getLsbD 0 = true ∧ F32.mag (s.voice.num (.ph 3)) = 0 ∧
    F32.isFinite (F32.lit (max s.params.wtSize 1).toNat 1) = false :=
  ⟨{ st (zeroBuiltOf (2 ^ 128) v0) with params := { tp with wtSize := 2 ^ 128 } }, zeroBuiltOf_sound _ _, rfl, rfl,
    by decide +kernel⟩

theorem witness_TableIndexInRange : wtIndex f32 (st v0).config 0 = .ok 0 := by decide +kernel

/-- Finite operands; and phases and products at the ends of [0, 1). -/
theorem witness_PhaseAdvance : F32.isFinite ((nums [(.ph 10, 0x3F400000)]).num (.ph 10)) = true ∧
    F32.isFinite ((nums [(.a0, 0x40400000)]).num .a0) = true ∧ F32.isFinite (v0.num .dt) = true := by decide +kernel

theorem witness_PhaseStaysInUnitInterval : ∃ s t : State, s.voice.num (.ph 5) = 0x3F7FFFFF ∧
    0 ≤ F32.key (s.voice.num (.ph 5)) ∧ F32.key (s.voice.num (.ph 5)) < F32.key oneW ∧
    F32.mul (s.voice.num .a0) (s.voice.num .dt) = .ok 0x3F7FFFFF ∧ (0 : Int) ≤ F32.key 0x3F7FFFFF ∧
    F32.key 0x3F7FFFFF < F32.key oneW ∧ exec (.phAdv 5) s = .next t := by
  obtain ⟨t, h⟩ := exists_next
    (o := exec (.phAdv 5) (st (nums [(.ph 5, 0x3F7FFFFF), (.a0, 0x3F7FFFFF), (.dt, 0x3F800000)]))) (by decide +kernel)
  exact ⟨_, t, by decide +kernel, by decide +kernel, by decide +kernel, by decide +kernel, by decide, by decide, h⟩

theorem witness_PhaseReset : 11 ≤ (11#4).toNat := by decide

/-- Each source of the frequency, on a number; and the product of TC's `BASE_FREQ` and `2^1`. -/
theorem witness_FrequencyIsClamped : ((v0.setCfgc 2 4).cfgc.get 2).getLsbD 2 = true ∧ F32.isNaN (v0.num (.fabs 2)) = false ∧
    (v0.cfgc.get 2).getLsbD 2 = false ∧ F32.isNaN ((nums [(.pitch 2, 0x43480000)]).num (.pitch 2)) = false ∧
    F32.isFinite tp.baseFreq = true ∧ 0 < F32.key tp.baseFreq ∧
    F32.mul (st v0).params.baseFreq ((st v0).config.exp2 0x3F800000) = .ok 0x42000000 := by
  decide +kernel

/-- The four phases at which the sine is pinned. -/
theorem witness_DirectSine : ∀ p ∈ [(0 : NumWord), 0x3E800000, 0x3F000000, 0x3F400000],
    (nums [(.ph 8, p)]).num (.ph 8) = p ∧ F32.isFinite p = true := by
  intro p hp
  simp only [List.mem_cons, List.not_mem_nil, or_false] at hp
  rcases hp with rfl | rfl | rfl | rfl <;> decide +kernel

/-- Below the half, at it, and above it. -/
theorem witness_TriangleAndSaw : F32.isFinite ((nums [(.ph 0, 0x3EFFFFFF)]).num (.ph 0)) = true ∧
    F32.isFinite ((nums [(.ph 0, 0x3F000000)]).num (.ph 0)) = true ∧ F32.key 0x3EFFFFFF < F32.key 0x3F000000 ∧
    ¬ F32.key 0x3F000000 < F32.key 0x3F000000 := by decide +kernel

theorem witness_SquareComparesWithTheClampedWidth : F32.isNaN ((nums [(.ph 10, 0x3F000000)]).num (.ph 10)) = false ∧
    F32.isNaN ((nums [(.a0, 0x3F000000)]).num .a0) = false := by decide +kernel

theorem witness_PulseWidthIsClamped : F32.isFinite ((nums [(.pw 0, 0x3F000000)]).num (.pw 0)) = true ∧
    F32.isFinite ((nums [(.pwmAmt 0, 0x3F000000)]).num (.pwmAmt 0)) = true ∧
    F32.isFinite ((nums [(.pwmCv 0, 0xC0A00000)]).num (.pwmCv 0)) = true := by decide +kernel

/-- Integer ratios, direct sine, every amplitude source: with `DT = 0` and phases 0 every slot is silent. -/
theorem witness_BankTick : ∃ (s : State) (f p a x y : Fin 8 → NumWord) (sum : Fin 9 → NumWord) (g o : NumWord),
    s.voice.cfg0.getLsbD 2 = true ∧ s.voice.cfg0.getLsbD 8 = true ∧ s.voice.cfg0.getLsbD 15 = false ∧
    F32.isNaN (s.voice.num (.freq 0)) = false ∧
    (∀ i : Fin 8, (s.voice.cfg0.extractLsb' 0 2).toNat = 0 ∧
      F32.mul (clampWord (s.voice.num (.freq 0)) 0x41200000 0x469C4000) (F32.lit ((i : Nat) + 1) 1) = .ok (f i)) ∧
    (∀ i, phaseAdvance f32 (s.voice.num (.ph (slotPhase i))) (f i) (s.voice.num .dt) = .ok (p i)) ∧
    (∀ i : Fin 8, if s.voice.cfg0.getLsbD (8 + i) then
        ∃ u, F32.mul (s.voice.num (.hcv i)) 0x3DCCCCCD = .ok u ∧ a i = clampWord u 0 oneW
      else F32.isNaN (s.voice.num (.level i)) = false ∧ a i = clampWord (s.voice.num (.level i)) 0 oneW) ∧
    (∀ i, F32.app s.config.sin2pi (p i) = .ok (x i)) ∧ (∀ i, F32.mul (a i) (x i) = .ok (y i)) ∧
    sum 0 = 0 ∧ (∀ i : Fin 8, F32.add (sum i.castSucc) (y i) = .ok (sum i.succ)) ∧
    F32.mul 0x40A00000 (sum 8) = .ok g ∧ F32.div g 0x41000000 = .ok o := by
  refine ⟨st (v0.setCfg0 0x0704), fun i => match i with
      | 0 => 0x41200000 | 1 => 0x41A00000 | 2 => 0x41F00000 | 3 => 0x42200000 | 4 => 0x42480000 | 5 => 0x42700000
      | 6 => 0x428C0000 | 7 => 0x42A00000, fun _ => 0, fun _ => 0, fun _ => 0, fun _ => 0, fun _ => 0, 0, 0, ?_⟩
  refine ⟨by decide +kernel, by decide +kernel, by decide +kernel, by decide +kernel, by decide +kernel, by decide +kernel,
    fun i => ?_, by decide +kernel, by decide +kernel, rfl, by decide +kernel, by decide +kernel, by decide +kernel⟩
  have h : ∀ j : Fin 8, (v0.setCfg0 0x0704).num (.hcv j) = 0 ∧ (v0.setCfg0 0x0704).num (.level j) = 0 := by decide +kernel
  split
  · exact ⟨0, by rw [show (st (v0.setCfg0 0x0704)).voice.num (.hcv i) = 0 from (h i).1]; decide +kernel,
      show (0 : NumWord) = clampWord 0 0 oneW from by decide⟩
  · rw [show (st (v0.setCfg0 0x0704)).voice.num (.level i) = 0 from (h i).2]
    exact ⟨by decide, show (0 : NumWord) = clampWord 0 0 oneW from by decide⟩

/-- The table sine on a built table, and each of the three frequency tables, at `DT = 0`. -/
theorem witness_BankTick_tables : ∀ (m : Fin 3) (i : Fin 8), F32.mul ((tp.ftab.get m).get i) 0 = .ok 0 ∧
    phaseAdvance f32 0 ((tp.ftab.get m).get i) 0 = .ok 0 ∧ wtLookup f32 (st v0).config (zeros 4) 0 = .ok 0 ∧
    F32.mul 0 0 = .ok 0 := by decide +kernel

theorem witness_SilentBankGivesZero : ∃ s t : State, (∀ i : Fin 8, s.voice.cfg0.getLsbD (8 + i) = false) ∧
    (∀ i, F32.mag (s.voice.num (.level i)) = 0) ∧ s.voice.cfg0.getLsbD 2 = true ∧ exec (.hbTick 0) s = .next t := by
  obtain ⟨t, h⟩ := exists_next (o := exec (.hbTick 0) (st (v0.setCfg0 4))) (by decide +kernel)
  exact ⟨_, t, by decide +kernel, by decide +kernel, by decide +kernel, h⟩

/-- Idle with the gate low; Idle with the gate high and remembered; Sustain with the gate held. -/
theorem witness_EnvelopeIdleAndSustain :
    (F32.isNaN (v0.num (.gateV 2)) = false ∧ F32.isNaN (v0.num (.sus 2)) = false ∧ v0.envSt.get 2 = .idle ∧
      F32.key (v0.num (.gateV 2)) < F32.key oneW) ∧ (v0.setGprev 0 true).envGprev.get 0 = true ∧
    (((nums [(.gateV 1, 0x3F800000)]).setEnvSt 1 .sustain).setGprev 1 true).envSt.get 1 = .sustain ∧
    (((nums [(.gateV 1, 0x3F800000)]).setEnvSt 1 .sustain).setGprev 1 true).envGprev.get 1 =
      decide (F32.key oneW ≤ F32.key ((((nums [(.gateV 1, 0x3F800000)]).setEnvSt 1 .sustain).setGprev 1 true).num (.gateV 1))) := by
  decide +kernel

/-- A rising edge in Idle at exactly 1 V; an Attack without an edge. -/
theorem witness_EnvelopeAttack : tp.allowed ∧
    (true = decide (F32.key oneW ≤ F32.key ((nums [(.gateV 0, 0x3F800000)]).num (.gateV 0))) ∧
      (nums [(.gateV 0, 0x3F800000)]).envGprev.get 0 = false) ∧
    (v0.setEnvSt 0 .attack).envSt.get 0 = .attack ∧ (v0.setEnvSt 0 .attack).envGprev.get 0 = false ∧
    F32.isNaN (v0.num (.gateV 0)) = false ∧ F32.isNaN (v0.num (.sus 0)) = false ∧ F32.isFinite (v0.num (.att 0)) = true ∧
    F32.isFinite (v0.num .dt) = true ∧ F32.isFinite (v0.num (.envOut 0)) = true ∧
    F32.isFinite (v0.num (.envProg 0)) = true := ⟨tp_allowed, by decide +kernel⟩

/-- A Decay whose time is the largest number. -/
theorem witness_EnvelopeDecay : ∃ (v : Voice NumWord) (prog e r y out : NumWord), tp.allowed ∧ F32.isNaN (v.num (.gateV 0)) = false ∧
    F32.isNaN (v.num (.sus 0)) = false ∧ F32.isNaN (v.num (.dec 0)) = false ∧ v.envSt.get 0 = .decay ∧
    v.envGprev.get 0 = decide (F32.key oneW ≤ F32.key (v.num (.gateV 0))) ∧
    F32.add (v.num (.envProg 0)) (v.num .dt) = .ok prog ∧ F32.sub (clampWord (v.num (.sus 0)) 0 oneW) oneW = .ok e ∧
    F32.div prog (maxWord (v.num (.dec 0)) tp.epsDiv) = .ok r ∧ F32.mul e r = .ok y ∧
    F32.add oneW y = .ok out := by
  refine ⟨(nums [(.dec 0, fltMax)]).setEnvSt 0 .decay, 0, 0xBF800000, 0, 0x80000000, oneW, tp_allowed, ?_⟩
  decide +kernel

/-- A falling edge in Sustain, and a Release that goes on, each with the largest release time. -/
theorem witness_EnvelopeRelease : ∃ (v : Voice NumWord) (prog r y out : NumWord),
    tp.allowed ∧ (false = decide (F32.key oneW ≤ F32.key (v.num (.gateV 0))) ∧ F32.isNaN (v.num (.gateV 0)) = false ∧
      F32.isNaN (v.num (.sus 0)) = false ∧ F32.isNaN (v.num (.rel 0)) = false ∧
      (v.envGprev.get 0 = true ∧ v.envSt.get 0 = .sustain) ∧ v.num (.envOut 0) = oneW) ∧
    (v.envGprev.get 1 = false ∧ v.envSt.get 1 = .release ∧ v.num (.envRel0 1) = 0) ∧
    F32.add 0 (v.num .dt) = .ok prog ∧ F32.div prog (maxWord (v.num (.rel 0)) tp.epsDiv) = .ok r ∧
    F32.sub oneW r = .ok y ∧ F32.mul oneW y = .ok out ∧ F32.add (v.num (.envProg 1)) (v.num .dt) = .ok prog ∧
    F32.div prog (maxWord (v.num (.rel 1)) tp.epsDiv) = .ok r ∧ F32.mul (v.num (.envRel0 1)) y = .ok 0 := by
  refine ⟨((((nums [(.rel 0, fltMax), (.rel 1, fltMax), (.envOut 0, oneW)]).setEnvSt 0 .sustain).setGprev 0 true).setEnvSt 1
    .release), 0, 0, oneW, oneW, tp_allowed, ?_⟩
  decide +kernel

/-- A gate still high after `ENV.RST`, and the step after it; an index out of range. -/
theorem witness_EnvelopeReset : ∃ s t u : State, exec (.envRst 0) s = .next t ∧
    F32.key oneW ≤ F32.key (s.voice.num (.gateV 0)) ∧ exec (.envStep 0) t = .next u ∧ 3 ≤ (3#4).toNat := by
  let v := nums [(.gateV 0, oneW)]
  let w := v.setEnvUnit 0 (envUnitReset f32)
  obtain ⟨u, h⟩ := exists_next (o := exec (.envStep 0) ((st v).withVoice w)) (by decide +kernel)
  exact ⟨st v, (st v).withVoice w, u, by rfl, by decide +kernel, h, by decide⟩

/-- The filter's values at the largest sample rate: a zero input on a zero output, in both forms of alpha. -/
theorem witness_FilterStep : ∃ (v : Voice NumWord) (cc dtf a1 b1 e1 g alpha1 a2 b2 e2 alpha2 d m y : NumWord), tp.allowed ∧
    ((v.cfgc.get 0).getLsbD 3 = false ∧ (v.cfgc.get 1).getLsbD 3 = true) ∧
    (F32.isNaN (v.num .sr) = false ∧ F32.isNaN (v.num .a1) = false ∧ cc = clampWord (v.num .a1) 0x41A00000 0x469C4000) ∧
    F32.div oneW (maxWord (v.num .sr) tp.epsDiv) = .ok dtf ∧
    (F32.mul 0x40000000 (st v).config.pi = .ok a1 ∧ F32.mul a1 cc = .ok b1 ∧ F32.div oneW b1 = .ok e1 ∧
      F32.add dtf e1 = .ok g ∧ F32.div dtf g = .ok alpha1) ∧
    (F32.mul dtf tp.fltK = .ok a2 ∧ F32.mul a2 cc = .ok b2 ∧ F32.mul b2 cc = .ok e2 ∧ alpha2 = clampWord e2 0 oneW) ∧
    F32.sub (v.num .a0) (v.num (.fltOut 0)) = .ok d ∧ F32.mul alpha1 d = .ok m ∧
    F32.add (v.num (.fltOut 0)) m = .ok y ∧ F32.mul alpha2 d = .ok 0 := by
  refine ⟨(nums [(.sr, fltMax)]).setCfgc 1 8, 0x41A00000, 0x00200000, 0x40C90FDB, 0x42FB53D2, 0x3C026136, 0x3C026136, 0x02FB53D1,
    0x00004000, 0x00050000, 0x00640000, 0x00640000, 0, 0, 0, tp_allowed, ?_⟩
  decide +kernel

/-- Each mode; the exponential one at 0 V; the sum with TC's gain at 2 V. -/
theorem witness_CutoffModulation : (v0.cfgc.get 0).extractLsb' 4 2 = 0 ∧ ((v0.setCfgc 1 0x10).cfgc.get 1).extractLsb' 4 2 = 1 ∧
    ((v0.setCfgc 2 0x20).cfgc.get 2).extractLsb' 4 2 = 2 ∧ ((v0.setCfgc 2 0x30).cfgc.get 2).extractLsb' 4 2 = 3 ∧
    F32.isFinite tp.cutCvGain = true ∧ F32.isFinite (v0.num (.cut 1)) = true ∧ F32.isFinite (v0.num (.cutCv 1)) = true ∧
    F32.mul tp.cutCvGain 0x40000000 = .ok 0x43480000 ∧ F32.add (v0.num (.cut 1)) 0x43480000 = .ok 0x43480000 ∧
    F32.mul (v0.num (.cutCv 2)) 0x3DCCCCCD = .ok 0 ∧ F32.mul 0 0x41200000 = .ok 0 ∧ (st v0).config.exp2 0 = oneW ∧
    F32.mul (v0.num (.cut 2)) oneW = .ok 0 := by decide +kernel

/-- A three-chain block with absolute frequencies, no sine, no cutoff modulation, long times, the largest sample rate. -/
def calmVoice : Voice NumWord :=
  (((nums [(.sr, fltMax), (.att 0, fltMax), (.att 1, fltMax), (.att 2, fltMax), (.dec 0, fltMax), (.dec 1, fltMax),
    (.dec 2, fltMax), (.rel 0, fltMax), (.rel 1, fltMax), (.rel 2, fltMax)]).setCfgc 0 5).setCfgc 1 6).setCfgc 2 7

theorem trio_next {v : Voice NumWord}
    (h1 : (next? (exec (.vgTrio 0) (st v))).map (fun t => t.voice.status) = some 0) :
    ∃ t, exec (.vgTrio 0) (st v) = .next t ∧ t.voice.noFault := by
  cases hv : exec (.vgTrio 0) (st v) with
  | fault e => rw [hv] at h1; cases h1
  | refused e => rw [hv] at h1; cases h1
  | next t =>
    rw [hv] at h1
    refine ⟨t, rfl, fun f => ?_⟩
    rw [Voice.faultBit, show t.voice.status = 0 from Option.some.inj h1]
    cases f <;> decide

/-- What BankInstrumentTick's hypotheses say of a state and the values of the stages. -/
def BankValues (s : State) (m : CutMode) (f co y e af o : NumWord) (v1 v2 : Voice NumWord) : Prop :=
  cmod (s.voice.cfgc.get 0) = some m ∧ (s.voice.cfg0.getLsbD 2 = true ∨ s.voice.status.getLsbD 0 = true) ∧
  chainFreq f32 s.config s.voice 0 = .ok f ∧ hbTick f32 s.config (s.voice.setNum (.freq 0) f) = .ok v1 ∧
  envStep f32 s.config 0 v1 = .ok v2 ∧ cutoffBy f32 s.config m (s.voice.num (.cut 0)) (s.voice.num (.cutCv 0)) = .ok co ∧
  fltStep f32 s.config (s.voice.num .sr) (s.voice.num (.fltOut 0)) (v1.num .hbOut) co (sw (s.voice.cfgc.get 0)) = .ok y ∧
  F32.mul y (v2.num (.envOut 0)) = .ok e ∧
  (if s.voice.cfg0.getLsbD 4 then
      ∃ u, F32.mul (s.voice.num .ampCv) 0x3DCCCCCD = .ok u ∧ af = clampWord u 0 oneW
    else af = oneW) ∧ F32.mul e af = .ok o

/-- The bank and the envelope of a state, from their outputs: both zero. -/
theorem bank_stages {c : Config NumWord} {v : Voice NumWord}
    (h : (hbTick f32 c v).toOption.map (fun w => w.num .hbOut) = some 0)
    (h' : (hbTick f32 c v >>= envStep f32 c 0).toOption.map (fun w => w.num (.envOut 0)) = some 0) :
    ∃ v1 v2, hbTick f32 c v = .ok v1 ∧ v1.num .hbOut = 0 ∧ envStep f32 c 0 v1 = .ok v2 ∧ v2.num (.envOut 0) = 0 := by
  cases e1 : hbTick f32 c v with
  | error e => rw [e1] at h; cases h
  | ok v1 =>
    rw [e1] at h h'
    rw [calc_ok_bind] at h'
    cases e2 : envStep f32 c 0 v1 with
    | error e => rw [e2] at h'; cases h'
    | ok v2 =>
      rw [e2] at h'
      exact ⟨v1, v2, rfl, Option.some.inj h, e2, Option.some.inj h'⟩

/-- The bank instrument with the direct sine, an absolute frequency of 10 Hz, `DT = 0` and a quiet envelope. -/
def bankVoice : Voice NumWord := ((nums [(.sr, fltMax)]).setCfg0 4).setCfgc 0 4

theorem witness_BankInstrumentTick : ∃ s m f co y e af o v1 v2, s.voice.cfg0.getLsbD 2 = true ∧
    BankValues s m f co y e af o v1 v2 := by
  obtain ⟨v1, v2, h1, ho, h2, he⟩ :=
    bank_stages (c := (st bankVoice).config) (v := bankVoice.setNum (.freq 0) 0x41200000) (by decide +kernel) (by decide +kernel)
  refine ⟨st bankVoice, .fixed, 0x41200000, 0, 0, 0, oneW, 0, v1, v2, by decide +kernel, by decide +kernel, by decide +kernel,
    by decide +kernel, h1, h2, by decide +kernel, ?_, ?_, by decide +kernel, by decide +kernel⟩
  · rw [ho]
    decide +kernel
  · rw [he]
    decide +kernel

/-- The table sine on a table of zeros, exponential cutoff modulation, an amplitude CV of 5 V, an absolute frequency of
10 Hz, `DT = 0` and a quiet envelope. -/
def tableBankVoice : Voice NumWord :=
  zeroBuilt (((nums [(.sr, fltMax), (.ampCv, 0x40A00000), (.cut 0, 0x43DC0000)]).setCfg0 0x10).setCfgc 0 0x24)

/-- With the table sine, `CMOD = 2` and `AC = 1`: every stage runs, and the amplitude factor is 0.5. -/
theorem witness_BankInstrumentTick_table : ∃ s f co y e o v1 v2, s.voice.cfg0.getLsbD 2 = false ∧
    s.voice.cfg0.getLsbD 4 = true ∧ BankValues s .exponential f co y e 0x3F000000 o v1 v2 := by
  obtain ⟨v1, v2, h1, ho, h2, he⟩ :=
    bank_stages (c := (st tableBankVoice).config) (v := tableBankVoice.setNum (.freq 0) 0x41200000) (by decide +kernel)
      (by decide +kernel)
  refine ⟨st tableBankVoice, 0x41200000, 0x43DC0000, 0, 0, 0, v1, v2, by decide +kernel, by decide +kernel,
    by decide +kernel, by decide +kernel, by decide +kernel, h1, h2, by decide +kernel, ?_, ?_, ?_, by decide +kernel⟩
  · rw [ho]
    decide +kernel
  · rw [he]
    decide +kernel
  · rw [if_pos (by decide +kernel)]
    exact ⟨0x3F000000, by decide +kernel, by decide +kernel⟩

/-- The waveform clause of TrioInstrumentTick for one chain, and its other stages and mix. -/
def TrioValues (s : State) (m : Fin 3 → CutMode) (af : NumWord) (f p w x co y g e o : Fin 3 → NumWord)
    (u : Fin 3 → EnvUnit NumWord) (a b c : NumWord) : Prop :=
  (∀ k, cmod (s.voice.cfgc.get k) = some (m k)) ∧ ampFactor f32 s.voice = .ok af ∧
  (∀ k, chainFreq f32 s.config s.voice k = .ok (f k)) ∧
  (∀ k, phaseAdvance f32 (s.voice.num (.ph (chainPhase k))) (f k) (s.voice.num .dt) = .ok (p k)) ∧
  (∀ k, pulseWidth f32 (s.voice.num (.pw k)) (s.voice.num (.pwmAmt k)) (s.voice.num (.pwmCv k)) = .ok (w k)) ∧
  (∀ k, if ((s.voice.cfgc.get k).extractLsb' 0 2).toNat = 0 then
      (if s.voice.cfg0.getLsbD 2 then F32.app s.config.sin2pi (p k) = .ok (x k)
        else wtLookup f32 s.config s.voice.wt (p k) = .ok (x k))
    else if ((s.voice.cfgc.get k).extractLsb' 0 2).toNat = 1 then
      ∃ q, F32.mul 0x40800000 (p k) = .ok q ∧
        (if F32.key (p k) < F32.key 0x3F000000 then F32.sub q oneW = .ok (x k)
          else F32.sub 0x40400000 q = .ok (x k))
    else if ((s.voice.cfgc.get k).extractLsb' 0 2).toNat = 2 then
      ∃ q, F32.mul 0x40000000 (p k) = .ok q ∧ F32.sub q oneW = .ok (x k)
    else x k = if F32.key (p k) < F32.key (clampWord (w k) 0x3C23D70A 0x3F7D70A4) then oneW else 0xBF800000) ∧
  (∀ k, envStepUnit f32 s.config (s.voice.envIn k) (s.voice.envUnit k) = .ok (u k)) ∧
  (∀ k, cutoffBy f32 s.config (m k) (s.voice.num (.cut k)) (s.voice.num (.cutCv k)) = .ok (co k)) ∧
  (∀ k, fltStep f32 s.config (s.voice.num .sr) (s.voice.num (.fltOut k)) (x k) (co k) (sw (s.voice.cfgc.get k)) = .ok (y k)) ∧
  (∀ k, F32.mul (if s.voice.cfg0.getLsbD 3 then 0x41200000 else 0x40A00000) (y k) = .ok (g k)) ∧
  (∀ k, F32.mul (g k) (u k).out = .ok (e k)) ∧ (∀ k, F32.mul (e k) af = .ok (o k)) ∧
  F32.add (o 0) (o 1) = .ok a ∧ F32.add a (o 2) = .ok b ∧ F32.div b 0x40400000 = .ok c

/-- Triangle, saw and square, no sine, no table; the mix of -0, -0 and +0. -/
theorem witness_TrioInstrumentTick : ∃ s m af f p w x co y g e o u a b c,
    (∀ k, ((s.voice.cfgc.get k).extractLsb' 0 2).toNat ≠ 0) ∧ TrioValues s m af f p w x co y g e o u a b c := by
  refine ⟨st calmVoice, fun _ => .fixed, oneW, fun _ => 0x41200000, fun _ => 0, fun _ => 0x3C23D70A,
    fun k => match k with | 0 => 0xBF800000 | 1 => 0xBF800000 | 2 => 0x3F800000, fun _ => 0,
    fun k => match k with | 0 => 0x82FB53D1 | 1 => 0x82FB53D1 | 2 => 0x02FB53D1,
    fun k => match k with | 0 => 0x841D1463 | 1 => 0x841D1463 | 2 => 0x041D1463,
    fun k => match k with | 0 => 0x80000000 | 1 => 0x80000000 | 2 => 0,
    fun k => match k with | 0 => 0x80000000 | 1 => 0x80000000 | 2 => 0, fun _ => ⟨.idle, 0, 0, false, 0⟩,
    0x80000000, 0, 0, by decide +kernel, by decide +kernel, by decide +kernel, by decide +kernel, by decide +kernel,
    by decide +kernel, fun k => ?_, by decide +kernel, by decide +kernel,
    by decide +kernel, by decide +kernel, by decide +kernel,
    by decide +kernel, by decide +kernel, by decide +kernel, by decide +kernel⟩
  match k with
  | 0 =>
    rw [if_neg (by decide +kernel), if_pos (by decide +kernel)]
    exact ⟨0, by decide +kernel, by decide +kernel⟩
  | 1 =>
    rw [if_neg (by decide +kernel), if_neg (by decide +kernel), if_pos (by decide +kernel)]
    exact ⟨0, by decide +kernel, by decide +kernel⟩
  | 2 =>
    rw [if_neg (by decide +kernel), if_neg (by decide +kernel), if_neg (by decide +kernel)]
    decide +kernel

/-- Three sine chains of the given `CFG0`, one with the exponential cutoff, the largest sample rate, `DT = 0`. -/
def sineVoice (cfg0 : Word) : Voice NumWord :=
  (((((nums [(.sr, fltMax), (.ampCv, 0x40A00000), (.cut 0, 0x43DC0000)]).setCfg0 cfg0).setCfgc 0 0x24).setCfgc 1 4).setCfgc 2 4)

/-- Three chains with the direct sine, the gain 10 and an amplitude CV of 5 V. -/
theorem witness_TrioInstrumentTick_direct : ∃ s m af f p w x co y g e o u a b c,
    s.voice.cfg0.getLsbD 2 = true ∧ (∀ k, ((s.voice.cfgc.get k).extractLsb' 0 2).toNat = 0) ∧
    TrioValues s m af f p w x co y g e o u a b c := by
  refine ⟨st (sineVoice 0x1C), fun k => match k with | 0 => .exponential | 1 => .fixed | 2 => .fixed, 0x3F000000,
    fun _ => 0x41200000, fun _ => 0, fun _ => 0x3C23D70A, fun _ => 0,
    fun k => match k with | 0 => 0x43DC0000 | 1 => 0 | 2 => 0, fun _ => 0, fun _ => 0, fun _ => 0, fun _ => 0,
    fun _ => ⟨.idle, 0, 0, false, 0⟩, 0, 0, 0, by decide +kernel, by decide +kernel, by decide +kernel, by decide +kernel,
    by decide +kernel, by decide +kernel, by decide +kernel, fun k => ?_, by decide +kernel, by decide +kernel,
    by decide +kernel, by decide +kernel, by decide +kernel,
    by decide +kernel, by decide +kernel, by decide +kernel, by decide +kernel⟩
  have h : ∀ k, (((st (sineVoice 0x1C)).voice.cfgc.get k).extractLsb' 0 2).toNat = 0 := by decide +kernel
  rw [if_pos (h k), if_pos (by decide +kernel)]
  exact show F32.app (st v0).config.sin2pi 0 = .ok 0 from by decide +kernel

/-- Three chains with the table sine, on a table of zeros. -/
theorem witness_TrioInstrumentTick_table : ∃ s m af f p w x co y g e o u a b c,
    s.voice.cfg0.getLsbD 2 = false ∧ s.voice.status.getLsbD 0 = true ∧
    (∀ k, ((s.voice.cfgc.get k).extractLsb' 0 2).toNat = 0) ∧ TrioValues s m af f p w x co y g e o u a b c := by
  refine ⟨st (zeroBuilt (sineVoice 0)), fun k => match k with | 0 => .exponential | 1 => .fixed | 2 => .fixed, oneW,
    fun _ => 0x41200000, fun _ => 0, fun _ => 0x3C23D70A, fun _ => 0,
    fun k => match k with | 0 => 0x43DC0000 | 1 => 0 | 2 => 0, fun _ => 0, fun _ => 0, fun _ => 0, fun _ => 0,
    fun _ => ⟨.idle, 0, 0, false, 0⟩, 0, 0, 0, by decide +kernel, by decide +kernel, by decide +kernel, by decide +kernel,
    by decide +kernel, by decide +kernel, by decide +kernel, by decide +kernel, fun k => ?_, by decide +kernel,
    by decide +kernel, by decide +kernel, by decide +kernel,
    by decide +kernel, by decide +kernel, by decide +kernel, by decide +kernel, by decide +kernel⟩
  have h : ∀ k, (((st (zeroBuilt (sineVoice 0))).voice.cfgc.get k).extractLsb' 0 2).toNat = 0 := by decide +kernel
  rw [if_pos (h k), if_neg (by decide +kernel)]
  exact show wtLookup f32 (st v0).config (zeros 4) 0 = .ok 0 from by decide +kernel

/-- Reserved modes; and no reserved mode with a sine, no table and the table sine. -/
theorem witness_CompositeFaultsComeFirst : ((v0.setCfgc 0 0x30).cfgc.get 0).extractLsb' 4 2 = 3 ∧
    (∃ k, ((v0.setCfgc 2 0x30).cfgc.get k).extractLsb' 4 2 = 3) ∧ (∀ k, (v0.cfgc.get k).extractLsb' 4 2 ≠ 3) ∧
    v0.cfg0.getLsbD 2 = false ∧ v0.status.getLsbD 0 = false ∧ ∃ k, (v0.cfgc.get k).extractLsb' 0 2 = 0 := by decide +kernel

/-- `calmVoice` with another pulse width in chain 2. -/
def calmVoice' : Voice NumWord := calmVoice.setNum (.pw 2) 0x3F000000

/-- Two states that differ in chain 2 agree on chain 0, and `VG.TRIO` performs its rule on both, with different widths of
chain 2. -/
theorem witness_ChainsAreIndependent : ∃ s s' t t' : State,
    (∀ r ∈ [NumReg.dt, .sr, .ampCv, .pitch 0, .fabs 0, .pw 0, .pwmAmt 0, .pwmCv 0, .gateV 0, .att 0, .dec 0, .sus 0,
      .rel 0, .cut 0, .cutCv 0, .ph (chainPhase 0), .envOut 0, .envProg 0, .envRel0 0, .fltOut 0],
      s'.voice.num r = s.voice.num r) ∧
    s'.voice.cfg0 = s.voice.cfg0 ∧ s'.voice.cfgc.get 0 = s.voice.cfgc.get 0 ∧
    s'.voice.envSt.get 0 = s.voice.envSt.get 0 ∧ s'.voice.envGprev.get 0 = s.voice.envGprev.get 0 ∧
    s'.voice.wt = s.voice.wt ∧ s'.params = s.params ∧ s.voice.noFault ∧ s'.voice.noFault ∧ exec (.vgTrio 0) s = .next t ∧
    exec (.vgTrio 0) s' = .next t' ∧ t.voice.noFault ∧ t'.voice.noFault ∧
    s'.voice.num (.pw 2) ≠ s.voice.num (.pw 2) := by
  obtain ⟨t, h, hn⟩ := trio_next (v := calmVoice) (by decide +kernel)
  obtain ⟨t', h', hn'⟩ := trio_next (v := calmVoice') (by decide +kernel)
  refine ⟨st calmVoice, st calmVoice', t, t', fun r hr => ?_, by decide +kernel, by decide +kernel, by decide +kernel,
    by decide +kernel, by decide +kernel, rfl, fun f => by cases f <;> decide +kernel,
    fun f => by cases f <;> decide +kernel, h, h', hn, hn', by decide +kernel⟩
  have : NumReg.pw 2 ∉ [NumReg.dt, .sr, .ampCv, .pitch 0, .fabs 0, .pw 0, .pwmAmt 0, .pwmCv 0, .gateV 0, .att 0, .dec 0,
    .sus 0, .rel 0, .cut 0, .cutCv 0, .ph (chainPhase 0), .envOut 0, .envProg 0, .envRel0 0, .fltOut 0] := by decide
  change (calmVoice.setNum (.pw 2) 0x3F000000).num r = calmVoice.num r
  rw [Voice.num_setNum, if_neg]
  rintro rfl
  exact this hr

/-- Two states that differ in the latches only. -/
theorem witness_SlotLatchesAreNeverRead : ∃ s s' t : State,
    (∀ r, (∀ j, r ≠ .num (.slotF j)) → (∀ j, r ≠ .num (.slotA j)) → s'.voice.word r = s.voice.word r) ∧
    s'.voice.word (.num (.slotF 7)) ≠ s.voice.word (.num (.slotF 7)) ∧ s'.voice.wt = s.voice.wt ∧
    s'.params = s.params ∧ exec (.wgTri 0) s = .next t := by
  obtain ⟨t, h⟩ := exists_next (o := exec (.wgTri 0) (st v0)) (by decide +kernel)
  refine ⟨st v0, st (v0.setNum (.slotF 7) 5), t, fun r hr _ => ?_, by decide +kernel, by decide +kernel, rfl, h⟩
  have := sameRegs_setNum (l := [.num (.slotF 7)]) (.slotF 7) 5 (sameRegs_refl _ v0) (by simp)
  exact this r (by simpa using hr 7)

/-- An allowed choice with every kind of boundary value: -0, infinities, a negative table size. -/
theorem witness_ParametersMeetConstraints :
    ({ tp with wtSize := -3, fltK := 0x80000000, baseFreq := 0x7F800000, wtAmp := 0xFF800000 } : OpenParams).allowed ∧
      ∃ s t : State, step s = .next t := by
  refine ⟨⟨⟨by decide, by decide⟩, tp_allowed.2.1, tp_allowed.2.2.1, by decide, by decide⟩, State.reset, State.reset, rfl⟩

/-- The integers -126 and 127 as numbers. -/
theorem witness_SineAndPowerProperties : F32.isFinite 0xC2FC0000 = true ∧ F32.units 0xC2FC0000 = -126 * 2 ^ 149 ∧
    F32.isFinite 0x42FE0000 = true ∧ F32.units 0x42FE0000 = 127 * 2 ^ 149 ∧ F32.isNaN 0x7F800000 = false ∧
    F32.key 0x42FE0000 ≤ F32.key 0x7F800000 := by decide +kernel

theorem realValue_of {w : NumWord} {n : Int} (h : F32.units w = n) : realValue w = n / 2 ^ 149 := by rw [realValue, h]

/-- Each side of the boundary: the tie 1 + 2^-24 rounded to the even 1, with the other neighbour as near; a divisor that
is not 0; and the largest finite number plus and minus 2^103, on the boundary itself, which answers the infinity of the
sign. -/
theorem witness_OperationsRoundToNearestEven :
    (F32.isFinite 0x3F800000 = true ∧ F32.isFinite 0x33800000 = true ∧
      |realValue 0x3F800000 + realValue 0x33800000| < 2 ^ 128 - 2 ^ 103 ∧
      F32.add 0x3F800000 0x33800000 = .ok 0x3F800000 ∧ F32.isFinite 0x3F800001 = true ∧
      |realValue 0x3F800000 - (realValue 0x3F800000 + realValue 0x33800000)| =
        |realValue 0x3F800001 - (realValue 0x3F800000 + realValue 0x33800000)|) ∧
    (F32.isFinite fltMax = true ∧ F32.isFinite 0x73000000 = true ∧
      realValue fltMax + realValue 0x73000000 = 2 ^ 128 - 2 ^ 103 ∧ F32.add fltMax 0x73000000 = .ok 0x7F800000 ∧
      F32.sub 0xFF7FFFFF 0x73000000 = .ok 0xFF800000) ∧
    (F32.div 0x3F800000 0x40400000 = .ok 0x3EAAAAAB ∧ realValue 0x40400000 ≠ 0) := by
  have h1 := realValue_of (w := 0x3F800000) (n := 2 ^ 149) (by decide +kernel)
  have h2 := realValue_of (w := 0x3F800001) (n := 2 ^ 149 + 2 ^ 126) (by decide +kernel)
  have h3 := realValue_of (w := 0x33800000) (n := 2 ^ 125) (by decide +kernel)
  have h4 := realValue_of (w := 0x40400000) (n := 3 * 2 ^ 149) (by decide +kernel)
  have h5 := realValue_of (w := fltMax) (n := (2 ^ 128 - 2 ^ 104) * 2 ^ 149) (by decide +kernel)
  have h6 := realValue_of (w := 0x73000000) (n := 2 ^ 103 * 2 ^ 149) (by decide +kernel)
  refine ⟨⟨by decide, by decide, ?_, by decide +kernel, by decide, ?_⟩,
    ⟨by decide, by decide, ?_, by decide +kernel, by decide +kernel⟩, by decide +kernel, ?_⟩
  · rw [h1, h3]; norm_num
  · rw [h1, h2, h3, ← neg_sub, abs_neg]
    norm_num
  · rw [h5, h6]; norm_num
  · rw [h4]; norm_num

theorem witness_ComparisonAndFloorAreExact : F32.isFinite 0xBE800000 = true ∧ F32.isFinite 0x3E800000 = true ∧
    F32.key 0x3C23D70A ≤ F32.key 0x3F7D70A4 ∧ F32.isFinite 0x3C23D70A = true := by decide

/-! ### The reading REAL -/

/-- A configuration under REAL. -/
noncomputable def rc : Config ℝ where
  wtSize := 4
  wtAmp := 1
  baseFreq := 16
  epsDiv := 1
  ftab := fun _ _ => 100
  fltK := 1
  cutCvGain := 100
  sin2pi := fun x => Real.sin (2 * Real.pi * x)
  exp2 := fun x => (2 : ℝ) ^ x
  pi := Real.pi
  floorInf := fun _ => 0

theorem rc_real : RealConfig rc where
  baseFreq_pos := by norm_num [rc]
  epsDiv_pos := by norm_num [rc]
  ftab_pos := fun _ _ => by norm_num [rc]
  fltK_nonneg := by norm_num [rc]
  sin2pi_eq := fun _ => rfl
  exp2_eq := fun _ => rfl
  pi_eq := rfl

/-- From phase 0 by half a cycle at a time: 0, 1/2, 0, 1/2, ... -/
theorem witness_RealPhaseStaysInRange : ∃ p : Nat → ℝ, p 0 = 0 ∧
    ∀ n, phaseAdvance reals (p n) (1 / 2) 1 = .ok (p (n + 1)) := by
  refine ⟨fun n => if n % 2 = 0 then 0 else 1 / 2, by simp, fun n => ?_⟩
  rcases Nat.mod_two_eq_zero_or_one n with h | h
  · have h' : (n + 1) % 2 = 1 := by omega
    simp only [phaseAdvance, reals, calc_ok_bind, int, h, h']
    norm_num [calc_pure]
  · have h' : (n + 1) % 2 = 0 := by omega
    simp only [phaseAdvance, reals, calc_ok_bind, int, h, h']
    norm_num [calc_pure]

/-- An attack of one sample, a decay of one sample, then Sustain. -/
theorem witness_RealAttackReachesOne : ∃ (x : EnvIn ℝ) (u : Nat → EnvUnit ℝ), RealConfig rc ∧ 1 ≤ x.gateV ∧ 0 < x.dt ∧
    rc.epsDiv ≤ x.att ∧ (u 0).st = .idle ∧ (u 0).out = 0 ∧ (u 0).gprev = false ∧
    ∀ n, envStepUnit reals rc x (u n) = .ok (u (n + 1)) := by
  refine ⟨⟨1, 1, 1, 1, 1 / 2, 1⟩, fun n => match n with
    | 0 => ⟨.idle, 0, 0, false, 0⟩
    | 1 => ⟨.decay, 1, 0, true, 0⟩
    | _ => ⟨.sustain, 1 / 2, 0, true, 0⟩, rc_real, by norm_num, by norm_num, by norm_num [rc], rfl, rfl, rfl, fun n => ?_⟩
  match n with
  | 0 =>
    simp only [envStepUnit, clamp, envEdge, envAction, envAttack, maxNum, reals, calc_ok_bind, calc_pure, int, rc]
    norm_num
  | 1 =>
    simp only [envStepUnit, clamp, envEdge, envAction, envDecay, maxNum, reals, calc_ok_bind, calc_pure, int, rc]
    norm_num
  | n + 2 =>
    simp only [envStepUnit, clamp, envEdge, envAction, reals, calc_ok_bind, calc_pure, int]
    norm_num

/-- The swept form with `alpha = 1`: the output takes the input at once. -/
theorem witness_RealFilterConverges : ∃ y : Nat → ℝ, RealConfig rc ∧ y 0 = 1 ∧
    ∀ n, fltStep reals rc 1 (y n) 0 20 true = .ok (y (n + 1)) := by
  refine ⟨fun n => if n = 0 then 1 else 0, rc_real, by simp, fun n => ?_⟩
  simp only [fltStep, fltAlpha, clamp, maxNum, reals, calc_ok_bind, calc_pure, int, rc]
  norm_num

/-- A constant input on its own output, in the rational form. -/
theorem witness_RealFilterConverges_rational : ∀ _n : Nat, fltStep reals rc 1 5 5 1000 false = .ok 5 := by
  intro _
  have h2 : (1 : ℝ) + 1000⁻¹ * (Real.pi⁻¹ * 2⁻¹) ≠ 0 := by positivity
  simp only [fltStep, fltAlpha, clamp, maxNum, reals, calc_ok_bind, calc_pure, int, rc]
  norm_num
  simp [h2]

theorem witness_RealBankOutput : ∃ v w : Voice ℝ, RealConfig rc ∧ v.cfg0.getLsbD 2 = true ∧ hbTick reals rc v = .ok w := by
  have h : ∀ v : Voice ℝ, v.cfg0.getLsbD 2 = true → ∃ w, hbTick reals rc v = .ok w := by
    intro v hv
    have slot : ∀ (fb : ℝ) (acc : Voice ℝ × ℝ) (i : Fin 8), acc.1.cfg0 = v.cfg0 →
        ∃ acc', hbSlot reals rc fb acc i = .ok acc' ∧ acc'.1.cfg0 = v.cfg0 := by
      intro fb acc i hc
      have hf : ∃ f, slotFreq reals rc acc.1.cfg0 fb i = .ok f := by
        unfold slotFreq; split <;> exact ⟨_, rfl⟩
      obtain ⟨f, hf⟩ := hf
      have hp : ∀ p d, ∃ q, phaseAdvance reals p f d = .ok q := by
        intro p d
        simp only [phaseAdvance, reals, calc_ok_bind, calc_pure]
        split <;> exact ⟨_, rfl⟩
      obtain ⟨p, hp⟩ := hp (acc.1.num (.ph (slotPhase i))) (acc.1.num .dt)
      have ha : ∃ a, slotAmp reals acc.1 i = .ok a := by
        unfold slotAmp cvUnit clamp
        simp only [reals, calc_ok_bind, calc_pure]
        split <;> exact ⟨_, rfl⟩
      obtain ⟨a, ha⟩ := ha
      have hx : ∃ x, sineBy reals rc acc.1 p = .ok x := by
        rw [sineBy, show sd acc.1.cfg0 = true from hc ▸ hv]
        exact ⟨_, rfl⟩
      obtain ⟨x, hx⟩ := hx
      refine ⟨_, hbSlot_ok.mpr ⟨f, p, a, x, _, _, hf, hp, ha, hx, rfl, rfl, rfl⟩, ?_⟩
      simpa using hc
    have fold : ∀ (fb : ℝ) (l : List (Fin 8)) (acc : Voice ℝ × ℝ), acc.1.cfg0 = v.cfg0 →
        ∃ acc', l.foldlM (hbSlot reals rc fb) acc = .ok acc' := by
      intro fb l
      induction l with
      | nil => intro acc _; exact ⟨acc, rfl⟩
      | cons i l ih =>
        intro acc hc
        obtain ⟨acc', h1, h2⟩ := slot fb acc i hc
        obtain ⟨r, hr⟩ := ih acc' h2
        exact ⟨r, by rw [List.foldlM_cons, h1]; exact hr⟩
    obtain ⟨fb, hfb⟩ : ∃ fb, absToFreq reals (v.num (.freq 0)) = .ok fb := ⟨_, rfl⟩
    obtain ⟨r, hr⟩ := fold fb slots (v, int reals 0) rfl
    obtain ⟨o, ho⟩ : ∃ o, reals.div (outGain reals v.cfg0 * r.2) (int reals 8) = .ok o :=
      ⟨_, if_neg (by norm_num [reals, int])⟩
    exact ⟨_, hbTick_ok.mpr ⟨fb, r, _, o, hfb, hr, rfl, ho, rfl⟩⟩
  obtain ⟨w, hw⟩ := h ((Voice.reset 0).setCfg0 4) (by rw [Voice.cfg0_setCfg0]; decide)
  exact ⟨_, w, rc_real, by rw [Voice.cfg0_setCfg0]; decide, hw⟩

end Sys2Proof.Tests
end

section
/-! PROOFS. 20_memory.md R64: the host's write of a word that is no finite number. -/

namespace Sys2Proof.Machine

/-- Every host RW number lies below the host RO ones (20_memory.md R62). -/
theorem lt_of_mem_rwNumbers : ∀ m ∈ rwNumbers, m < 0x80 := by decide

/-- A `Num` register the host may not write has a number of the upper half (20_memory.md R62). -/
theorem NumReg.le_number_of_not_isInput {r : NumReg} (h : r.isInput = false) : 0x80 ≤ r.number := by
  cases r <;> cases h <;> simp only [NumReg.number] <;> omega

/-- A `Num` register with a host RW number is one the host may write. -/
theorem NumReg.isInput_of_number_mem {r : NumReg} (h : r.number ∈ rwNumbers) : r.isInput = true := by
  by_contra hr
  have hlt := lt_of_mem_rwNumbers _ h
  have hle := NumReg.le_number_of_not_isInput (Bool.eq_false_iff.mpr hr)
  omega

/-- The register map finds a `Num` register at its number. -/
theorem Reg.ofNumber_num {r : NumReg} {n : RegNum} (h : r.number = n.toNat) : Reg.ofNumber n = some (.num r) := by
  have hr := Reg.ofNumber_number (.num r)
  rwa [show (Reg.num r).number = n.toNat from h, BitVec.ofNat_toNat, BitVec.setWidth_eq] at hr

/-- A step with a `WriteReg` pending is that write, in the state with the action taken. -/
theorem step_writeReg {s : State} {n : RegNum} {w : Word} {rest : List HostAction}
    (h : s.pending = .writeReg n w :: rest) : step s = hostWrite n w (s.taken rest) := by
  simp only [step, takeAction, h, perform, State.taken]

/-- 00_scope.md R13: a write of a word that is no finite number to an input register is refused. -/
theorem hostWrite_nonFinite {n : RegNum} {w : Word} {r : NumReg} (s : State) (hn : Reg.ofNumber n = some (.num r))
    (hr : r.isInput = true) (hw : F32.isFinite w = false) : hostWrite n w s = .refused .nonFiniteWrite := by
  simp only [hostWrite, hn, hr, hw, if_true, Bool.false_eq_true, if_false]

/-- Settles O11: the number names the input register, at which a non-finite word is refused. -/
theorem nonFiniteWriteIsRefused : Obligations.NonFiniteWriteIsRefused := by
  intro s n w rest r hp hn hrw hw
  rw [step_writeReg hp]
  exact hostWrite_nonFinite _ (Reg.ofNumber_num hn) (NumReg.isInput_of_number_mem (hn ▸ hrw)) hw

end Sys2Proof.Machine
end

section
/-! PROOFS. 00_scope.md R7: the free choice of the OPEN parameters, and that no step changes them. -/

namespace Sys2Proof.Machine

open F32

/-! The constraints on single numbers, and the choices that give them -/

/-- A number `> 0` has no sign bit, and its magnitude is that of a number or infinity, not 0. -/
theorem sign_mag_of_isPositive {w : NumWord} (h : isPositive w) : sign w = false ∧ 0 < mag w ∧ mag w ≤ infMag := by
  obtain ⟨hn, hk⟩ := h
  have hm : mag w ≤ infMag := by simpa [isNaN] using hn
  unfold key at hk
  cases hs : sign w
  · simp only [hs, Bool.false_eq_true, if_false] at hk
    exact ⟨rfl, by omega, hm⟩
  · simp only [hs, if_true] at hk
    omega

/-- The free index of a number `> 0`. -/
def positiveIndex (w : NumWord) : Fin 0x7F800000 := Fin.ofNat _ (mag w - 1)

theorem positiveNum_positiveIndex {w : NumWord} (h : isPositive w) : positiveNum (positiveIndex w) = w := by
  obtain ⟨hs, h0, hm⟩ := sign_mag_of_isPositive h
  have hi : (positiveIndex w : Nat) + 1 = mag w := by
    simp only [positiveIndex, Fin.val_ofNat, infMag] at hm ⊢
    omega
  rw [positiveNum, hi, ← hs, pack_sign_mag]

/-- The free choice behind a number `≥ 0`. -/
def nonNegChoice (w : NumWord) : Option (Fin 0x7F800001) := if sign w then none else some (Fin.ofNat _ (mag w))

theorem nonNegNum_nonNegChoice {w : NumWord} (hn : isNaN w = false) (hk : 0 ≤ key w) :
    nonNegNum (nonNegChoice w) = w := by
  have hm : mag w ≤ infMag := by simpa [isNaN] using hn
  unfold key at hk
  cases hs : sign w
  · have hi : ((Fin.ofNat 0x7F800001 (mag w)) : Nat) = mag w := by
      simp only [Fin.val_ofNat, infMag] at hm ⊢
      omega
    simp only [nonNegChoice, hs, Bool.false_eq_true, if_false, nonNegNum, hi]
    rw [← hs, pack_sign_mag]
  · have h0 : mag w = 0 := by
      simp only [hs, if_true] at hk
      omega
    simp only [nonNegChoice, hs, if_true, nonNegNum]
    rw [← hs, ← h0, pack_sign_mag]

/-! The parameters as a whole -/

/-- The rows of `FTAB` are the three tables. -/
theorem forall_harmTable_row {P : Fin 3 → Prop} : (∀ m : HarmTable, P m.row) ↔ ∀ m, P m := by
  refine ⟨fun h m => ?_, fun h m => h m.row⟩
  match m with
  | 0 => exact h .standard
  | 1 => exact h .logSpaced
  | 2 => exact h .sqrtSpaced

/-- The free choice of allowed parameters. -/
def choiceOf (p : OpenParams) : FreeParams where
  wtSize := p.wtSize
  wtAmp := p.wtAmp
  baseFreq := positiveIndex p.baseFreq
  epsDiv := positiveIndex p.epsDiv
  ftab := p.ftab.map (fun row => row.map positiveIndex)
  fltK := nonNegChoice p.fltK
  cutCvGain := p.cutCvGain

theorem paramsOf_choiceOf {p : OpenParams} (h : p.allowed) : paramsOf (choiceOf p) = p := by
  obtain ⟨hb, he, hf, hn, hk⟩ := h
  rw [forall_harmTable_row (P := fun m => ∀ i, isPositive ((p.ftab.get m).get i))] at hf
  have hrows : (choiceOf p).ftab.map (fun row => row.map positiveNum) = p.ftab := by
    ext m hm i hi : 2
    simpa [choiceOf, Vector.get_eq_getElem] using positiveNum_positiveIndex (hf ⟨m, hm⟩ ⟨i, hi⟩)
  unfold paramsOf
  rw [hrows]
  simp only [choiceOf, positiveNum_positiveIndex hb, positiveNum_positiveIndex he, nonNegNum_nonNegChoice hn hk]

/-! No step changes the parameters -/

@[simp] theorem State.params_withVoice (s : State) (v : Voice NumWord) : (s.withVoice v).params = s.params := rfl

@[simp] theorem State.params_taken (s : State) (rest : List HostAction) : (s.taken rest).params = s.params := rfl

theorem raiseFault_params {f : FaultBit} {s t : State} (h : raiseFault f s = .next t) : t.params = s.params := by
  cases h; rfl

theorem hostWrite_params {n : RegNum} {w : Word} {s t : State} (h : hostWrite n w s = .next t) :
    t.params = s.params := by
  unfold hostWrite at h
  split at h
  case h_3 =>
    split at h
    · split at h
      · cases h; rfl
      · cases h
    · exact raiseFault_params h
  all_goals cases h; rfl

theorem hostRead_params {n : RegNum} {s t : State} (h : hostRead n s = .next t) : t.params = s.params := by
  unfold hostRead at h
  split at h
  · cases h; rfl
  · exact (raiseFault_params h).trans rfl

theorem hostExec_params {w : Cmd} {s t : State} (h : hostExec w s = .next t) : t.params = s.params := by
  unfold hostExec at h
  split at h
  · obtain ⟨v, -, rfl⟩ := exec_next.mp h
    exact State.params_withVoice s v
  · exact raiseFault_params h

theorem perform_params {a : HostAction} {s t : State} (h : perform a s = .next t) : t.params = s.params := by
  cases a with
  | writeReg n w => exact hostWrite_params h
  | readReg n => exact hostRead_params h
  | exec w => exact hostExec_params h

/-- A step that answers a next state either has nothing to do or performs the first pending action. -/
theorem step_next {s t : State} (h : step s = .next t) :
    (s.pending = [] ∧ t = s) ∨ ∃ a rest, s.pending = a :: rest ∧ perform a (s.taken rest) = .next t := by
  unfold step takeAction at h
  cases hp : s.pending with
  | nil => simp only [hp] at h; cases h; exact .inl ⟨rfl, rfl⟩
  | cons a rest => simp only [hp] at h; exact .inr ⟨a, rest, rfl, h⟩

theorem step_params {s t : State} (h : step s = .next t) : t.params = s.params := by
  obtain ⟨-, rfl⟩ | ⟨a, rest, -, hp⟩ := step_next h
  · rfl
  · simpa using perform_params hp

/-- Settles O53: every allowed choice comes from its indices, and each host action keeps the parameters. -/
theorem parametersMeetConstraints : Obligations.ParametersMeetConstraints := by
  refine ⟨paramsOf_allowed _, fun p => ⟨fun h => ⟨choiceOf p, paramsOf_choiceOf h⟩, ?_⟩, fun s t => step_params,
    fun p => ?_⟩
  · rintro ⟨f, rfl⟩
    exact paramsOf_allowed f
  · rw [← forall_harmTable_row (P := fun m => ∀ i, isNaN ((p.ftab.get m).get i) = false ∧ 0 < key ((p.ftab.get m).get i))]
    rfl

end Sys2Proof.Machine
end

section
/-! PROOFS. 00_scope.md R11: comparison and floor are exact. -/

namespace Sys2Proof.F32

open Sys2Proof.Machine

theorem lt_of_not_nan {a b : NumWord} (ha : isNaN a = false) (hb : isNaN b = false) :
    lt a b = .ok (decide (key a < key b)) := by
  simp [lt, ha, hb]

theorem le_of_not_nan {a b : NumWord} (ha : isNaN a = false) (hb : isNaN b = false) :
    le a b = .ok (decide (key a ≤ key b)) := by
  simp [le, ha, hb]

theorem lt_finite {a b : NumWord} (ha : isFinite a = true) (hb : isFinite b = true) :
    lt a b = .ok (decide (units a < units b)) := by
  simp only [lt_of_not_nan (isNaN_of_isFinite ha) (isNaN_of_isFinite hb), units_lt_iff]

theorem le_finite {a b : NumWord} (ha : isFinite a = true) (hb : isFinite b = true) :
    le a b = .ok (decide (units a ≤ units b)) := by
  simp only [le_of_not_nan (isNaN_of_isFinite ha) (isNaN_of_isFinite hb), units_le_iff]

theorem floor_finite {a : NumWord} (ha : isFinite a = true) : floor a = .ok (some (units a / 2 ^ 149)) := by
  simp [floor, isNaN_of_isFinite ha, isInf_of_isFinite ha]

theorem floor_realValue (a : NumWord) : ⌊realValue a⌋ = units a / 2 ^ 149 := by
  have h := Int.floor_div_natCast (units a : ℝ) (2 ^ 149)
  rw [Int.floor_intCast] at h
  rw [realValue]
  exact_mod_cast h

/-- A finite number lies strictly between the infinities. -/
theorem key_finite {a : NumWord} (ha : isFinite a = true) : key 0xFF800000 < key a ∧ key a < key 0x7F800000 := by
  have hm : mag a < infMag := by simpa [isFinite] using ha
  have hinf : key 0x7F800000 = infMag ∧ key 0xFF800000 = -infMag := by decide
  rw [hinf.1, hinf.2]
  unfold key
  split <;> omega

theorem isNaN_inf : isNaN 0x7F800000 = false ∧ isNaN 0xFF800000 = false := by decide

/-- A clamp of numbers that are no NaN is the clamp by order keys. -/
theorem clamp_of_not_nan {x lo hi : NumWord} (hx : isNaN x = false) (hlo : isNaN lo = false) (hhi : isNaN hi = false) :
    clamp f32 x lo hi = .ok (clampWord x lo hi) := by
  simp only [clamp, f32, lt_of_not_nan hx hlo, lt_of_not_nan hhi hx, calc_ok_bind, calc_pure, clampWord,
    decide_eq_true_eq]

/-- Settles O55: keys order finite numbers as their units do, and an infinity's key lies outside. -/
theorem comparisonAndFloorAreExact : Obligations.ComparisonAndFloorAreExact := by
  refine ⟨fun a b ha hb => ⟨lt_finite ha hb, le_finite ha hb, _, floor_finite ha, (floor_realValue a).symm⟩,
    fun a ha => ?_, fun lo hi hlo hhi _ => ?_⟩
  · obtain ⟨hbelow, habove⟩ := key_finite ha
    rw [lt_of_not_nan (isNaN_of_isFinite ha) isNaN_inf.1, lt_of_not_nan isNaN_inf.2 (isNaN_of_isFinite ha),
      decide_eq_true habove, decide_eq_true hbelow]
    exact ⟨rfl, rfl⟩
  · rw [clamp_of_not_nan isNaN_inf.1 (isNaN_of_isFinite hlo) (isNaN_of_isFinite hhi),
      clamp_of_not_nan isNaN_inf.2 (isNaN_of_isFinite hlo) (isNaN_of_isFinite hhi)]
    simp only [clampWord, (key_finite hlo).2.not_gt, (key_finite hhi).2, (key_finite hlo).1, if_true, if_false,
      and_self]

end Sys2Proof.F32
end

section
/-! PROOFS. 00_scope.md R11: every operation is rounded once to nearest, ties to even. -/

namespace Sys2Proof.F32

open Sys2Proof.Machine

/-! Rounding to an integer -/

/-- Halfway between two integers the even one is taken. -/
theorem nearestEven_even_of_tie {n d : Nat} (hd : 0 < d) (h : 2 * |(nearestEven n d * d - n : Int)| = d) :
    nearestEven n d % 2 = 0 := by
  have hdiv : ((n / d : Nat) : Int) * d + (n % d : Nat) = n := by exact_mod_cast Nat.div_add_mod' n d
  have hmod := Nat.mod_lt n hd
  unfold nearestEven at h ⊢
  split
  · next hc =>
    rw [if_pos hc, show ((n / d : Nat) * d - n : Int) = -(n % d : Nat) by omega, abs_neg, Nat.abs_cast] at h
    omega
  · next hc =>
    rw [if_neg hc, show (((n / d + 1 : Nat) : Int) * d - n) = d - (n % d : Nat) by push_cast at hdiv ⊢; linarith,
      abs_of_nonneg (by omega)] at h
    omega

/-- No integer is nearer to `n / d` than `nearestEven n d`, and where another is as near the answer is even. -/
theorem nearestEven_nearest {n d : Nat} (hd : 0 < d) (p : Int) :
    |(nearestEven n d * d - n : Int)| ≤ |p * d - n| ∧
      (|(nearestEven n d * d - n : Int)| = |p * d - n| → p ≠ nearestEven n d → nearestEven n d % 2 = 0) := by
  by_cases hp : p = nearestEven n d
  · exact ⟨by rw [hp], fun _ h => absurd hp h⟩
  · have hhalf : 2 * |(nearestEven n d * d - n : Int)| ≤ d := by
      obtain ⟨h1, h2⟩ := nearestEven_bounds n d hd
      zify at h1 h2
      rcases abs_cases (nearestEven n d * d - n : Int) with ⟨e, -⟩ | ⟨e, -⟩ <;> rw [e] <;> linarith
    have hapart : (d : Int) ≤ |p * d - n| + |(nearestEven n d * d - n : Int)| := by
      calc (d : Int) ≤ |p - nearestEven n d| * d :=
            le_mul_of_one_le_left (by omega) (Int.one_le_abs (sub_ne_zero.mpr hp))
        _ = |(p * d - n) - (nearestEven n d * d - n)| := by
            rw [sub_sub_sub_cancel_right, ← sub_mul, abs_mul, Nat.abs_cast]
        _ ≤ _ := abs_sub _ _
    exact ⟨by omega, fun h _ => nearestEven_even_of_tie hd (by omega)⟩

/-! The magnitude before it is cut off at infinity -/

/-- The magnitude word nearest to `n / d` units in an exponent range without end. -/
def unboundedMag (n d : Nat) : Nat := shift n d * 2 ^ 23 + nearestEven n (d * 2 ^ shift n d)

theorem unboundedMag_mod_two (n d : Nat) : unboundedMag n d % 2 = nearestEven n (d * 2 ^ shift n d) % 2 := by
  unfold unboundedMag; omega

/-- The size at a significand that rounding may have carried to 25 bits. -/
theorem scale_shift_add {s q : Nat} (hq : q ≤ 2 ^ 24) (hs : s ≠ 0 → 2 ^ 23 ≤ q) :
    scale (s * 2 ^ 23 + q) = q * 2 ^ s := by
  by_cases hlow : q < 2 ^ 23
  · obtain rfl : s = 0 := by by_contra h; have := hs h; omega
    rw [Nat.zero_mul, Nat.zero_add, scale_of_lt hlow, Nat.pow_zero, Nat.mul_one]
  · rcases hq.lt_or_eq with hlt | rfl
    · exact scale_shift s q (by omega) hlt
    · rw [show s * 2 ^ 23 + 2 ^ 24 = (s + 1) * 2 ^ 23 + 2 ^ 23 by ring, scale_shift (s + 1) _ le_rfl (by decide)]
      ring

theorem scale_unboundedMag {n d : Nat} (hd : 0 < d) :
    scale (unboundedMag n d) = nearestEven n (d * 2 ^ shift n d) * 2 ^ shift n d := by
  obtain ⟨hq, hs⟩ := significand_bounds n d hd
  exact scale_shift_add hq hs

/-- A size of at least 24 bits before the shift is a multiple of the shift's unit. -/
theorem dvd_scale {s m : Nat} (h : 2 ^ 23 * 2 ^ s ≤ scale m) : 2 ^ s ∣ scale m := by
  rcases mag_cases m with hm | ⟨t, q, rfl, h1, h2⟩
  · rw [scale_of_lt hm] at h
    have := Nat.le_mul_of_pos_right (2 ^ 23) (Nat.two_pow_pos s)
    omega
  · rw [scale_shift t q h1 h2] at h ⊢
    have hlt : 2 ^ (23 + s) < 2 ^ (24 + t) := by
      rw [Nat.pow_add, Nat.pow_add]
      exact h.trans_lt (Nat.mul_lt_mul_of_pos_right h2 (Nat.two_pow_pos t))
    have hst : s ≤ t := by
      have := (Nat.pow_lt_pow_iff_right (by decide : 1 < 2)).mp hlt
      omega
    exact (Nat.pow_dvd_pow 2 hst).mul_left q

/-- No magnitude word is nearer to `n / d` units, and where another is as near the answer is even. -/
theorem unboundedMag_nearest {n d : Nat} (hd : 0 < d) (m : Nat) :
    |(scale (unboundedMag n d) * d - n : Int)| ≤ |(scale m * d - n : Int)| ∧
      (|(scale (unboundedMag n d) * d - n : Int)| = |(scale m * d - n : Int)| → scale m ≠ scale (unboundedMag n d) →
        unboundedMag n d % 2 = 0) := by
  have hD : 0 < d * 2 ^ shift n d := Nat.mul_pos hd (Nat.two_pow_pos _)
  have hunit : ∀ p : Nat, ((p * 2 ^ shift n d : Nat) : Int) * d = p * (d * 2 ^ shift n d : Nat) := fun p => by
    push_cast; ring
  rw [unboundedMag_mod_two, scale_unboundedMag hd, hunit]
  by_cases hm : 2 ^ shift n d ∣ scale m
  · -- a multiple of the unit of the last place: rounding to an integer decides
    obtain ⟨p, hp⟩ := hm
    rw [Nat.mul_comm] at hp
    obtain ⟨hle, htie⟩ := nearestEven_nearest (n := n) hD (p : Int)
    rw [hp, hunit]
    exact ⟨hle, fun h hne => htie h fun e => hne (by rw [Nat.cast_inj.mp e])⟩
  · -- a finer number lies below `2 ^ 23` such units, which are at most `n / d`, and so is farther
    have hs : shift n d ≠ 0 := fun h => hm (by simp [h])
    have hlow : scale m * d < 2 ^ 23 * (d * 2 ^ shift n d) := by
      have := Nat.mul_lt_mul_of_pos_right (not_le.mp fun h => hm (dvd_scale h)) hd
      calc scale m * d < 2 ^ 23 * 2 ^ shift n d * d := this
        _ = _ := by ring
    have hn : 2 ^ 23 * (d * 2 ^ shift n d) ≤ n := by
      rw [Nat.mul_comm]; exact (shift_bounds n d hd).2 hs
    have hlt : |(nearestEven n (d * 2 ^ shift n d) * (d * 2 ^ shift n d : Nat) - n : Int)| < |(scale m * d - n : Int)| := by
      refine (nearestEven_nearest (n := n) hD (2 ^ 23)).1.trans_lt ?_
      zify at hlow hn ⊢
      rw [abs_of_nonpos (by linarith), abs_of_nonpos (by linarith)]
      linarith
    exact ⟨hlt.le, fun h => absurd h hlt.ne⟩

/-! Overflow -/

/-- The midpoint of the largest finite number and `2^128`, in units. -/
def overflowUnits : Nat := (2 ^ 25 - 1) * 2 ^ 252

theorem scale_infMag : scale infMag = 2 ^ 25 * 2 ^ 252 := by decide +kernel

theorem scale_max : scale (infMag - 1) = (2 ^ 25 - 2) * 2 ^ 252 := by decide +kernel

/-- Below the midpoint the largest finite number is nearer than `2^128`. -/
theorem unboundedMag_lt {n d : Nat} (hd : 0 < d) (h : n < overflowUnits * d) : unboundedMag n d < infMag := by
  by_contra hc
  have hbig : scale infMag * d ≤ scale (unboundedMag n d) * d :=
    Nat.mul_le_mul_right d (scale_strictMono.monotone (not_lt.mp hc))
  obtain ⟨hnear, -⟩ := unboundedMag_nearest (n := n) hd (infMag - 1)
  rw [← Nat.cast_mul, ← Nat.cast_mul, scale_max, Nat.mul_assoc] at hnear
  rw [scale_infMag, Nat.mul_assoc] at hbig
  rw [overflowUnits, Nat.mul_assoc] at h
  generalize 2 ^ 252 * d = u at hbig hnear h
  rw [abs_of_nonneg (by omega)] at hnear
  rcases abs_cases (((2 ^ 25 - 2) * u : Nat) - n : Int) with ⟨e, -⟩ | ⟨e, -⟩ <;> rw [e] at hnear <;> omega

theorem roundMag_of_lt {n d : Nat} (hd : 0 < d) (h : n < overflowUnits * d) : roundMag n d = unboundedMag n d :=
  min_eq_left (unboundedMag_lt hd h).le

theorem roundMag_of_le {n d : Nat} (hd : 0 < d) (h : overflowUnits * d ≤ n) : roundMag n d = infMag := by
  refine le_antisymm (roundMag_le n d) ?_
  calc infMag = roundMag overflowUnits 1 := by decide +kernel
    _ ≤ roundMag n d := roundMag_mono Nat.one_pos hd (by rwa [Nat.mul_one])

/-! Rounding among signed numbers -/

theorem getLsbD_zero (w : NumWord) : w.getLsbD 0 = decide (mag w % 2 = 1) := by
  rw [BitVec.getLsbD, Nat.testBit_zero, toNat_eq]
  split <;> simp [Nat.add_mod]

theorem units_round_false (n d : Nat) : units (round false n d) = scale (roundMag n d) := by
  simp [units]

/-- No number is nearer to `n / d ≥ 0` units, and where another is as near the answer's last bit is 0. -/
theorem round_nearest {n d : Nat} (hd : 0 < d) (h : n < overflowUnits * d) (w : NumWord) :
    |units (round false n d) * d - n| ≤ |units w * d - n| ∧
      (|units (round false n d) * d - n| = |units w * d - n| → units w ≠ units (round false n d) →
        (round false n d).getLsbD 0 = false) := by
  rw [units_round_false, getLsbD_zero, mag_round, roundMag_of_lt hd h]
  have hnear := unboundedMag_nearest (n := n) hd
  by_cases hs : sign w = true
  · -- a number not above 0 is as near as 0 at most
    obtain ⟨hle, htie⟩ := hnear 0
    have hu : units w = -scale (mag w) := if_pos hs
    have h0 : (0 : Int) ≤ scale (mag w) * d := by positivity
    have hw : |units w * d - n| = scale (mag w) * d + n := by
      rw [hu, abs_of_nonpos (by linarith)]; ring
    rw [scale_zero, Nat.cast_zero, zero_mul, zero_sub, abs_neg, Nat.abs_cast] at hle htie
    rw [hw]
    refine ⟨by linarith, fun he hne => ?_⟩
    have hz : scale (mag w) * d = 0 := by zify; linarith
    rcases Nat.mul_eq_zero.mp hz with hz | hz
    · rw [hu, hz, Nat.cast_zero, neg_zero] at hne
      simpa using htie (by linarith) (by exact_mod_cast hne)
    · omega
  · have hu : units w = scale (mag w) := if_neg hs
    rw [hu]
    exact ⟨(hnear _).1, fun he hne => by simpa using (hnear _).2 he (by exact_mod_cast hne)⟩

/-! Rounding of real numbers -/

theorem realValue_neg (w : NumWord) : realValue (neg w) = -realValue w := by
  simp [realValue, neg_div]

theorem abs_realValue_sub (w : NumWord) {n d : Nat} (hd : 0 < d) :
    |realValue w - n / (d * 2 ^ 149)| = (|units w * d - n| : Int) / (d * 2 ^ 149 : ℝ) := by
  have hd' : (0 : ℝ) < d := by exact_mod_cast hd
  have hpos : (0 : ℝ) < d * 2 ^ 149 := by positivity
  rw [Int.cast_abs, ← abs_of_pos hpos, ← abs_div, abs_of_pos hpos, realValue]
  congr 1
  push_cast
  field_simp

/-- Rounding a quotient of units that is not negative. -/
theorem roundsTo_round_false {n d : Nat} (hd : 0 < d) :
    RoundsTo (.ok (round false n d)) (n / (d * 2 ^ 149)) := by
  have hd' : (0 : ℝ) < d := by exact_mod_cast hd
  have hpos : (0 : ℝ) < d * 2 ^ 149 := by positivity
  have hx : (0 : ℝ) ≤ n / (d * 2 ^ 149) := by positivity
  have hbound : (2 ^ 128 - 2 ^ 103 : ℝ) * (d * 2 ^ 149) = (overflowUnits * d : Nat) := by
    rw [overflowUnits]; push_cast; ring
  refine ⟨_, rfl, ?_, ?_⟩ <;> rw [abs_of_nonneg hx]
  · rw [div_lt_iff₀ hpos, hbound, Nat.cast_lt]
    intro h
    refine ⟨?_, fun w _ => ?_⟩
    · simpa [isFinite, roundMag_of_lt hd h] using unboundedMag_lt hd h
    · obtain ⟨hle, htie⟩ := round_nearest hd h w
      rw [abs_realValue_sub _ hd, abs_realValue_sub _ hd, div_le_div_iff_of_pos_right hpos, Int.cast_le,
        div_left_inj' hpos.ne', Int.cast_inj]
      exact ⟨hle, fun he hne => htie he fun e => hne (by rw [realValue, e, realValue])⟩
  · rw [le_div_iff₀ hpos, hbound, Nat.cast_le]
    intro h
    refine ⟨fun _ => ?_, fun hneg => absurd hneg hx.not_gt⟩
    rw [round, roundMag_of_le hd h]
    rfl

/-- Rounding is symmetric about 0. -/
theorem roundsTo_neg {r : NumWord} {x : ℝ} (h : RoundsTo (.ok r) x) : RoundsTo (.ok (neg r)) (-x) := by
  obtain ⟨_, hr, hin, hout⟩ := h
  cases hr
  have hdist : ∀ v, |realValue v - -x| = |realValue (neg v) - x| := fun v => by
    rw [realValue_neg, sub_neg_eq_add, ← neg_add', abs_neg]
  have hr : |realValue (neg r) - -x| = |realValue r - x| := by
    rw [realValue_neg, neg_sub_neg, abs_sub_comm]
  refine ⟨_, rfl, fun hx => ?_, fun hx => ?_⟩ <;> rw [abs_neg] at hx
  · obtain ⟨hfin, hnear⟩ := hin hx
    refine ⟨by rwa [isFinite_neg], fun w hw => ?_⟩
    obtain ⟨hle, htie⟩ := hnear (neg w) (by rwa [isFinite_neg])
    rw [hr, hdist w, getLsbD_zero, mag_neg, ← getLsbD_zero]
    exact ⟨hle, fun he hne => htie he fun e => hne (by rw [realValue_neg, ← e, realValue_neg, neg_neg])⟩
  · obtain ⟨hp, hn⟩ := hout hx
    exact ⟨fun h => by rw [hn (neg_pos.mp h)]; rfl, fun h => by rw [hp (neg_lt_zero.mp h)]; rfl⟩

/-- `round s n d` is `± n / d` units, rounded once. -/
theorem roundsTo_round {s : Bool} {n d : Nat} {x : ℝ} (hd : 0 < d) (hx : signed s n / (d * 2 ^ 149) = x) :
    RoundsTo (.ok (round s n d)) x := by
  rw [← hx]
  cases s with
  | false => simpa [signed] using roundsTo_round_false (n := n) hd
  | true =>
    have h := roundsTo_neg (roundsTo_round_false (n := n) hd)
    rw [neg_round] at h
    simpa [signed, neg_div] using h

/-! The four operations -/

theorem signed_div (a b : NumWord) (k : Nat) :
    (signed (sign a != sign b) (scale (mag a) * k) : ℝ) / scale (mag b) = units a * k / units b := by
  unfold signed units
  cases sign a <;> cases sign b <;> simp [neg_div, div_neg]

theorem isZero_of_realValue_ne_zero {w : NumWord} (h : realValue w ≠ 0) : isZero w = false := by
  simp only [isZero, decide_eq_false_iff_not]
  exact fun h0 => h (by simp [realValue, units, h0])

theorem roundsTo_add {a b : NumWord} (ha : isFinite a = true) (hb : isFinite b = true) :
    RoundsTo (add a b) (realValue a + realValue b) := by
  rw [add_finite ha hb, ofUnits]
  refine roundsTo_round Nat.one_pos ?_
  rw [signed_natAbs, realValue, realValue]
  push_cast; ring

theorem roundsTo_sub {a b : NumWord} (ha : isFinite a = true) (hb : isFinite b = true) :
    RoundsTo (sub a b) (realValue a - realValue b) := by
  have h := roundsTo_add ha ((isFinite_neg b).trans hb)
  rwa [realValue_neg, ← sub_eq_add_neg] at h

theorem roundsTo_mul {a b : NumWord} (ha : isFinite a = true) (hb : isFinite b = true) :
    RoundsTo (mul a b) (realValue a * realValue b) := by
  rw [mul_finite ha hb]
  refine roundsTo_round (Nat.two_pow_pos 149) ?_
  rw [signed_mul, realValue, realValue]
  push_cast; ring

theorem roundsTo_div {a b : NumWord} (ha : isFinite a = true) (hb : isFinite b = true) (h0 : realValue b ≠ 0) :
    RoundsTo (div a b) (realValue a / realValue b) := by
  have hz := isZero_of_realValue_ne_zero h0
  have hpos : 0 < scale (mag b) := scale_pos (Nat.pos_of_ne_zero (by simpa [isZero] using hz))
  rw [div_finite ha hb hz]
  refine roundsTo_round hpos ?_
  rw [← div_div, signed_div, realValue, realValue, div_div_div_cancel_right₀ (by positivity), Nat.cast_pow, Nat.cast_ofNat,
    div_right_comm, mul_div_cancel_right₀ _ (by positivity)]

/-- Settles O54: on finite operands each operation is one `round` of the exact result in units. -/
theorem operationsRoundToNearestEven : Obligations.OperationsRoundToNearestEven := fun _ _ ha hb =>
  ⟨roundsTo_add ha hb, roundsTo_sub ha hb, roundsTo_mul ha hb, roundsTo_div ha hb⟩

end Sys2Proof.F32
end

section
/-! PROOFS. 00_scope.md R12: the properties of `SIN2PI`, `EXP2` and `PI`. -/

namespace Sys2Proof.Machine

open F32

/-! `SIN2PI` -/

theorem key_oneW : key oneW = oneMag := by decide

/-- A number of at most 1 in size lies between -1 and 1. -/
theorem key_between_of_mag_le {w : NumWord} (h : mag w ≤ oneMag) : key (neg oneW) ≤ key w ∧ key w ≤ key oneW := by
  rw [key_neg, key_oneW]
  unfold key
  split <;> omega

/-- `SIN2PI` at the quarters, by the cases of `sinOf`. -/
theorem sin2pi_quarters (p : OpenParams) :
    (configOf p).sin2pi 0 = 0 ∧ (configOf p).sin2pi 0x3E800000 = oneW ∧ (configOf p).sin2pi 0x3F000000 = 0 ∧
      (configOf p).sin2pi 0x3F400000 = neg oneW :=
  ⟨rfl, rfl, rfl, rfl⟩

theorem sin2pi_negZero (p : OpenParams) : mag ((configOf p).sin2pi 0x80000000) = 0 :=
  mag_pack (Config.freeSin 0x80000000).1 (by decide)

/-! `EXP2` -/

theorem key_pack_false {m : Nat} (h : m < 2 ^ 31) : key (pack false m) = m := by
  simp [key, sign_pack false h, mag_pack false h]

theorem units_pack_false {m : Nat} (h : m < 2 ^ 31) : units (pack false m) = scale m := by
  simp [units, sign_pack false h, mag_pack false h]

theorem expLow_mono {a b : Int} (h : a ≤ b) : expLow a ≤ expLow b := by
  unfold expLow; split_ifs <;> omega

theorem expHigh_mono {a b : Int} (h : a ≤ b) : expHigh a ≤ expHigh b := by
  unfold expHigh infMag; split_ifs <;> omega

theorem monoApp_mono (f : MonoFn) {a b : Int} (h : a ≤ b) : monoApp f a ≤ monoApp f b := by
  cases f with
  | ident => exact h
  | mk f mono => exact mono a b h

/-- The two cases of `expMag` are one: where the bounds agree, being kept between them is being their value. -/
theorem expMag_eq (f : MonoFn) (u k : Int) :
    expMag f u k =
      max (expLow (u / 2 ^ 149)) (min (expHigh (-(-u / 2 ^ 149))) (monoApp f k).toNat) := by
  unfold expMag
  split
  · next h => rw [← h]; exact (max_eq_left (min_le_left _ _)).symm
  · rfl

theorem expMag_mono (f : MonoFn) {u u' k k' : Int} (hu : u ≤ u') (hk : k ≤ k') : expMag f u k ≤ expMag f u' k' := by
  rw [expMag_eq, expMag_eq]
  refine max_le_max (expLow_mono (by omega)) (min_le_min (expHigh_mono (by omega)) ?_)
  exact Int.toNat_le_toNat (monoApp_mono f hk)

/-- At an infinity too the power is the one of its units, `2^128` or `-2^128`, and its key. -/
theorem expOf_eq_pack (f : MonoFn) {x : NumWord} (hx : isNaN x = false) :
    expOf f x = pack false (expMag f (units x) (key x)) := by
  unfold expOf
  split
  · rfl
  · next hfin =>
    have hinf : mag x = infMag := by simp [isNaN, isFinite] at hx hfin; omega
    split
    · next hs =>
      have hu : units x = -(2 ^ 25 * 2 ^ 252) := by simp [units, hs, hinf, scale_infMag]
      have hlow : expLow (units x / 2 ^ 149) = 0 := by rw [hu]; decide +kernel
      have hhigh : expHigh (-(-units x / 2 ^ 149)) = 2 ^ 23 := by rw [hu]; decide +kernel
      rw [expMag_eq, hlow, hhigh, Nat.zero_max]
    · next hs =>
      have hu : units x = 2 ^ 25 * 2 ^ 252 := by simp [units, hs, hinf, scale_infMag]
      have hlow : expLow (units x / 2 ^ 149) = 254 * 2 ^ 23 := by rw [hu]; decide +kernel
      have hhigh : expHigh (-(-units x / 2 ^ 149)) = infMag := by rw [hu]; decide +kernel
      rw [expMag_eq, hlow, hhigh]

theorem key_expOf (f : MonoFn) {x : NumWord} (hx : isNaN x = false) :
    key (expOf f x) = expMag f (units x) (key x) := by
  rw [expOf_eq_pack f hx, key_pack_false ((expMag_le f _ _).trans_lt infMag_lt)]

/-- `EXP2` is monotone among the numbers that are no NaN. -/
theorem expOf_mono (f : MonoFn) {x y : NumWord} (hx : isNaN x = false) (hy : isNaN y = false) (h : key x ≤ key y) :
    key (expOf f x) ≤ key (expOf f y) := by
  rw [key_expOf f hx, key_expOf f hy]
  exact_mod_cast expMag_mono f (units_le_iff.mpr h) h

/-- At an integer in the range of R12(c) the two bounds are the power of two itself. -/
theorem expMag_integer (f : MonoFn) {n : Int} (k : Int) (h1 : -126 ≤ n) (h2 : n ≤ 127) :
    expMag f (n * 2 ^ 149) k = (n + 127).toNat * 2 ^ 23 := by
  have hfloor : n * 2 ^ 149 / 2 ^ 149 = n := by omega
  have hceil : -(-(n * 2 ^ 149) / 2 ^ 149) = n := by omega
  have hlow : expLow n = (n + 127).toNat * 2 ^ 23 := by unfold expLow; split_ifs <;> omega
  have hhigh : expHigh n = (n + 127).toNat * 2 ^ 23 := by unfold expHigh; split_ifs <;> omega
  rw [expMag, hfloor, hceil, if_pos (hlow.trans hhigh.symm), hlow]

/-- The size of the power of two with exponent field `e`. -/
theorem scale_exponent {e : Nat} (h : 0 < e) : scale (e * 2 ^ 23) = 2 ^ (e + 22) := by
  obtain ⟨s, rfl⟩ := Nat.exists_eq_succ_of_ne_zero h.ne'
  rw [Nat.succ_mul, scale_shift s _ le_rfl (by decide), ← Nat.pow_add]
  congr 1; omega

theorem expOf_integer (f : MonoFn) {x : NumWord} {n : Int} (hx : isFinite x = true) (h1 : -126 ≤ n) (h2 : n ≤ 127)
    (hn : units x = n * 2 ^ 149) :
    isFinite (expOf f x) = true ∧ units (expOf f x) = 2 ^ (n + 149).toNat := by
  have he : (n + 127).toNat * 2 ^ 23 < infMag := by unfold infMag; omega
  rw [expOf_eq_pack f (isNaN_of_isFinite hx), hn, expMag_integer f _ h1 h2]
  refine ⟨isFinite_pack he, ?_⟩
  rw [units_pack_false (he.trans infMag_lt), scale_exponent (by omega), show (n + 127).toNat + 22 = (n + 149).toNat by omega]
  norm_cast

/-! `PI` -/

/-- The finite number below `PI`. -/
def belowPi : NumWord := 0x40490FDA

theorem isFinite_piNum : isFinite piNum = true := by decide

theorem realValue_piNum : realValue piNum = 13176795 / 2 ^ 22 := by
  rw [realValue, show units piNum = 13176795 * 2 ^ 127 by decide +kernel]
  norm_num

theorem realValue_belowPi : realValue belowPi = 13176794 / 2 ^ 22 := by
  rw [realValue, show units belowPi = 13176794 * 2 ^ 127 by decide +kernel]
  norm_num

theorem realValue_le_iff {a b : NumWord} : realValue a ≤ realValue b ↔ key a ≤ key b := by
  rw [realValue, realValue, div_le_div_iff_of_pos_right (by positivity), Int.cast_le, units_le_iff]

/-- No number lies between the two neighbours of π. -/
theorem realValue_around_pi (w : NumWord) : realValue w ≤ realValue belowPi ∨ realValue piNum ≤ realValue w := by
  rw [realValue_le_iff, realValue_le_iff, show key belowPi = key piNum - 1 by decide]
  omega

/-- π lies between the two, above their middle. -/
theorem piNum_nearest (w : NumWord) : |realValue piNum - Real.pi| ≤ |realValue w - Real.pi| := by
  have hgt := Real.pi_gt_d20
  have hlt := Real.pi_lt_d20
  have habove : Real.pi ≤ realValue piNum := by rw [realValue_piNum]; norm_num at *; linarith
  have hmiddle : realValue belowPi + realValue piNum ≤ 2 * Real.pi := by
    rw [realValue_piNum, realValue_belowPi]; norm_num at *; linarith
  rw [abs_of_nonneg (sub_nonneg.mpr habove)]
  rcases realValue_around_pi w with h | h
  · rw [abs_sub_comm]
    exact (by linarith : _ ≤ Real.pi - realValue w).trans (le_abs_self _)
  · exact (by linarith : _ ≤ realValue w - Real.pi).trans (le_abs_self _)

/-- Settles O52: the cases of `sinOf`, the bounds of `expMag`, and the two neighbours of π. -/
theorem sineAndPowerProperties : Obligations.SineAndPowerProperties := by
  intro s
  obtain ⟨h0, h1, h2, h3⟩ := sin2pi_quarters s.params
  refine ⟨fun x hx => ⟨sin2pi_finite hx, key_between_of_mag_le (sin2pi_mag hx)⟩,
    ⟨h0, h1, h2, h3, sin2pi_negZero s.params⟩,
    fun x hx => ⟨exp2_not_nan x, ?_⟩, fun x y => expOf_mono Config.freeExp2,
    fun x n => expOf_integer Config.freeExp2, isFinite_piNum, fun w _ => piNum_nearest w⟩
  exact (Int.natCast_nonneg _).trans_eq (key_expOf Config.freeExp2 (isNaN_of_isFinite hx)).symm

end Sys2Proof.Machine
end

section
/-! PROOFS. What a command can do: it answers exactly where it raises a fault or performs its rule (30_encoding.md R82,
R84; 60_exceptions.md R203, R204). -/

namespace Sys2Proof.Machine

variable {ν : Type} {N : Numerics ν} {c : Config ν} {i : Instr} {v w : Voice ν}

/-! The two ways to answer -/

/-- `Performs N c v i w`: on the block `v` the command `i` performs its rule, without a fault, and leaves `w`. -/
inductive Performs (N : Numerics ν) (c : Config ν) (v : Voice ν) : Instr → Voice ν → Prop
  | nop : Performs N c v (.nop 0) v
  | wtBuild {m : Memory ν} (hb : v.wtb = false) (hm : wtFill N c v.wt = .ok m) :
    Performs N c v (.wtBuild 0) ((v.setWt m).setStatus (setBit v.status wtbBit))
  | wtLookup {idx : Idx} {j : Fin 11} {x : ν} (hj : phaseIdx idx = some j) (hb : v.wtb = true)
    (hx : Sys2Proof.Machine.wtLookup N c v.wt (v.num (.ph j)) = .ok x) :
    Performs N c v (.wtLookup idx) (v.setNum .r0 x)
  | phAdv {idx : Idx} {j : Fin 11} {q : ν} (hj : phaseIdx idx = some j)
    (hq : phaseAdvance N (v.num (.ph j)) (v.num .a0) (v.num .dt) = .ok q) :
    Performs N c v (.phAdv idx) ((v.setNum (.ph j) q).setNum .r0 q)
  | phRst {idx : Idx} {j : Fin 11} (hj : phaseIdx idx = some j) :
    Performs N c v (.phRst idx) (v.setNum (.ph j) (int N 0))
  | frqCv {idx : Idx} {k : Fin 3} {f : ν} (hk : chainIdx idx = some k) (hf : chainFreq N c v k = .ok f) :
    Performs N c v (.frqCv idx) (v.setNum (.freq k) f)
  | wgSint {idx : Idx} {j : Fin 11} {x : ν} (hj : phaseIdx idx = some j) (hb : v.wtb = true)
    (hx : sineTable N c v.wt (v.num (.ph j)) = .ok x) : Performs N c v (.wgSint idx) (v.setNum .r0 x)
  | wgSind {idx : Idx} {j : Fin 11} {x : ν} (hj : phaseIdx idx = some j)
    (hx : sineDirect N c (v.num (.ph j)) = .ok x) : Performs N c v (.wgSind idx) (v.setNum .r0 x)
  | wgTri {idx : Idx} {j : Fin 11} {x : ν} (hj : phaseIdx idx = some j) (hx : tri N (v.num (.ph j)) = .ok x) :
    Performs N c v (.wgTri idx) (v.setNum .r0 x)
  | wgSaw {idx : Idx} {j : Fin 11} {x : ν} (hj : phaseIdx idx = some j) (hx : saw N (v.num (.ph j)) = .ok x) :
    Performs N c v (.wgSaw idx) (v.setNum .r0 x)
  | wgSqr {idx : Idx} {j : Fin 11} {x : ν} (hj : phaseIdx idx = some j)
    (hx : square N (v.num (.ph j)) (v.num .a0) = .ok x) : Performs N c v (.wgSqr idx) (v.setNum .r0 x)
  | pwMod {idx : Idx} {k : Fin 3} {x : ν} (hk : chainIdx idx = some k)
    (hx : pulseWidth N (v.num (.pw k)) (v.num (.pwmAmt k)) (v.num (.pwmCv k)) = .ok x) :
    Performs N c v (.pwMod idx) (v.setNum (.width k) x)
  | hbTick {w : Voice ν} (hb : bankUnbuilt v = false) (hw : Sys2Proof.Machine.hbTick N c v = .ok w) :
    Performs N c v (.hbTick 0) w
  | envStep {idx : Idx} {k : Fin 3} {w : Voice ν} (hk : chainIdx idx = some k)
    (hw : Sys2Proof.Machine.envStep N c k v = .ok w) :
    Performs N c v (.envStep idx) (w.setNum .r0 (w.num (.envOut k)))
  | envRst {idx : Idx} {k : Fin 3} (hk : chainIdx idx = some k) :
    Performs N c v (.envRst idx) (v.setEnvUnit k (envUnitReset N))
  | fltProc {idx : Idx} {k : Fin 3} {y : ν} (hk : chainIdx idx = some k)
    (hy : fltStep N c (v.num .sr) (v.num (.fltOut k)) (v.num .a0) (v.num .a1) (sw (v.cfgc.get k)) = .ok y) :
    Performs N c v (.fltProc idx) ((v.setNum (.fltOut k) y).setNum .r0 y)
  | cutMod {idx : Idx} {k : Fin 3} {m : CutMode} {x : ν} (hk : chainIdx idx = some k)
    (hm : cmod (v.cfgc.get k) = some m) (hx : cutoffBy N c m (v.num (.cut k)) (v.num (.cutCv k)) = .ok x) :
    Performs N c v (.cutMod idx) (v.setNum (.cutoff k) x)
  | vgBank {m : CutMode} {w : Voice ν} (hm : cmod (v.cfgc.get 0) = some m) (hb : bankUnbuilt v = false)
    (hw : bankTick N c m v = .ok w) : Performs N c v (.vgBank 0) w
  | vgTrio {m0 m1 m2 : CutMode} {w : Voice ν} (h0 : cmod (v.cfgc.get 0) = some m0)
    (h1 : cmod (v.cfgc.get 1) = some m1) (h2 : cmod (v.cfgc.get 2) = some m2) (hb : trioUnbuilt v = false)
    (hw : trioTick N c m0 m1 m2 v = .ok w) : Performs N c v (.vgTrio 0) w

/-- `Raises v i f`: on the block `v` the command `i` raises the fault `f` and does nothing else (60_exceptions.md R203,
R204). -/
inductive Raises (v : Voice ν) : Instr → FaultBit → Prop
  | idx {i : Instr} (hi : i.wellFormed = false) : Raises v i .idx
  | wtBuild (hb : v.wtb = true) : Raises v (.wtBuild 0) .wtr
  | wtLookup {idx : Idx} {j : Fin 11} (hj : phaseIdx idx = some j) (hb : v.wtb = false) : Raises v (.wtLookup idx) .wtu
  | wgSint {idx : Idx} {j : Fin 11} (hj : phaseIdx idx = some j) (hb : v.wtb = false) : Raises v (.wgSint idx) .wtu
  | hbTick (hb : bankUnbuilt v = true) : Raises v (.hbTick 0) .wtu
  | cutMod {idx : Idx} {k : Fin 3} (hk : chainIdx idx = some k) (hm : cmod (v.cfgc.get k) = none) :
    Raises v (.cutMod idx) .cfg
  | vgBankMode (hm : cmod (v.cfgc.get 0) = none) : Raises v (.vgBank 0) .cfg
  | vgBankTable {m : CutMode} (hm : cmod (v.cfgc.get 0) = some m) (hb : bankUnbuilt v = true) :
    Raises v (.vgBank 0) .wtu
  | vgTrioMode (k : Fin 3) (hm : cmod (v.cfgc.get k) = none) : Raises v (.vgTrio 0) .cfg
  | vgTrioTable {m0 m1 m2 : CutMode} (h0 : cmod (v.cfgc.get 0) = some m0) (h1 : cmod (v.cfgc.get 1) = some m1)
    (h2 : cmod (v.cfgc.get 2) = some m2) (hb : trioUnbuilt v = true) : Raises v (.vgTrio 0) .wtu

/-- A command is ill formed where its index names no unit below its limit. -/
theorem wellFormed_eq_false : i.wellFormed = false ↔ unitIdx i.limit i.idx = none := by
  rw [unitIdx_eq_none, Instr.wellFormed, decide_eq_false_iff_not, not_lt]

theorem noIdx_eq_some {idx : Idx} {k : Fin 1} (h : noIdx idx = some k) : idx = 0 := by
  have := unitIdx_eq_some.mp h
  exact BitVec.eq_of_toNat_eq (by simp; omega)

/-- If the three do not all have a value, one has none. -/
theorem exists_eq_none {α : Type} {g : Fin 3 → Option α}
    (h : ∀ m0 m1 m2, g 0 = some m0 → g 1 = some m1 → g 2 = some m2 → False) : ∃ k, g k = none := by
  by_contra hn
  have hsome : ∀ k, ∃ m, g k = some m := fun k => Option.ne_none_iff_exists'.mp fun hk => hn ⟨k, hk⟩
  obtain ⟨m0, h0⟩ := hsome 0
  obtain ⟨m1, h1⟩ := hsome 1
  obtain ⟨m2, h2⟩ := hsome 2
  exact h m0 m1 m2 h0 h1 h2

/-- An answer of a command: one fault raised, or the command's rule performed. -/
def RaisesOrPerforms (N : Numerics ν) (c : Config ν) (v : Voice ν) (i : Instr) (w : Voice ν) : Prop :=
  (∃ f, Raises v i f ∧ w = v.raise f) ∨ Performs N c v i w

theorem RaisesOrPerforms.of_raise {f : FaultBit} (h : (Except.ok (v.raise f) : Calc (Voice ν)) = .ok w)
    (hr : Raises v i f) : RaisesOrPerforms N c v i w := by
  cases h; exact .inl ⟨f, hr, rfl⟩

theorem RaisesOrPerforms.of_idx (h : (Except.ok (v.raise .idx) : Calc (Voice ν)) = .ok w)
    (hi : unitIdx i.limit i.idx = none) : RaisesOrPerforms N c v i w :=
  .of_raise h (.idx (wellFormed_eq_false.mpr hi))

theorem RaisesOrPerforms.of_ok {u : Voice ν} (h : (Except.ok u : Calc (Voice ν)) = .ok w)
    (hp : Performs N c v i u) : RaisesOrPerforms N c v i w := by
  cases h; exact .inr hp

/-- A rule that writes what one computation gives. -/
theorem RaisesOrPerforms.of_bind {α : Type} {x : Calc α} {g : α → Voice ν}
    (h : (x >>= fun a => pure (g a)) = .ok w) (hp : ∀ a, x = .ok a → Performs N c v i (g a)) :
    RaisesOrPerforms N c v i w := by
  obtain ⟨a, ha, hw⟩ := calc_bind_ok.mp h
  cases hw
  exact .inr (hp a ha)

/-! The inversion of `runCommand`, and its converse -/

/-- A command that answers raises one fault or performs its rule. -/
theorem runCommand_ok (h : runCommand N c i v = .ok w) : RaisesOrPerforms N c v i w := by
  cases i with
  | nop idx =>
    simp only [runCommand, nop] at h
    split at h
    next hk => exact .of_idx h hk
    next hk => exact .of_ok h (noIdx_eq_some hk ▸ .nop)
  | wtBuild idx =>
    simp only [runCommand, wtBuild] at h
    split at h
    next hk => exact .of_idx h hk
    next hk =>
      split at h
      next hb => exact .of_raise h (noIdx_eq_some hk ▸ .wtBuild hb)
      next hb => exact .of_bind h fun _ hx => noIdx_eq_some hk ▸ .wtBuild (Bool.eq_false_iff.mpr hb) hx
  | wtLookup idx =>
    simp only [runCommand, wtLookupCmd] at h
    split at h
    next hk => exact .of_idx h hk
    next hj =>
      split at h
      next hb => exact .of_bind h fun _ hx => .wtLookup hj hb hx
      next hb => exact .of_raise h (.wtLookup hj (Bool.eq_false_iff.mpr hb))
  | phAdv idx =>
    simp only [runCommand, phAdv] at h
    split at h
    next hk => exact .of_idx h hk
    next hj => exact .of_bind h fun _ hx => .phAdv hj hx
  | phRst idx =>
    simp only [runCommand, phRst] at h
    split at h
    next hk => exact .of_idx h hk
    next hj => exact .of_ok h (.phRst hj)
  | frqCv idx =>
    simp only [runCommand, frqCv] at h
    split at h
    next hk => exact .of_idx h hk
    next hk => exact .of_bind h fun _ hx => .frqCv hk hx
  | wgSint idx =>
    simp only [runCommand, wgSint] at h
    split at h
    next hk => exact .of_idx h hk
    next hj =>
      split at h
      next hb => exact .of_bind h fun _ hx => .wgSint hj hb hx
      next hb => exact .of_raise h (.wgSint hj (Bool.eq_false_iff.mpr hb))
  | wgSind idx =>
    simp only [runCommand, wgSind] at h
    split at h
    next hk => exact .of_idx h hk
    next hj => exact .of_bind h fun _ hx => .wgSind hj hx
  | wgTri idx =>
    simp only [runCommand, wgTri] at h
    split at h
    next hk => exact .of_idx h hk
    next hj => exact .of_bind h fun _ hx => .wgTri hj hx
  | wgSaw idx =>
    simp only [runCommand, wgSaw] at h
    split at h
    next hk => exact .of_idx h hk
    next hj => exact .of_bind h fun _ hx => .wgSaw hj hx
  | wgSqr idx =>
    simp only [runCommand, wgSqr] at h
    split at h
    next hk => exact .of_idx h hk
    next hj => exact .of_bind h fun _ hx => .wgSqr hj hx
  | pwMod idx =>
    simp only [runCommand, pwMod] at h
    split at h
    next hk => exact .of_idx h hk
    next hk => exact .of_bind h fun _ hx => .pwMod hk hx
  | hbTick idx =>
    simp only [runCommand, hbTickCmd] at h
    split at h
    next hk => exact .of_idx h hk
    next hk =>
      split at h
      next hb => exact .of_raise h (noIdx_eq_some hk ▸ .hbTick hb)
      next hb => exact .inr (noIdx_eq_some hk ▸ .hbTick (Bool.eq_false_iff.mpr hb) h)
  | envStep idx =>
    simp only [runCommand, envStepCmd] at h
    split at h
    next hk => exact .of_idx h hk
    next hk => exact .of_bind h fun _ hx => .envStep hk hx
  | envRst idx =>
    simp only [runCommand, envRst] at h
    split at h
    next hk => exact .of_idx h hk
    next hk => exact .of_ok h (.envRst hk)
  | fltProc idx =>
    simp only [runCommand, fltProc] at h
    split at h
    next hk => exact .of_idx h hk
    next hk => exact .of_bind h fun _ hx => .fltProc hk hx
  | cutMod idx =>
    simp only [runCommand, cutModCmd] at h
    split at h
    next hk => exact .of_idx h hk
    next hk =>
      split at h
      next hm => exact .of_raise h (.cutMod hk hm)
      next hm => exact .of_bind h fun _ hx => .cutMod hk hm hx
  | vgBank idx =>
    simp only [runCommand, vgBank] at h
    split at h
    next hk => exact .of_idx h hk
    next hk =>
      split at h
      next hm => exact .of_raise h (noIdx_eq_some hk ▸ .vgBankMode hm)
      next hm =>
        split at h
        next hb => exact .of_raise h (noIdx_eq_some hk ▸ .vgBankTable hm hb)
        next hb => exact .inr (noIdx_eq_some hk ▸ .vgBank hm (Bool.eq_false_iff.mpr hb) h)
  | vgTrio idx =>
    simp only [runCommand, vgTrio] at h
    split at h
    next hk => exact .of_idx h hk
    next hk =>
      split at h
      next h0 h1 h2 =>
        split at h
        next hb => exact .of_raise h (noIdx_eq_some hk ▸ .vgTrioTable h0 h1 h2 hb)
        next hb => exact .inr (noIdx_eq_some hk ▸ .vgTrio h0 h1 h2 (Bool.eq_false_iff.mpr hb) h)
      next hm =>
        obtain ⟨j, hj⟩ := exists_eq_none (g := fun j => cmod (v.cfgc.get j)) hm
        exact .of_raise h (noIdx_eq_some hk ▸ .vgTrioMode j hj)

/-- An ill-formed command raises `F_IDX` (30_encoding.md R84). -/
theorem runCommand_of_not_wellFormed (N : Numerics ν) (c : Config ν) (v : Voice ν) (h : i.wellFormed = false) :
    runCommand N c i v = .ok (v.raise .idx) := by
  rw [wellFormed_eq_false] at h
  cases i with
  | nop idx | wtBuild idx | hbTick idx | vgBank idx | vgTrio idx =>
    replace h : noIdx idx = none := h
    simp only [runCommand, nop, wtBuild, hbTickCmd, vgBank, vgTrio, h]
  | wtLookup idx | phAdv idx | phRst idx | wgSint idx | wgSind idx | wgTri idx | wgSaw idx | wgSqr idx =>
    replace h : phaseIdx idx = none := h
    simp only [runCommand, wtLookupCmd, phAdv, phRst, wgSint, wgSind, wgTri, wgSaw, wgSqr, h]
  | frqCv idx | pwMod idx | envStep idx | envRst idx | fltProc idx | cutMod idx =>
    replace h : chainIdx idx = none := h
    simp only [runCommand, frqCv, pwMod, envStepCmd, envRst, fltProc, cutModCmd, h]

theorem runCommand_of_raises {f : FaultBit} (N : Numerics ν) (c : Config ν) (h : Raises v i f) :
    runCommand N c i v = .ok (v.raise f) := by
  cases h with
  | idx hi => exact runCommand_of_not_wellFormed N c v hi
  | wtBuild hb | hbTick hb => simp [runCommand, wtBuild, hbTickCmd, hb]
  | wtLookup hj hb | wgSint hj hb => simp [runCommand, wtLookupCmd, wgSint, hj, hb]
  | cutMod hk hm => simp [runCommand, cutModCmd, hk, hm]
  | vgBankMode hm => simp [runCommand, vgBank, hm]
  | vgBankTable hm hb => simp [runCommand, vgBank, hm, hb]
  | vgTrioMode k hm =>
    have h0 : noIdx 0 = some 0 := noIdx_zero
    simp only [runCommand, vgTrio, h0]
    split
    next h0 h1 h2 =>
      match k with
      | 0 => rw [h0] at hm; cases hm
      | 1 => rw [h1] at hm; cases hm
      | 2 => rw [h2] at hm; cases hm
    · rfl
  | vgTrioTable h0 h1 h2 hb => simp [runCommand, vgTrio, h0, h1, h2, hb]

theorem runCommand_of_performs (h : Performs N c v i w) : runCommand N c i v = .ok w := by
  cases h with
  | nop => simp [runCommand, nop]
  | wtBuild hb hm => simp [runCommand, wtBuild, hb, hm, calc_pure]
  | wtLookup hj hb hx | wgSint hj hb hx => simp [runCommand, wtLookupCmd, wgSint, hj, hb, hx, calc_pure]
  | phAdv hj hx | wgSind hj hx | wgTri hj hx | wgSaw hj hx | wgSqr hj hx =>
    simp [runCommand, phAdv, wgSind, wgTri, wgSaw, wgSqr, hj, hx, calc_pure]
  | phRst hk | envRst hk => simp [runCommand, phRst, envRst, hk]
  | frqCv hk hx | pwMod hk hx | envStep hk hx | fltProc hk hx =>
    simp [runCommand, frqCv, pwMod, envStepCmd, fltProc, hk, hx, calc_pure]
  | cutMod hk hm hx => simp [runCommand, cutModCmd, hk, hm, hx, calc_pure]
  | hbTick hb hw => simp [runCommand, hbTickCmd, hb, hw]
  | vgBank hm hb hw => simp [runCommand, vgBank, hm, hb, hw]
  | vgTrio h0 h1 h2 hb hw => simp [runCommand, vgTrio, h0, h1, h2, hb, hw]

end Sys2Proof.Machine
end

section
/-! PROOFS. What a command and a step leave unchanged: 10_state.md R24, R27 to R29 and R35. -/

namespace Sys2Proof.Machine

variable {c : Config NumWord} {i : Instr} {v w : Voice NumWord}

/-! The registers a command may write -/

/-- A rule that writes one register. -/
theorem setNum_frame {l : List Reg} {r : NumReg} (x : NumWord) (hr : .num r ∈ l) :
    SameRegsBut l v (v.setNum r x) ∧ (cmdIsBuild i = false → (v.setNum r x).wt = v.wt) :=
  ⟨sameRegs_setNum _ _ (sameRegs_refl _ v) hr, fun _ => Voice.wt_setNum v r x⟩

/-- A rule that writes one register and `R0`. -/
theorem setNum_r0_frame {l : List Reg} {r : NumReg} (x y : NumWord) (hr : .num r ∈ l) (h0 : .num .r0 ∈ l) :
    SameRegsBut l v ((v.setNum r x).setNum .r0 y) ∧
      (cmdIsBuild i = false → ((v.setNum r x).setNum .r0 y).wt = v.wt) :=
  ⟨sameRegs_setNum _ _ (sameRegs_setNum _ _ (sameRegs_refl _ v) hr) h0, fun _ => by simp⟩

/-- A command that performs its rule writes the registers of its rule, and the wavetable only if it is `WT.BUILD`. -/
theorem Performs.frame {N : Numerics NumWord} (h : Performs N c v i w) :
    SameRegsBut (cmdWrites i) v w ∧ (cmdIsBuild i = false → w.wt = v.wt) := by
  cases h with
  | nop => exact ⟨sameRegs_refl _ v, fun _ => rfl⟩
  | wtBuild =>
    refine ⟨fun r hr => ?_, fun h => absurd h (by decide)⟩
    cases r with
    | num r => simp
    | status => exact absurd List.mem_cons_self hr
    | _ => rfl
  | wtLookup | wgSint | wgSind | wgTri | wgSaw | wgSqr => exact setNum_frame _ (by simp [cmdWrites])
  | phAdv hk | fltProc hk =>
    exact setNum_r0_frame _ _ (by simp [cmdWrites, hk, atUnit]) (by simp [cmdWrites, hk, atUnit])
  | phRst hk | frqCv hk | pwMod hk | cutMod hk => exact setNum_frame _ (by simp [cmdWrites, hk, atUnit])
  | hbTick _ hw => exact (hbTick_frame hw).imp_right fun h _ => h
  | envStep hk hw =>
    obtain ⟨hr, ht⟩ := envStep_frame hw
    exact ⟨sameRegs_setNum _ _ (sameRegs_mono hr (by simp [cmdWrites, hk, atUnit])) (by simp [cmdWrites, hk, atUnit]),
      fun _ => by simp [ht]⟩
  | envRst hk =>
    exact ⟨sameRegs_setEnvUnit _ _ (sameRegs_refl _ v) (by simp [cmdWrites, hk, atUnit]),
      fun _ => Voice.wt_setEnvUnit v _ _⟩
  | vgBank _ _ hw => exact (bankTick_frame hw).imp_right fun h _ => h
  | vgTrio _ _ _ _ hw => exact (trioTick_frame hw).imp_right fun h _ => h

theorem forall_mem_atUnit {P : Reg → Prop} {n : Nat} {f : Fin n → List Reg} {o : Option (Fin n)}
    (hf : ∀ k, ∀ r ∈ f k, P r) : ∀ r ∈ atUnit f o, P r := by
  cases o with
  | none => exact fun r hr => absurd hr List.not_mem_nil
  | some k => exact hf k

/-- Every register a command may write lies in the upper half of the register space (20_memory.md R62). -/
theorem le_number_of_mem_cmdWrites : ∀ r ∈ cmdWrites i, 0x80 ≤ r.number := by
  cases i with
  | nop | wtBuild | wtLookup | wgSint | wgSind | wgTri | wgSaw | wgSqr | hbTick | vgBank | vgTrio =>
    simp only [cmdWrites]; decide
  | phAdv | phRst | frqCv | pwMod | envStep | envRst | fltProc | cutMod => exact forall_mem_atUnit (by decide)

section
variable {N : Numerics NumWord} (h : Performs N c v i w)
include h

/-- No rule writes a register of the lower half of the register space. -/
theorem Performs.word_of_lt {r : Reg} (hr : r.number < 0x80) : w.word r = v.word r :=
  h.frame.1 r fun hm => absurd (le_number_of_mem_cmdWrites r hm) (by omega)

theorem Performs.cfg0 : w.cfg0 = v.cfg0 := h.word_of_lt (r := .cfg0) (by decide)

theorem Performs.cfgc (k : Fin 3) : w.cfgc.get k = v.cfgc.get k := h.word_of_lt (r := .cfgc k) (by revert k; decide)

end

/-- Settles O19: the host RW numbers are those of the lower half. -/
theorem commandsNeverWriteInputs : Obligations.CommandsNeverWriteInputs := by
  intro i s t h
  obtain ⟨w, hw, rfl⟩ := exec_next.mp h
  obtain ⟨f, -, rfl⟩ | hp := runCommand_ok hw
  · exact ⟨fun r _ => Voice.num_raise _ f r, Voice.cfg0_raise _ f, fun _ => rfl⟩
  · exact ⟨fun r hr => hp.word_of_lt (r := .num r) (lt_of_mem_rwNumbers _ hr), hp.cfg0, hp.cfgc⟩

/-! The result register -/

/-- The commands whose rule writes `R0` (10_state.md R24). -/
theorem r0_mem_cmdWrites (h : .num .r0 ∈ cmdWrites i) :
    ∃ idx, i ∈ [Instr.wtLookup idx, .phAdv idx, .wgSint idx, .wgSind idx, .wgTri idx, .wgSaw idx, .wgSqr idx,
      .fltProc idx, .envStep idx] := by
  cases i with
  | wtLookup idx | phAdv idx | wgSint idx | wgSind idx | wgTri idx | wgSaw idx | wgSqr idx | fltProc idx | envStep idx =>
    exact ⟨idx, by simp⟩
  | nop | wtBuild | hbTick | vgBank | vgTrio => refine absurd h ?_; simp only [cmdWrites]; decide
  | phRst | frqCv | pwMod | envRst | cutMod =>
    exact absurd rfl (forall_mem_atUnit (P := (· ≠ .num .r0)) (by decide) _ h)

/-- Settles O20: a fault keeps `R0`, and so does a rule that does not list it. -/
theorem resultRegisterWriters : Obligations.ResultRegisterWriters := by
  intro i s t h hne
  obtain ⟨w, hw, rfl⟩ := exec_next.mp h
  obtain ⟨f, -, rfl⟩ | hp := runCommand_ok hw
  · exact absurd (Voice.num_raise s.voice f .r0) hne
  · exact r0_mem_cmdWrites (not_not.mp fun hm => hne (hp.frame.1 _ hm))

end Sys2Proof.Machine
end

section
/-! PROOFS. What a step can do to the block, and 10_state.md R22, R35: the built table never changes. -/

namespace Sys2Proof.Machine

/-! The step -/

/-- `StepEffect s v`: the first pending action of `s`, or none, leads to the block `v`. -/
inductive StepEffect (s : State) : Voice NumWord → Prop
  | same : StepEffect s s.voice
  | raise (f : FaultBit) : StepEffect s (s.voice.raise f)
  | cfg0 (w : Word) : StepEffect s (s.voice.setCfg0 w)
  | cfgc (k : Fin 3) (w : Word) : StepEffect s (s.voice.setCfgc k w)
  | input {r : NumReg} {w : Word} (hr : r.isInput = true) (hw : F32.isFinite w = true) :
    StepEffect s (s.voice.setNum r w)
  | command {cmd : Cmd} {rest : List HostAction} {i : Instr} {v : Voice NumWord} (hp : s.pending = .exec cmd :: rest)
    (hd : decode cmd = .ok i) (hv : Performs f32 s.config s.voice i v) : StepEffect s v

theorem raiseFault_effect {f : FaultBit} {s s' t : State} (hv : s'.voice = s.voice) (h : raiseFault f s' = .next t) :
    StepEffect s t.voice := by
  cases h
  rw [State.voice_withVoice, hv]
  exact .raise f

theorem hostWrite_effect {n : RegNum} {w : Word} {s t : State} {rest : List HostAction}
    (h : hostWrite n w (s.taken rest) = .next t) : StepEffect s t.voice := by
  unfold hostWrite at h
  split at h
  · cases h; exact .cfg0 w
  · cases h; exact .cfgc _ w
  · split at h
    next hr =>
      split at h
      next hw => cases h; exact .input hr hw
      · cases h
    · exact raiseFault_effect (by rfl) h
  all_goals exact raiseFault_effect (by rfl) h

theorem hostRead_effect {n : RegNum} {s t : State} {rest : List HostAction} (h : hostRead n (s.taken rest) = .next t) :
    StepEffect s t.voice := by
  unfold hostRead at h
  split at h
  · cases h; exact .same
  · exact raiseFault_effect (by rfl) h

theorem hostExec_effect {cmd : Cmd} {s t : State} {rest : List HostAction} (hp : s.pending = .exec cmd :: rest)
    (h : hostExec cmd (s.taken rest) = .next t) : StepEffect s t.voice := by
  unfold hostExec at h
  split at h
  next hd =>
    obtain ⟨w, hw, rfl⟩ := exec_next.mp h
    obtain ⟨f, -, rfl⟩ | hw := runCommand_ok hw
    · exact .raise f
    · exact .command hp hd hw
  · exact raiseFault_effect (by rfl) h

/-- A step that answers a next state leaves the block of one of the effects. -/
theorem step_effect {s t : State} (h : step s = .next t) : StepEffect s t.voice := by
  obtain ⟨-, rfl⟩ | ⟨a, rest, hp, h⟩ := step_next h
  · exact .same
  · cases a with
    | writeReg n w => exact hostWrite_effect h
    | readReg n => exact hostRead_effect h
    | exec cmd => exact hostExec_effect hp h

/-! `STATUS` and the table -/

theorem status_not_mem_cmdWrites {i : Instr} (h : cmdIsBuild i = false) : Reg.status ∉ cmdWrites i := by
  cases i with
  | wtBuild => cases h
  | nop | wtLookup | wgSint | wgSind | wgTri | wgSaw | wgSqr | hbTick | vgBank | vgTrio =>
    simp only [cmdWrites]; decide
  | phAdv | phRst | frqCv | pwMod | envStep | envRst | fltProc | cutMod =>
    exact fun h => absurd rfl (forall_mem_atUnit (P := (· ≠ .status)) (by decide) _ h)

/-- A command that performs its rule keeps `STATUS` and the table, or is `WT.BUILD` on a table that is not built. -/
theorem Performs.status_table {N : Numerics NumWord} {c : Config NumWord} {i : Instr} {v w : Voice NumWord}
    (h : Performs N c v i w) :
    (w.status = v.status ∧ w.wt = v.wt) ∨
    (i = .wtBuild 0 ∧ v.wtb = false ∧
      ∃ m, wtFill N c v.wt = .ok m ∧ w = (v.setWt m).setStatus (setBit v.status wtbBit)) := by
  by_cases hi : cmdIsBuild i = true
  · cases h with
    | wtBuild hb hm => exact .inr ⟨rfl, hb, _, hm, rfl⟩
    | _ => cases hi
  · obtain ⟨hr, ht⟩ := h.frame
    rw [Bool.not_eq_true] at hi
    exact .inl ⟨hr .status (status_not_mem_cmdWrites hi), ht hi⟩

theorem Voice.wtb_congr {ν : Type} {v w : Voice ν} (h : w.status = v.status) : w.wtb = v.wtb := by
  rw [Voice.wtb, Voice.wtb, h]

/-- A step keeps the table and `STATUS.WTB`, or it is `Exec` of `WT.BUILD` on a table that is not built. -/
theorem StepEffect.table {s : State} {v : Voice NumWord} (h : StepEffect s v) :
    (v.wt = s.voice.wt ∧ v.wtb = s.voice.wtb) ∨
    (s.voice.wtb = false ∧ ∃ cmd rest, s.pending = .exec cmd :: rest ∧ decode cmd = .ok (.wtBuild 0)) := by
  cases h with
  | same | cfg0 | cfgc => exact .inl ⟨rfl, rfl⟩
  | raise f => exact .inl ⟨rfl, Voice.wtb_raise _ f⟩
  | input => exact .inl ⟨Voice.wt_setNum _ _ _, Voice.wtb_congr (Voice.status_setNum _ _ _)⟩
  | command hp hd hv =>
    obtain ⟨hs, ht⟩ | ⟨rfl, hb, -⟩ := hv.status_table
    · exact .inl ⟨ht, Voice.wtb_congr hs⟩
    · exact .inr ⟨hb, _, _, hp, hd⟩

/-! The word of `WT.BUILD` -/

theorem opcode_idx_of_mem_opcodeMap :
    ∀ r ∈ opcodeMap, ∀ idx, (r.command idx).opcode = r.op ∧ (r.command idx).idx = idx := by
  simp [opcodeMap, Instr.opcode, Instr.idx]

/-- A word that decodes has a zero `z`, and the opcode and the index of its command. -/
theorem fields_of_decode {w : Cmd} {i : Instr} (h : decode w = .ok i) :
    zField w = 0 ∧ opField w = i.opcode ∧ idxField w = i.idx := by
  unfold decode at h
  split at h
  next hz =>
    split at h
    next r hr =>
      cases h
      obtain ⟨hop, hidx⟩ := opcode_idx_of_mem_opcodeMap r (List.mem_of_find?_eq_some hr) (idxField w)
      have hrow : r.op = opField w := by simpa using List.find?_some hr
      exact ⟨hz, (hop.trans hrow).symm, hidx.symm⟩
    · cases h
  · cases h

/-- A word is its fields. -/
theorem append_fields (w : Cmd) : opField w ++ (zField w ++ idxField w) = w := by
  rw [opField, zField, idxField, BitVec.extractLsb'_append_extractLsb'_eq_extractLsb' (show 4 = 0 + 4 from rfl),
    BitVec.extractLsb'_append_extractLsb'_eq_extractLsb' (show 8 = 0 + (4 + 4) from rfl)]
  exact BitVec.extractLsb'_eq_self

/-- A word that decodes is the word of its command (30_encoding.md R80 to R82). -/
theorem encode_of_decode {w : Cmd} {i : Instr} (h : decode w = .ok i) : encode i = w := by
  obtain ⟨hz, hop, hidx⟩ := fields_of_decode h
  rw [encode, ← hop, ← hidx]
  have := append_fields w
  rwa [hz] at this

/-- Settles O21: only `WT.BUILD`, whose word is 0x1000, changes the table or `STATUS.WTB`, and only before it is built. -/
theorem builtTableNeverChanges : Obligations.BuiltTableNeverChanges := by
  refine ⟨fun s t h hb => ?_, fun s t h hs ht => ?_⟩
  · obtain ⟨hwt, hwtb⟩ | ⟨hs, -⟩ := (step_effect h).table
    · exact ⟨hwt, hwtb.trans hb⟩
    · exact absurd hb (Bool.eq_false_iff.mp hs)
  · obtain ⟨-, hwtb⟩ | ⟨-, cmd, rest, hp, hd⟩ := (step_effect h).table
    · exact absurd (hwtb.symm.trans ht) (Bool.eq_false_iff.mp hs)
    · rw [← encode_of_decode hd] at hp
      exact ⟨rest, hp⟩

end Sys2Proof.Machine
end

section
/-! PROOFS. 00_scope.md R13: no command leaves a NaN in a register. -/

namespace Sys2Proof.Machine

open F32

variable {c : Config NumWord} {v w : Voice NumWord}

/-! A computation that gives a number -/

/-- Whatever the computation gives is no NaN. -/
def GivesNumber (o : Calc NumWord) : Prop := ∀ r, o = .ok r → isNaN r = false

theorem GivesNumber.add (a b : NumWord) : GivesNumber (f32.add a b) := fun _ => add_not_nan

theorem GivesNumber.sub (a b : NumWord) : GivesNumber (f32.sub a b) := fun _ => sub_not_nan

theorem GivesNumber.mul (a b : NumWord) : GivesNumber (f32.mul a b) := fun _ => mul_not_nan

theorem GivesNumber.div (a b : NumWord) : GivesNumber (f32.div a b) := fun _ => div_not_nan

theorem GivesNumber.ok {a : NumWord} (h : isNaN a = false) : GivesNumber (.ok a) := fun _ hr => by cases hr; exact h

/-- A sequence gives what its last part gives. -/
theorem GivesNumber.bind {α : Type} {x : Calc α} {f : α → Calc NumWord} (h : ∀ a, x = .ok a → GivesNumber (f a)) :
    GivesNumber (x >>= f) := fun r hr => by
  obtain ⟨a, ha, hr⟩ := calc_bind_ok.mp hr
  exact h a ha r hr

/-- A comparison that answers has no NaN operand. -/
theorem not_nan_of_lt {a b : NumWord} {p : Bool} (h : f32.lt a b = .ok p) : isNaN a = false ∧ isNaN b = false := by
  change F32.lt a b = .ok p at h
  unfold F32.lt at h
  split at h
  · cases h
  next hn => simpa using hn

theorem GivesNumber.clamp (x lo hi : NumWord) : GivesNumber (clamp f32 x lo hi) := fun y h => by
  obtain ⟨below, above, hlo, hhi, rfl⟩ := clamp_ok.mp h
  obtain ⟨hx, hlo⟩ := not_nan_of_lt hlo
  obtain ⟨hhi, -⟩ := not_nan_of_lt hhi
  split_ifs <;> assumption

theorem int_not_nan (n : Nat) : isNaN (int f32 n) = false := lit_not_nan n 1

theorem minusOne_not_nan : isNaN f32.minusOne = false := by decide +kernel

/-! The values the rules give -/

theorem phaseAdvance_number (p f dt : NumWord) : GivesNumber (phaseAdvance f32 p f dt) :=
  .bind fun _ _ => .bind fun q hq => .bind fun wrap _ => by
    cases wrap with
    | true => exact .sub q _
    | false => exact .ok (GivesNumber.add _ _ q hq)

theorem chainFreq_number (k : Fin 3) : GivesNumber (chainFreq f32 c v k) := by
  unfold chainFreq
  split
  · exact .clamp _ _ _
  · exact .bind fun _ _ => .bind fun _ _ => .clamp _ _ _

theorem wtLookup_number {m : Memory NumWord} (hm : ∀ i x, Memory.read m i = some x → isNaN x = false) (p : NumWord) :
    GivesNumber (wtLookup f32 c m p) :=
  .bind fun i _ => by
    cases hi : Memory.read m i with
    | none => exact fun _ h => nomatch h
    | some x => exact .ok (hm i x hi)

theorem tri_number (p : NumWord) : GivesNumber (tri f32 p) :=
  .bind fun rising _ => .bind fun q _ => by
    cases rising with
    | true => exact .sub q _
    | false => exact .sub _ q

theorem saw_number (p : NumWord) : GivesNumber (saw f32 p) := .bind fun _ _ => .sub _ _

theorem square_number (p w : NumWord) : GivesNumber (square f32 p w) :=
  .bind fun _ _ => .bind fun high _ => by
    cases high with
    | true => exact .ok (int_not_nan 1)
    | false => exact .ok minusOne_not_nan

theorem pulseWidth_number (pw amt cv : NumWord) : GivesNumber (pulseWidth f32 pw amt cv) :=
  .bind fun _ _ => .bind fun _ _ => .bind fun _ _ => .clamp _ _ _

theorem slotFreq_number (hf : ∀ m i, isNaN (c.ftab m i) = false) (cfg0 : Word) (fb : NumWord) (i : Fin 8) :
    GivesNumber (slotFreq f32 c cfg0 fb i) := by
  unfold slotFreq
  split
  · exact .mul _ _
  next m _ => exact .ok (hf m i)

theorem slotAmp_number (i : Fin 8) : GivesNumber (slotAmp f32 v i) := by
  unfold slotAmp
  split
  · exact .bind fun _ _ => .clamp _ _ _
  · exact .clamp _ _ _

theorem fltStep_number (sr y x cutoff : NumWord) (swept : Bool) : GivesNumber (fltStep f32 c sr y x cutoff swept) :=
  .bind fun _ _ => .bind fun _ _ => .bind fun _ _ => .bind fun _ _ => .bind fun _ _ => .bind fun _ _ => .add _ _

theorem cutoffBy_number (m : CutMode) {cut : NumWord} (h : isNaN cut = false) (cv : NumWord) :
    GivesNumber (cutoffBy f32 c m cut cv) := by
  cases m with
  | fixed => exact .ok h
  | summed => exact .bind fun _ _ => .add _ _
  | exponential => exact .bind fun _ _ => .bind fun _ _ => .bind fun _ _ => .mul _ _

theorem mixOf_number (a b d : NumWord) : GivesNumber (mixOf f32 a b d) := .bind fun _ _ => .bind fun _ _ => .div _ _

/-! The envelope unit -/

/-- The numbers of an envelope unit are no NaNs. -/
structure EnvUnit.Numbers (u : EnvUnit NumWord) : Prop where
  out : isNaN u.out = false
  prog : isNaN u.prog = false
  rel0 : isNaN u.rel0 = false

theorem EnvUnit.Numbers.edge {u : EnvUnit NumWord} (h : u.Numbers) (gate : Bool) : (envEdge f32 gate u).Numbers := by
  unfold envEdge
  split
  · exact ⟨h.out, int_not_nan 0, h.rel0⟩
  · split
    · exact ⟨h.out, int_not_nan 0, h.out⟩
    · exact h

/-- Both ends of the attack. -/
theorem EnvUnit.Numbers.attackEnd {u : EnvUnit NumWord} (h : u.Numbers) {prog out : NumWord} {full : Bool}
    (hprog : isNaN prog = false) (hout : isNaN out = false) :
    (if full then { u with st := .decay, out := int f32 1, prog := int f32 0 }
      else { u with out := out, prog := prog } : EnvUnit NumWord).Numbers := by
  split
  · exact ⟨int_not_nan 1, int_not_nan 0, h.rel0⟩
  · exact ⟨hout, hprog, h.rel0⟩

theorem EnvUnit.Numbers.attack {x : EnvIn NumWord} {u u' : EnvUnit NumWord} (h : u.Numbers)
    (hu : envAttack f32 c x u = .ok u') : u'.Numbers := by
  simp only [envAttack, calc_bind_ok] at hu
  obtain ⟨prog, hprog, instant, -, hu⟩ := hu
  split at hu <;> simp only [calc_pure, calc_ok_bind, calc_bind_ok, Except.ok.injEq] at hu
  · obtain ⟨full, -, rfl⟩ := hu
    exact h.attackEnd (add_not_nan hprog) (int_not_nan 1)
  · obtain ⟨ae, -, d, -, out, hout, full, -, rfl⟩ := hu
    exact h.attackEnd (add_not_nan hprog) (add_not_nan hout)

theorem EnvUnit.Numbers.decay {x : EnvIn NumWord} {sc : NumWord} {u u' : EnvUnit NumWord} (h : u.Numbers)
    (hsc : isNaN sc = false) (hu : envDecay f32 c x sc u = .ok u') : u'.Numbers := by
  simp only [envDecay, calc_bind_ok, calc_pure_ok] at hu
  obtain ⟨de, -, prog, hprog, d, -, t, -, y, -, out, hout, elapsed, -, reached, -, rfl⟩ := hu
  split
  · exact ⟨hsc, int_not_nan 0, h.rel0⟩
  · exact ⟨add_not_nan hout, add_not_nan hprog, h.rel0⟩

theorem EnvUnit.Numbers.release {x : EnvIn NumWord} {u u' : EnvUnit NumWord} (h : u.Numbers)
    (hu : envRelease f32 c x u = .ok u') : u'.Numbers := by
  simp only [envRelease, calc_bind_ok, calc_pure_ok] at hu
  obtain ⟨re, -, prog, hprog, t, -, y, -, out, hout, elapsed, -, reached, -, rfl⟩ := hu
  split
  · exact ⟨int_not_nan 0, int_not_nan 0, h.rel0⟩
  · exact ⟨mul_not_nan hout, add_not_nan hprog, h.rel0⟩

theorem EnvUnit.Numbers.action {x : EnvIn NumWord} {sc : NumWord} {u u' : EnvUnit NumWord} (h : u.Numbers)
    (hsc : isNaN sc = false) (hu : envAction f32 c x sc u = .ok u') : u'.Numbers := by
  unfold envAction at hu
  split at hu
  · cases hu; exact ⟨int_not_nan 0, h.prog, h.rel0⟩
  · exact h.attack hu
  · exact h.decay hsc hu
  · cases hu; exact ⟨hsc, h.prog, h.rel0⟩
  · exact h.release hu

theorem EnvUnit.Numbers.step {x : EnvIn NumWord} {u u' : EnvUnit NumWord} (h : u.Numbers)
    (hu : envStepUnit f32 c x u = .ok u') : u'.Numbers := by
  simp only [envStepUnit, calc_bind_ok, calc_pure_ok] at hu
  obtain ⟨gate, -, sc, hsc, u1, h1, rfl⟩ := hu
  obtain ⟨ho, hp, hr⟩ := (h.edge gate).action (GivesNumber.clamp _ _ _ sc hsc) h1
  exact ⟨ho, hp, hr⟩

theorem envUnitReset_numbers : (envUnitReset f32).Numbers := ⟨int_not_nan 0, int_not_nan 0, int_not_nan 0⟩

/-! The registers -/

/-- No register holds a NaN. -/
def Voice.Numbers (v : Voice NumWord) : Prop := ∀ r, isNaN (v.num r) = false

theorem Voice.Numbers.setNum (h : v.Numbers) (r : NumReg) {x : NumWord} (hx : isNaN x = false) :
    (v.setNum r x).Numbers := fun q => by
  rw [Voice.num_setNum]
  split
  · exact hx
  · exact h q

theorem Voice.Numbers.setEnvUnit (h : v.Numbers) (k : Fin 3) {u : EnvUnit NumWord} (hu : u.Numbers) :
    (v.setEnvUnit k u).Numbers := fun q => by
  rw [Voice.num_setEnvUnit]
  split_ifs
  · exact hu.rel0
  · exact hu.prog
  · exact hu.out
  · exact h q

theorem Voice.Numbers.envStep (h : v.Numbers) {k : Fin 3} (hw : envStep f32 c k v = .ok w) : w.Numbers := by
  obtain ⟨u, hu, rfl⟩ := envStep_ok.mp hw
  have hv : (v.envUnit k).Numbers := ⟨h _, h _, h _⟩
  exact h.setEnvUnit k (hv.step hu)

theorem Voice.Numbers.filterStage (h : v.Numbers) {k : Fin 3} {m : CutMode} {x : NumWord}
    (hw : filterStage f32 c k m x v = .ok w) : w.Numbers := by
  obtain ⟨co, y, hco, hy, rfl⟩ := filterStage_ok.mp hw
  exact (h.setNum _ (cutoffBy_number m (h _) _ co hco)).setNum _ (fltStep_number _ _ _ _ _ y hy)

theorem Voice.Numbers.hbTick (h : v.Numbers) (hf : ∀ m i, isNaN (c.ftab m i) = false)
    (hw : hbTick f32 c v = .ok w) : w.Numbers := by
  obtain ⟨fb, r, g, o, -, hr, -, ho, rfl⟩ := hbTick_ok.mp hw
  have hr : r.1.Numbers := by
    refine foldlM_keeps (P := fun acc : Voice NumWord × NumWord => acc.1.Numbers) (fun acc i acc' ha hs => ?_) slots h hr
    obtain ⟨f, p, a, x, y, sum, hfr, hp, ham, -, -, -, rfl⟩ := hbSlot_ok.mp hs
    exact ((ha.setNum _ (phaseAdvance_number _ _ _ p hp)).setNum _ (slotFreq_number hf _ _ _ f hfr)).setNum _
      (slotAmp_number _ a ham)
  exact hr.setNum _ (div_not_nan ho)

theorem Voice.Numbers.bankTick (h : v.Numbers) (hf : ∀ m i, isNaN (c.ftab m i) = false) {m : CutMode}
    (hw : bankTick f32 c m v = .ok w) : w.Numbers := by
  obtain ⟨f, v1, v2, v3, e, af, o, hfr, h1, h2, h3, -, -, ho, rfl⟩ := bankTick_ok.mp hw
  have hv := (((h.setNum _ (chainFreq_number 0 f hfr)).hbTick hf h1).envStep h2).filterStage h3
  exact (hv.setNum _ (mul_not_nan ho)).setNum _ (mul_not_nan ho)

theorem Voice.Numbers.chainTick (h : v.Numbers) {af : NumWord} {k : Fin 3} {m : CutMode}
    (hw : chainTick f32 c af k m v = .ok w) : w.Numbers := by
  obtain ⟨f, p, wd, x, v2, v3, g, e, o, hfr, hp, hwd, -, h2, h3, -, -, ho, rfl⟩ := chainTick_ok.mp hw
  have hv := ((h.setNum (.freq k) (chainFreq_number k f hfr)).setNum (.ph (chainPhase k))
    (phaseAdvance_number _ _ _ p hp)).setNum (.width k) (pulseWidth_number _ _ _ wd hwd)
  exact ((hv.envStep h2).filterStage h3).setNum _ (mul_not_nan ho)

theorem Voice.Numbers.trioTick (h : v.Numbers) {m0 m1 m2 : CutMode} (hw : trioTick f32 c m0 m1 m2 v = .ok w) :
    w.Numbers := by
  obtain ⟨af, v0, v1, v2, x, -, h0, h1, h2, hx, rfl⟩ := trioTick_ok.mp hw
  exact (((h.chainTick h0).chainTick h1).chainTick h2).setNum _ (mixOf_number _ _ _ x hx)

/-- A command that performs its rule leaves no NaN, where the tables hold none. -/
theorem Voice.Numbers.performs (h : v.Numbers) (hf : ∀ m i, isNaN (c.ftab m i) = false)
    (ht : ∀ i x, Memory.read v.wt i = some x → isNaN x = false) {i : Instr} (hw : Performs f32 c v i w) : w.Numbers := by
  cases hw with
  | nop => exact h
  | wtBuild => exact fun r => by simpa using h r
  | wtLookup _ _ hx | wgSint _ _ hx => exact h.setNum _ (wtLookup_number ht _ _ hx)
  | phAdv _ hq =>
    have hq := phaseAdvance_number _ _ _ _ hq
    exact (h.setNum _ hq).setNum _ hq
  | phRst => exact h.setNum _ (int_not_nan 0)
  | frqCv _ hf => exact h.setNum _ (chainFreq_number _ _ hf)
  | wgSind _ hx => exact h.setNum _ (app_not_nan hx)
  | wgTri _ hx => exact h.setNum _ (tri_number _ _ hx)
  | wgSaw _ hx => exact h.setNum _ (saw_number _ _ hx)
  | wgSqr _ hx => exact h.setNum _ (square_number _ _ _ hx)
  | pwMod _ hx => exact h.setNum _ (pulseWidth_number _ _ _ _ hx)
  | hbTick _ hw => exact h.hbTick hf hw
  | envStep _ hw => exact (h.envStep hw).setNum _ (h.envStep hw _)
  | envRst => exact h.setEnvUnit _ envUnitReset_numbers
  | fltProc _ hy =>
    have hy := fltStep_number _ _ _ _ _ _ hy
    exact (h.setNum _ hy).setNum _ hy
  | cutMod _ _ hx => exact h.setNum _ (cutoffBy_number _ (h _) _ _ hx)
  | vgBank _ _ hw => exact h.bankTick hf hw
  | vgTrio _ _ _ _ hw => exact h.trioTick hw

end Sys2Proof.Machine
end

section
/-! PROOFS. 10_state.md R28, R29, R34 to R37: reset, and the sound states every step keeps. -/

namespace Sys2Proof.Machine

open F32

/-! Reset -/

@[simp] theorem Voice.num_reset {ν : Type} (z : ν) (r : NumReg) : (Voice.reset z).num r = z := by
  cases r <;> simp [Voice.reset, Voice.num, Vector.get_eq_getElem]

theorem Voice.word_reset (r : Reg) : (Voice.reset 0).word r = 0 := by
  cases r with
  | num r => exact Voice.num_reset 0 r
  | cfg0 | status => rfl
  | cfgc k | envSt k | envGprev k => revert k; decide

/-- Settles O12: each register of the reset block is 0, and its table is the empty list. -/
theorem resetValues : Obligations.ResetValues :=
  ⟨Voice.word_reset, by decide, fun _ => rfl⟩

/-- Settles O23: an empty table that is not built, and zeros in every register. -/
theorem resetStateIsSound : Obligations.ResetStateIsSound := by
  refine ⟨paramsOf_allowed _, ⟨State.reset_wf, fun _ => rfl, fun _ _ h => nomatch h⟩, ⟨rfl, by decide, rfl⟩,
    fun r => ?_, fun r _ => ?_⟩
  · exact (congrArg isNaN (Voice.num_reset 0 r)).trans rfl
  · exact (congrArg isFinite (Voice.num_reset 0 r)).trans rfl

/-! The table -/

/-- Filling cells writes the sample of each of them and no other cell. -/
theorem read_foldlM_fillCell {ν : Type} {N : Numerics ν} {c : Config ν} {l : List Nat} {m m' : Memory ν}
    (h : l.foldlM (wtFillCell N c) m = .ok m') (i : Nat) :
    (i ∈ l → ∃ x, wtSample N c i = .ok x ∧ Memory.read m' i = some x) ∧
      (i ∉ l → Memory.read m' i = Memory.read m i) := by
  induction l generalizing m with
  | nil => cases h; exact ⟨fun hi => absurd hi List.not_mem_nil, fun _ => rfl⟩
  | cons a l ih =>
    rw [List.foldlM_cons, calc_bind_ok] at h
    obtain ⟨m1, h1, h⟩ := h
    obtain ⟨x, hx, h1⟩ := calc_bind_ok.mp h1
    cases h1
    obtain ⟨hin, hout⟩ := ih h
    rw [Memory.read_write] at hout
    refine ⟨fun hi => ?_, fun hi => ?_⟩
    · by_cases hl : i ∈ l
      · exact hin hl
      · obtain rfl : i = a := (List.mem_cons.mp hi).resolve_right hl
        exact ⟨x, hx, by rw [hout hl, if_pos rfl]⟩
    · obtain ⟨hne, hl⟩ := not_or.mp (mt List.mem_cons.mpr hi)
      rw [hout hl, if_neg hne]

/-- A filled table holds its sample in every cell, and what it held beyond them. -/
theorem read_wtFill {ν : Type} {N : Numerics ν} {c : Config ν} {m m' : Memory ν} (h : wtFill N c m = .ok m') (i : Nat) :
    (i < tableSize c → ∃ x, wtSample N c i = .ok x ∧ Memory.read m' i = some x) ∧
      (tableSize c ≤ i → Memory.read m' i = Memory.read m i) := by
  have := read_foldlM_fillCell h i
  simpa using this

theorem TableSound.congr {c : Config NumWord} {v w : Voice NumWord} (h : TableSound c v) (ht : w.wt = v.wt)
    (hb : w.wtb = v.wtb) : TableSound c w := by
  rwa [TableSound, ht, hb]

/-- `WT.BUILD` on a sound table that is not built leaves a sound table. -/
theorem TableSound.build {p : OpenParams} {v : Voice NumWord} {m : Memory NumWord} (h : TableSound (configOf p) v)
    (hb : v.wtb = false) (hm : wtFill f32 (configOf p) v.wt = .ok m) :
    TableSound (configOf p) ((v.setWt m).setStatus (setBit v.status wtbBit)) := by
  obtain ⟨hwf, hsome, -⟩ := h
  have hempty : ∀ i, Memory.read v.wt i = none := fun i => by simpa [hb] using hsome i
  have hbuilt : ((v.setWt m).setStatus (setBit v.status wtbBit)).wtb = true := by
    rw [Voice.wtb, Voice.status_setStatus, getLsbD_setBit _ _ _ (by decide)]; simp
  have hbelow : ∀ i < tableSize (configOf p), ∃ x, Memory.read m i = some x ∧ isFinite x = true := fun i hi => by
    obtain ⟨x, hx, hr⟩ := (read_wtFill hm i).1 hi
    exact ⟨x, hr, (wtSample_finite (wtFill_finite hm).1 hi hx).2⟩
  have habove : ∀ i, ¬ i < tableSize (configOf p) → Memory.read m i = none := fun i hi => by
    rw [(read_wtFill hm i).2 (not_lt.mp hi), hempty i]
  refine ⟨wtFill_wf hwf hm, fun i => ?_, fun i x hx => ?_⟩
  · rw [hbuilt, Voice.wt_setStatus, Voice.wt_setWt]
    by_cases hi : i < tableSize (configOf p)
    · obtain ⟨x, hr, -⟩ := hbelow i hi
      simp [hr, hi]
    · simp [habove i hi, hi]
  · rw [Voice.wt_setStatus, Voice.wt_setWt] at hx
    by_cases hi : i < tableSize (configOf p)
    · obtain ⟨y, hr, hy⟩ := hbelow i hi
      rw [hr] at hx
      cases hx
      exact hy
    · rw [habove i hi] at hx
      cases hx

theorem TableSound.step {s : State} {v : Voice NumWord} (h : TableSound s.config s.voice) (hv : StepEffect s v) :
    TableSound s.config v := by
  cases hv with
  | same | cfg0 | cfgc => exact h
  | raise f => exact h.congr rfl (Voice.wtb_raise _ f)
  | input => exact h.congr (Voice.wt_setNum _ _ _) (Voice.wtb_congr (Voice.status_setNum _ _ _))
  | command _ _ hv =>
    obtain ⟨hs, ht⟩ | ⟨-, hb, m, hm, rfl⟩ := hv.status_table
    · exact h.congr ht (Voice.wtb_congr hs)
    · exact h.build hb hm

/-! The reserved bits -/

/-- Setting a bit outside a mask. -/
theorem setBit_and {x y : Word} {n : Nat} (h : x &&& y = 0) (hn : BitVec.twoPow 32 n &&& y = 0) :
    setBit x n &&& y = 0 := by
  rw [setBit, BitVec.and_comm, BitVec.and_or_distrib_left, BitVec.and_comm y, BitVec.and_comm y, h, hn]
  rfl

/-- No fault bit is a reserved bit of `STATUS` (10_state.md R34). -/
theorem FaultBit.twoPow_and (f : FaultBit) : BitVec.twoPow 32 f.bit &&& 0xFFFFC0FE = 0 := by cases f <;> decide

theorem ReservedZero.step {s : State} {v : Voice NumWord} (h : ReservedZero s.voice) (hv : StepEffect s v) :
    ReservedZero v := by
  obtain ⟨h0, hc, hs⟩ := h
  cases hv with
  | same => exact ⟨h0, hc, hs⟩
  | raise f => exact ⟨h0, hc, setBit_and hs f.twoPow_and⟩
  | cfg0 w => exact ⟨by rw [Voice.cfg0_setCfg0, BitVec.and_assoc]; exact BitVec.and_zero, hc, hs⟩
  | cfgc k w =>
    refine ⟨h0, fun j => ?_, hs⟩
    rw [Voice.cfgc_setCfgc]
    split
    · rw [BitVec.and_assoc]; exact BitVec.and_zero
    · exact hc j
  | input => exact ⟨by rwa [Voice.cfg0_setNum], by rwa [Voice.cfgc_setNum], by rwa [Voice.status_setNum]⟩
  | command _ _ hv =>
    refine ⟨by rwa [hv.cfg0], fun k => by rw [hv.cfgc k]; exact hc k, ?_⟩
    obtain ⟨hs', -⟩ | ⟨-, -, m, -, rfl⟩ := hv.status_table
    · rwa [hs']
    · exact setBit_and hs (by decide)

/-! The numbers -/

/-- The `Num` registers the host may write have numbers of the lower half (20_memory.md R62). -/
theorem NumReg.number_lt_of_isInput {r : NumReg} (h : r.isInput = true) : r.number < 0x80 := by
  cases r <;> cases h <;> simp only [NumReg.number] <;> omega

theorem ftab_not_nan {p : OpenParams} (h : p.allowed) (m : HarmTable) (i : Fin 8) :
    isNaN ((configOf p).ftab m i) = false := by
  obtain ⟨-, -, hf, -⟩ := h
  exact (hf m i).1

theorem NumbersSound.step {s : State} {v : Voice NumWord} (h : NumbersSound s.voice) (hp : s.params.allowed)
    (ht : TableSound s.config s.voice) (hv : StepEffect s v) : NumbersSound v := by
  obtain ⟨hn, hf⟩ := h
  cases hv with
  | same => exact ⟨hn, hf⟩
  | raise | cfg0 | cfgc => exact ⟨fun r => by simpa using hn r, fun r hr => by simpa using hf r hr⟩
  | @input q w _ hw =>
    refine ⟨Voice.Numbers.setNum hn q (isNaN_of_isFinite hw), fun r hr => ?_⟩
    rw [Voice.num_setNum]
    split
    · exact hw
    · exact hf r hr
  | command _ _ hv =>
    obtain ⟨-, -, hcells⟩ := ht
    refine ⟨Voice.Numbers.performs hn (ftab_not_nan hp) (fun i x hx => isNaN_of_isFinite (hcells i x hx)) hv,
      fun r hr => ?_⟩
    have hkept : v.num r = s.voice.num r := hv.word_of_lt (r := .num r) (NumReg.number_lt_of_isInput hr)
    rw [hkept]
    exact hf r hr

/-- Settles O22: parameters, table, reserved bits and numbers are kept by each effect of a step. -/
theorem stepKeepsSoundState : Obligations.StepKeepsSoundState := by
  rintro s t ⟨hp, ht, hr, hn⟩ h
  have hv := step_effect h
  have hparams := step_params h
  refine ⟨hparams ▸ hp, ?_, hr.step hv, hn.step hp ht hv⟩
  rw [State.config, hparams]
  exact ht.step hv

end Sys2Proof.Machine
end

section
/-! PROOFS. 10_state.md R26: no rule reads the slot latches. -/

namespace Sys2Proof.Machine

variable {ν : Type} {N : Numerics ν} {c : Config ν} {v w : Voice ν}

/-- The block with other slot latches. -/
def Voice.withLatches (v : Voice ν) (f a : Vector ν 8) : Voice ν := { v with slotF := f, slotA := a }

theorem Voice.setEnvUnit_withLatches (v : Voice ν) (f a : Vector ν 8) (k : Fin 3) (u : EnvUnit ν) :
    (v.withLatches f a).setEnvUnit k u = (v.setEnvUnit k u).withLatches f a := rfl

/-! The stages: each does with other latches what it did -/

theorem envStep_withLatches {k : Fin 3} (h : envStep N c k v = .ok w) (f a : Vector ν 8) :
    envStep N c k (v.withLatches f a) = .ok (w.withLatches f a) := by
  obtain ⟨u, hu, rfl⟩ := envStep_ok.mp h
  exact envStep_ok.mpr ⟨u, hu, rfl⟩

theorem filterStage_withLatches {k : Fin 3} {m : CutMode} {x : ν} (h : filterStage N c k m x v = .ok w)
    (f a : Vector ν 8) : filterStage N c k m x (v.withLatches f a) = .ok (w.withLatches f a) := by
  obtain ⟨co, y, hco, hy, rfl⟩ := filterStage_ok.mp h
  exact filterStage_ok.mpr ⟨co, y, hco, hy, rfl⟩

theorem chainTick_withLatches {af : ν} {k : Fin 3} {m : CutMode} (h : chainTick N c af k m v = .ok w)
    (f a : Vector ν 8) : chainTick N c af k m (v.withLatches f a) = .ok (w.withLatches f a) := by
  obtain ⟨fr, p, wd, x, v2, v3, g, e, o, hf, hp, hwd, hx, h2, h3, hg, he, ho, rfl⟩ := chainTick_ok.mp h
  exact chainTick_ok.mpr ⟨fr, p, wd, x, _, _, g, e, o, hf, hp, hwd, hx, envStep_withLatches h2 f a,
    filterStage_withLatches h3 f a, hg, he, ho, rfl⟩

theorem trioTick_withLatches {m0 m1 m2 : CutMode} (h : trioTick N c m0 m1 m2 v = .ok w) (f a : Vector ν 8) :
    trioTick N c m0 m1 m2 (v.withLatches f a) = .ok (w.withLatches f a) := by
  obtain ⟨af, v0, v1, v2, x, haf, h0, h1, h2, hx, rfl⟩ := trioTick_ok.mp h
  exact trioTick_ok.mpr ⟨af, _, _, _, x, haf, chainTick_withLatches h0 f a, chainTick_withLatches h1 f a,
    chainTick_withLatches h2 f a, hx, rfl⟩

/-! The bank writes latches and reads none: it gives the same but for the latches -/

theorem hbSlot_withLatches {fb : ν} {acc acc' : Voice ν × ν} {i : Fin 8} (h : hbSlot N c fb acc i = .ok acc')
    (f a : Vector ν 8) :
    ∃ f' a', hbSlot N c fb (acc.1.withLatches f a, acc.2) i = .ok (acc'.1.withLatches f' a', acc'.2) := by
  obtain ⟨fr, p, am, x, y, sum, hf, hp, ha, hx, hy, hs, rfl⟩ := hbSlot_ok.mp h
  exact ⟨f.set i fr, a.set i am, hbSlot_ok.mpr ⟨fr, p, am, x, y, sum, hf, hp, ha, hx, hy, hs, rfl⟩⟩

theorem foldlM_hbSlot_withLatches {fb : ν} {l : List (Fin 8)} {acc acc' : Voice ν × ν}
    (h : l.foldlM (hbSlot N c fb) acc = .ok acc') (f a : Vector ν 8) :
    ∃ f' a', l.foldlM (hbSlot N c fb) (acc.1.withLatches f a, acc.2) = .ok (acc'.1.withLatches f' a', acc'.2) := by
  induction l generalizing acc f a with
  | nil => cases h; exact ⟨f, a, rfl⟩
  | cons i l ih =>
    rw [List.foldlM_cons, calc_bind_ok] at h
    obtain ⟨acc1, h1, h⟩ := h
    obtain ⟨f1, a1, h1⟩ := hbSlot_withLatches h1 f a
    obtain ⟨f2, a2, h2⟩ := ih h f1 a1
    exact ⟨f2, a2, by rw [List.foldlM_cons, h1]; exact h2⟩

theorem hbTick_withLatches (h : hbTick N c v = .ok w) (f a : Vector ν 8) :
    ∃ f' a', hbTick N c (v.withLatches f a) = .ok (w.withLatches f' a') := by
  obtain ⟨fb, r, g, o, hfb, hr, hg, ho, rfl⟩ := hbTick_ok.mp h
  obtain ⟨f', a', hr⟩ := foldlM_hbSlot_withLatches hr f a
  exact ⟨f', a', hbTick_ok.mpr ⟨fb, _, g, o, hfb, hr, hg, ho, rfl⟩⟩

theorem bankTick_withLatches {m : CutMode} (h : bankTick N c m v = .ok w) (f a : Vector ν 8) :
    ∃ f' a', bankTick N c m (v.withLatches f a) = .ok (w.withLatches f' a') := by
  obtain ⟨fr, v1, v2, v3, e, af, o, hf, h1, h2, h3, he, haf, ho, rfl⟩ := bankTick_ok.mp h
  obtain ⟨f', a', h1⟩ := hbTick_withLatches h1 f a
  exact ⟨f', a', bankTick_ok.mpr ⟨fr, _, _, _, e, af, o, hf, h1, envStep_withLatches h2 f' a',
    filterStage_withLatches h3 f' a', he, haf, ho, rfl⟩⟩

/-! The commands -/

variable {i : Instr}

theorem Raises.withLatches {b : FaultBit} (h : Raises v i b) (f a : Vector ν 8) : Raises (v.withLatches f a) i b := by
  cases h with
  | idx hi => exact .idx hi
  | wtBuild hb => exact .wtBuild hb
  | wtLookup hj hb => exact .wtLookup hj hb
  | wgSint hj hb => exact .wgSint hj hb
  | hbTick hb => exact .hbTick hb
  | cutMod hk hm => exact .cutMod hk hm
  | vgBankMode hm => exact .vgBankMode hm
  | vgBankTable hm hb => exact .vgBankTable hm hb
  | vgTrioMode k hm => exact .vgTrioMode k hm
  | vgTrioTable h0 h1 h2 hb => exact .vgTrioTable h0 h1 h2 hb

/-- A command performs its rule with other latches as it did, and leaves a block that differs in the latches only. -/
theorem Performs.withLatches (h : Performs N c v i w) (f a : Vector ν 8) :
    ∃ f' a', Performs N c (v.withLatches f a) i (w.withLatches f' a') := by
  cases h with
  | nop => exact ⟨f, a, .nop⟩
  | wtBuild hb hm => exact ⟨f, a, .wtBuild hb hm⟩
  | wtLookup hj hb hx => exact ⟨f, a, .wtLookup hj hb hx⟩
  | phAdv hj hq => exact ⟨f, a, .phAdv hj hq⟩
  | phRst hj => exact ⟨f, a, .phRst hj⟩
  | frqCv hk hf => exact ⟨f, a, .frqCv hk hf⟩
  | wgSint hj hb hx => exact ⟨f, a, .wgSint hj hb hx⟩
  | wgSind hj hx => exact ⟨f, a, .wgSind hj hx⟩
  | wgTri hj hx => exact ⟨f, a, .wgTri hj hx⟩
  | wgSaw hj hx => exact ⟨f, a, .wgSaw hj hx⟩
  | wgSqr hj hx => exact ⟨f, a, .wgSqr hj hx⟩
  | pwMod hk hx => exact ⟨f, a, .pwMod hk hx⟩
  | envStep hk hw => exact ⟨f, a, .envStep hk (envStep_withLatches hw f a)⟩
  | envRst hk => exact ⟨f, a, by rw [← Voice.setEnvUnit_withLatches]; exact .envRst hk⟩
  | fltProc hk hy => exact ⟨f, a, .fltProc hk hy⟩
  | cutMod hk hm hx => exact ⟨f, a, .cutMod hk hm hx⟩
  | hbTick hb hw =>
    obtain ⟨f', a', hw⟩ := hbTick_withLatches hw f a
    exact ⟨f', a', .hbTick hb hw⟩
  | vgBank hm hb hw =>
    obtain ⟨f', a', hw⟩ := bankTick_withLatches hw f a
    exact ⟨f', a', .vgBank hm hb hw⟩
  | vgTrio h0 h1 h2 hb hw => exact ⟨f, a, .vgTrio h0 h1 h2 hb (trioTick_withLatches hw f a)⟩

theorem runCommand_withLatches (h : runCommand N c i v = .ok w) (f a : Vector ν 8) :
    ∃ f' a', runCommand N c i (v.withLatches f a) = .ok (w.withLatches f' a') := by
  obtain ⟨b, hb, rfl⟩ | hp := runCommand_ok h
  · exact ⟨f, a, runCommand_of_raises N c (hb.withLatches f a)⟩
  · obtain ⟨f', a', hp⟩ := hp.withLatches f a
    exact ⟨f', a', runCommand_of_performs hp⟩

/-! Blocks that differ in the latches only -/

theorem EnvState.code_inj {d e : EnvState} (h : d.code = e.code) : d = e := by
  cases d <;> cases e <;> cases h <;> rfl

theorem Voice.word_withLatches (v : Voice NumWord) (f a : Vector NumWord 8) {r : Reg} (hf : ∀ j, r ≠ .num (.slotF j))
    (ha : ∀ j, r ≠ .num (.slotA j)) : (v.withLatches f a).word r = v.word r := by
  cases r with
  | num r =>
    cases r with
    | slotF j => exact absurd rfl (hf j)
    | slotA j => exact absurd rfl (ha j)
    | _ => rfl
  | _ => rfl

/-- Where the words of all other registers and the tables agree, the blocks differ in the latches only. -/
theorem Voice.eq_withLatches {v v' : Voice NumWord}
    (h : ∀ r, (∀ j, r ≠ .num (.slotF j)) → (∀ j, r ≠ .num (.slotA j)) → v'.word r = v.word r) (hw : v'.wt = v.wt) :
    v' = v.withLatches v'.slotF v'.slotA := by
  refine Voice.ext_registers (fun r => ?_) (h .cfg0 nofun nofun) (fun k => h (.cfgc k) nofun nofun)
    (fun k => EnvState.code_inj (h (.envSt k) nofun nofun)) (fun k => ?_) (h .status nofun nofun) hw
  · by_cases hf : ∃ j, r = .slotF j
    · obtain ⟨j, rfl⟩ := hf; rfl
    by_cases ha : ∃ j, r = .slotA j
    · obtain ⟨j, rfl⟩ := ha; rfl
    have hf' : ∀ j, Reg.num r ≠ .num (.slotF j) := fun j e => hf ⟨j, Reg.num.inj e⟩
    have ha' : ∀ j, Reg.num r ≠ .num (.slotA j) := fun j e => ha ⟨j, Reg.num.inj e⟩
    exact (h _ hf' ha').trans (Voice.word_withLatches v _ _ hf' ha').symm
  · have hk := h (.envGprev k) nofun nofun
    change v'.envGprev.get k = v.envGprev.get k
    cases hv : v.envGprev.get k <;> cases hv' : v'.envGprev.get k <;> simp [Voice.word, hv, hv'] at hk ⊢

/-- Settles O51: the second block is the first with other latches, and so is what the command leaves of it. -/
theorem slotLatchesAreNeverRead : Obligations.SlotLatchesAreNeverRead := by
  intro i s s' t hwords hwt hparams h
  obtain ⟨w, hw, rfl⟩ := exec_next.mp h
  obtain ⟨f, a, hw'⟩ := runCommand_withLatches hw s'.voice.slotF s'.voice.slotA
  rw [← Voice.eq_withLatches hwords hwt, State.config, ← hparams] at hw'
  exact ⟨_, exec_next.mpr ⟨_, hw', rfl⟩, rfl, fun r => Voice.word_withLatches w f a⟩

end Sys2Proof.Machine
end

section
/-! PROOFS. 20_memory.md R62, R64 to R66: the register map, and the host's three actions. -/

namespace Sys2Proof.Machine

/-! The register map -/

/-- A number names the register that has it, and no other (20_memory.md R62). -/
theorem Reg.ofNumber_eq_some {n : RegNum} {r : Reg} : Reg.ofNumber n = some r ↔ r.number = n.toNat := by
  refine ⟨Reg.number_of_ofNumber, fun h => ?_⟩
  have hr := Reg.ofNumber_number r
  rwa [h, BitVec.ofNat_toNat, BitVec.setWidth_eq] at hr

/-- The map names a register at the numbers of the table's rows, RW and RO, and at no other. -/
theorem Reg.isSome_ofNumber (n : RegNum) : (Reg.ofNumber n).isSome = decide (n.toNat ∈ rwNumbers ++ roNumbers) := by
  revert n; decide +kernel

theorem Reg.ofNumber_eq_none {n : RegNum} (hrw : n.toNat ∉ rwNumbers) (hro : n.toNat ∉ roNumbers) :
    Reg.ofNumber n = none := by
  simpa [hrw, hro] using Reg.isSome_ofNumber n

/-- The `Num` registers the host may write are those of the RW rows. -/
theorem NumReg.isInput_iff {r : NumReg} : r.isInput = true ↔ r.number ∈ rwNumbers := by
  refine ⟨fun h => ?_, NumReg.isInput_of_number_mem⟩
  cases r with
  | dt | sr | ampCv | a0 | a1 => decide
  | gateV k | pitch k | fabs k | pw k | pwmAmt k | pwmCv k | att k | dec k | sus k | rel k | cut k | cutCv k | level k
  | hcv k => revert k; decide
  | _ => cases h

theorem cfgc_number_mem (k : Fin 3) : (Reg.cfgc k).number ∈ rwNumbers := by revert k; decide

/-- Settles O10: the 256 numbers against the table, and each register against its own number. -/
theorem registerMapIsTheTable : Obligations.RegisterMapIsTheTable :=
  ⟨Reg.isSome_ofNumber, fun _ _ => Reg.ofNumber_eq_some,
    fun _ => Bool.eq_iff_iff.mpr (NumReg.isInput_iff.trans decide_eq_true_iff.symm)⟩

/-! One action is one step -/

/-- A step performs the first pending action, in the state with the action taken. -/
theorem step_perform {s : State} {a : HostAction} {rest : List HostAction} (h : s.pending = a :: rest) :
    step s = perform a (s.taken rest) := by
  simp only [step, takeAction, h, State.taken]

/-! `Exec` -/

theorem hostExec_of_decode {w : Cmd} {i : Instr} (s : State) (h : decode w = .ok i) : hostExec w s = exec i s := by
  simp only [hostExec, h]

/-- Settles O6: the step performs the `Exec`, and the word's meaning is its command's. -/
theorem stepRunsTheDecodedCommand : Obligations.StepRunsTheDecodedCommand := by
  intro s w rest i hp hd
  rw [step_perform hp]
  exact hostExec_of_decode _ hd

/-! `ReadReg` -/

theorem hostRead_mapped {n : RegNum} {r : Reg} (s : State) (h : Reg.ofNumber n = some r) :
    hostRead n s = .next { s with reply := some (s.voice.word r) } := by
  simp only [hostRead, h]

theorem hostRead_unmapped {n : RegNum} (s : State) (h : Reg.ofNumber n = none) :
    hostRead n s = raiseFault .reg { s with reply := some 0 } := by
  simp only [hostRead, h]

/-- Settles O9: a mapped number names its register, and a number in neither list names none. -/
theorem readRegReturnsTheRegister : Obligations.ReadRegReturnsTheRegister := by
  intro s n rest hp
  rw [step_perform hp]
  exact ⟨fun r hr => hostRead_mapped _ (Reg.ofNumber_eq_some.mpr hr),
    fun hrw hro => hostRead_unmapped _ (Reg.ofNumber_eq_none hrw hro)⟩

/-! `WriteReg` -/

section
variable {n : RegNum} {w : Word} {s : State}

theorem hostWrite_input {r : NumReg} (hn : Reg.ofNumber n = some (.num r)) (hr : r.isInput = true)
    (hw : F32.isFinite w = true) : hostWrite n w s = .next (s.withVoice (s.voice.setNum r w)) := by
  simp only [hostWrite, hn, hr, hw, if_true]

theorem hostWrite_cfg0 (hn : Reg.ofNumber n = some .cfg0) :
    hostWrite n w s = .next (s.withVoice (s.voice.setCfg0 w)) := by
  simp only [hostWrite, hn]

theorem hostWrite_cfgc {k : Fin 3} (hn : Reg.ofNumber n = some (.cfgc k)) :
    hostWrite n w s = .next (s.withVoice (s.voice.setCfgc k w)) := by
  simp only [hostWrite, hn]

/-- A number that is not host RW raises `F_REG` at every word: `CFG0`, `CFGC[k]` and the inputs are all RW. -/
theorem hostWrite_not_rw (hn : n.toNat ∉ rwNumbers) : hostWrite n w s = raiseFault .reg s := by
  unfold hostWrite
  split
  next h => exact absurd (Reg.number_of_ofNumber h ▸ by decide) hn
  next k h => exact absurd (Reg.number_of_ofNumber h ▸ cfgc_number_mem k) hn
  next r h =>
    have hr : r.isInput = false :=
      Bool.eq_false_iff.mpr fun hr => hn (Reg.number_of_ofNumber h ▸ NumReg.isInput_iff.mp hr)
    rw [hr]; rfl
  all_goals rfl

theorem sameRegs_setCfg0 (v : Voice NumWord) (w : Word) : SameRegsBut [.cfg0] v (v.setCfg0 w) := by
  intro r hr
  cases r with
  | num r => exact Voice.num_setCfg0 v w r
  | cfg0 => exact absurd List.mem_cons_self hr
  | _ => rfl

theorem sameRegs_setCfgc (v : Voice NumWord) (k : Fin 3) (w : Word) : SameRegsBut [.cfgc k] v (v.setCfgc k w) := by
  intro r hr
  cases r with
  | num r => exact Voice.num_setCfgc v k w r
  | cfgc j =>
    have hj : j ≠ k := fun e => hr (e ▸ List.mem_cons_self)
    exact (Voice.cfgc_setCfgc v k j w).trans (if_neg hj)
  | _ => rfl

/-- A step that stores registers and keeps the wavetable. -/
theorem frame_withVoice {l : List Reg} {v : Voice NumWord} (hr : SameRegsBut l s.voice v) (hw : v.wt = s.voice.wt) :
    Frame l s (s.withVoice v) :=
  ⟨hr, fun i => congrArg (Memory.read · i) hw, rfl, rfl, rfl⟩

/-- The bits `CFG0` stores are 4:0 and 15:8 (10_state.md R28). -/
theorem getLsbD_cfg0Mask :
    ∀ b < 32, (0x0000FF1F : Word).getLsbD b = (decide (b < 5) || (decide (8 ≤ b) && decide (b < 16))) := by decide

/-- The bits `CFGC[k]` stores are 5:0 (10_state.md R29). -/
theorem getLsbD_cfgcMask : ∀ b < 32, (0x0000003F : Word).getLsbD b = decide (b < 6) := by decide

end

/-- Settles O8: each number names its register, and the write of that register is read off. -/
theorem writeRegStoresOrFaults : Obligations.WriteRegStoresOrFaults := by
  intro s n w rest hp
  rw [step_writeReg hp]
  refine ⟨fun r hr hrw hw => ?_, fun hn => ?_, fun k hk => ?_, fun hn => hostWrite_not_rw hn⟩
  · exact ⟨_, hostWrite_input (Reg.ofNumber_num hr) (NumReg.isInput_iff.mpr (hr ▸ hrw)) hw, by simp,
      frame_withVoice (sameRegs_setNum _ _ (sameRegs_refl _ _) List.mem_cons_self) (Voice.wt_setNum _ r w)⟩
  · exact ⟨_, hostWrite_cfg0 (Reg.ofNumber_eq_some.mpr hn.symm), frame_withVoice (sameRegs_setCfg0 _ w) rfl,
      fun b hb => by simp only [State.voice_withVoice, Voice.cfg0_setCfg0, BitVec.getLsbD_and, getLsbD_cfg0Mask b hb]⟩
  · refine ⟨_, hostWrite_cfgc (Reg.ofNumber_eq_some.mpr hk.symm), frame_withVoice (sameRegs_setCfgc _ k w) rfl,
      fun b hb => ?_⟩
    simp only [State.voice_withVoice, Voice.cfgc_setCfgc, if_true, BitVec.getLsbD_and, getLsbD_cfgcMask b hb]

end Sys2Proof.Machine
end

section
/-! PROOFS. 20_memory.md R67: a table index is below N. -/

namespace Sys2Proof.Machine

/-- The floored modulo by N is below N, whatever number type gave the phase (40_wavetable.md R102). -/
theorem wtIndex_lt {ν : Type} {N : Numerics ν} {c : Config ν} {p : ν} {i : Nat} (h : wtIndex N c p = .ok i) :
    i < tableSize c := by
  simp only [wtIndex, calc_bind_ok, calc_pure_ok] at h
  obtain ⟨t, -, f, -, rfl⟩ := h
  have hN := tableSize_pos c
  have hlt := Int.emod_lt_of_pos (f.getD (c.floorInf t)) (by omega : (0 : Int) < tableSize c)
  omega

theorem tableSize_cast {ν : Type} (c : Config ν) : (tableSize c : Int) = max c.wtSize 1 :=
  Int.toNat_of_nonneg (by omega)

/-- Under REAL every phase has an index. -/
theorem wtIndex_reals (c : Config ℝ) (p : ℝ) :
    wtIndex reals c p = .ok (⌊p * (tableSize c : ℝ)⌋ % (tableSize c : Int)).toNat := by
  simp [wtIndex, reals, int, calc_pure]

/-- Settles O29: the modulo bounds both indices, and under REAL the floor is exact. -/
theorem tableIndexInRange : Obligations.TableIndexInRange := by
  refine ⟨fun s p i h => wtIndex_lt h, fun c p => ⟨_, wtIndex_reals c p, ?_, wtIndex_lt (wtIndex_reals c p)⟩⟩
  rw [← tableSize_cast]
  exact Int.toNat_of_nonneg (Int.emod_nonneg _ (by have := tableSize_pos c; omega))

end Sys2Proof.Machine
end

section
/-! PROOFS. 20_memory.md R67, 10_state.md R37: from a sound state no lookup meets a cell without a value. -/

namespace Sys2Proof.Machine

/-! Computations that meet no cell without a value -/

/-- The computation does not stop at a cell without a value; it may stop at a NaN. -/
def FindsCells {α : Type} (o : Calc α) : Prop := o ≠ .error .noValue

section
variable {α β : Type}

@[simp] theorem findsCells_ok (a : α) : FindsCells (.ok a) := nofun

@[simp] theorem findsCells_pure (a : α) : FindsCells (pure a) := nofun

@[simp] theorem findsCells_nan : FindsCells (.error .nan : Calc α) := nofun

@[simp] theorem findsCells_bind {x : Calc α} {f : α → Calc β} :
    FindsCells (x >>= f) ↔ FindsCells x ∧ ∀ a, x = .ok a → FindsCells (f a) := by
  cases x with
  | ok a => simp
  | error e => cases e <;> simp [FindsCells]

@[simp] theorem findsCells_map {f : α → β} {x : Calc α} : FindsCells (f <$> x) ↔ FindsCells x := by
  cases x with
  | ok a => exact iff_of_true nofun nofun
  | error e => cases e <;> simp [FindsCells, Functor.map, Except.map]

@[simp] theorem findsCells_ite {p : Prop} [Decidable p] {x y : Calc α} :
    FindsCells (if p then x else y) ↔ (p → FindsCells x) ∧ (¬ p → FindsCells y) := by
  split <;> simp [*]

/-- A fold finds its cells where every step does on what the steps before it keep. -/
theorem findsCells_foldlM {P : β → Prop} {f : β → α → Calc β} (hf : ∀ b a, P b → FindsCells (f b a))
    (keeps : ∀ b a b', P b → f b a = .ok b' → P b') (l : List α) {b : β} (hb : P b) :
    FindsCells (l.foldlM f b) := by
  induction l generalizing b with
  | nil => exact findsCells_pure b
  | cons a l ih =>
    rw [List.foldlM_cons, findsCells_bind]
    exact ⟨hf b a hb, fun b' h => ih (keeps b a b' hb h)⟩

end

/-! The binary32 operations: each stops at a NaN only -/

@[simp] theorem findsCells_add (a b : NumWord) : FindsCells (f32.add a b) := by simp [f32, F32.add]

@[simp] theorem findsCells_sub (a b : NumWord) : FindsCells (f32.sub a b) := findsCells_add a (F32.neg b)

@[simp] theorem findsCells_mul (a b : NumWord) : FindsCells (f32.mul a b) := by simp [f32, F32.mul]

@[simp] theorem findsCells_div (a b : NumWord) : FindsCells (f32.div a b) := by simp [f32, F32.div]

@[simp] theorem findsCells_lt (a b : NumWord) : FindsCells (f32.lt a b) := by simp [f32, F32.lt]

@[simp] theorem findsCells_le (a b : NumWord) : FindsCells (f32.le a b) := by simp [f32, F32.le]

@[simp] theorem findsCells_floor (a : NumWord) : FindsCells (f32.floor a) := by simp [f32, F32.floor]

@[simp] theorem findsCells_app (f : NumWord → NumWord) (a : NumWord) : FindsCells (f32.app f a) := by
  simp [f32, F32.app]

/-! The rules that look nothing up: sequences and branches of such operations -/

variable {c : Config NumWord} {v w : Voice NumWord}

@[simp] theorem findsCells_clamp (x lo hi : NumWord) : FindsCells (clamp f32 x lo hi) := by simp [clamp]

@[simp] theorem findsCells_maxNum (a b : NumWord) : FindsCells (maxNum f32 a b) := by simp [maxNum]

@[simp] theorem findsCells_cvUnit (x : NumWord) : FindsCells (cvUnit f32 x) := by simp [cvUnit]

@[simp] theorem findsCells_phaseAdvance (p f dt : NumWord) : FindsCells (phaseAdvance f32 p f dt) := by
  simp [phaseAdvance]

@[simp] theorem findsCells_chainFreq (k : Fin 3) : FindsCells (chainFreq f32 c v k) := by
  simp [chainFreq, absToFreq, pitchToFreq]

@[simp] theorem findsCells_wtFill (m : Memory NumWord) : FindsCells (wtFill f32 c m) :=
  findsCells_foldlM (P := fun _ => True) (fun m i _ => by simp [wtFillCell, wtSample]) (fun _ _ _ _ _ => trivial) _
    trivial

@[simp] theorem findsCells_tri (p : NumWord) : FindsCells (tri f32 p) := by simp [tri]

@[simp] theorem findsCells_saw (p : NumWord) : FindsCells (saw f32 p) := by simp [saw]

@[simp] theorem findsCells_square (p w : NumWord) : FindsCells (square f32 p w) := by simp [square]

@[simp] theorem findsCells_pulseWidth (pw amt cv : NumWord) : FindsCells (pulseWidth f32 pw amt cv) := by
  simp [pulseWidth]

@[simp] theorem findsCells_slotFreq (cfg0 : Word) (fb : NumWord) (i : Fin 8) :
    FindsCells (slotFreq f32 c cfg0 fb i) := by
  cases h : fsel cfg0 <;> simp [slotFreq, h]

@[simp] theorem findsCells_slotAmp (i : Fin 8) : FindsCells (slotAmp f32 v i) := by simp [slotAmp]

@[simp] theorem findsCells_fltStep (sr y x cutoff : NumWord) (swept : Bool) :
    FindsCells (fltStep f32 c sr y x cutoff swept) := by
  simp [fltStep, fltAlpha]

@[simp] theorem findsCells_cutoffBy (m : CutMode) (cut cv : NumWord) : FindsCells (cutoffBy f32 c m cut cv) := by
  cases m <;> simp [cutoffBy]

@[simp] theorem findsCells_ampFactor : FindsCells (ampFactor f32 v) := by simp [ampFactor]

@[simp] theorem findsCells_filterStage (k : Fin 3) (m : CutMode) (x : NumWord) :
    FindsCells (filterStage f32 c k m x v) := by
  simp [filterStage]

@[simp] theorem findsCells_envAction (x : EnvIn NumWord) (sc : NumWord) (u : EnvUnit NumWord) :
    FindsCells (envAction f32 c x sc u) := by
  cases h : u.st with
  | idle | sustain => simp [envAction, h]
  | attack => simp [envAction, h, envAttack]
  | decay => simp [envAction, h, envDecay]
  | release => simp [envAction, h, envRelease]

@[simp] theorem findsCells_envStep (k : Fin 3) : FindsCells (envStep f32 c k v) := by simp [envStep, envStepUnit]

/-! The rules that look the table up -/

/-- Every cell of the table holds a value. -/
def Filled (c : Config NumWord) (m : Memory NumWord) : Prop := ∀ i < tableSize c, (Memory.read m i).isSome

theorem TableSound.filled (h : TableSound c v) (hb : v.wtb = true) : Filled c v.wt := fun i hi => by
  obtain ⟨-, hcell, -⟩ := h
  simp [hcell i, hb, hi]

/-- A lookup reads a cell of the table (20_memory.md R67). -/
theorem findsCells_wtLookup {m : Memory NumWord} (h : Filled c m) (p : NumWord) : FindsCells (wtLookup f32 c m p) := by
  refine findsCells_bind.mpr ⟨by simp [wtIndex], fun i hi => ?_⟩
  obtain ⟨x, hx⟩ := Option.isSome_iff_exists.mp (h i (wtIndex_lt hi))
  rw [hx]
  exact findsCells_ok x

/-- The sine of `CFG0.SD` can be taken: it is the direct one, or the table is filled. -/
def SineReady (c : Config NumWord) (v : Voice NumWord) : Prop := sd v.cfg0 = false → Filled c v.wt

theorem SineReady.congr (h : SineReady c v) (h0 : w.cfg0 = v.cfg0) (ht : w.wt = v.wt) : SineReady c w := by
  rwa [SineReady, h0, ht]

/-- Where the bank does not need a table that is not built, its sine can be taken. -/
theorem TableSound.sineReady (h : TableSound c v) (hb : bankUnbuilt v = false) : SineReady c v := fun hs =>
  h.filled (by simpa [bankUnbuilt, hs] using hb)

theorem SineReady.sineBy (h : SineReady c v) (p : NumWord) : FindsCells (sineBy f32 c v p) := by
  unfold Machine.sineBy
  split
  · exact findsCells_app _ _
  next hs => exact findsCells_wtLookup (h (Bool.eq_false_iff.mpr hs)) p

theorem SineReady.hbSlot {acc : Voice NumWord × NumWord} (h : SineReady c acc.1) (fb : NumWord) (i : Fin 8) :
    FindsCells (hbSlot f32 c fb acc i) := by
  simp [Machine.hbSlot, h.sineBy]

theorem SineReady.hbTick (h : SineReady c v) : FindsCells (hbTick f32 c v) := by
  have hslots (fb : NumWord) : FindsCells (slots.foldlM (Machine.hbSlot f32 c fb) (v, int f32 0)) := by
    refine findsCells_foldlM (P := fun acc => SineReady c acc.1) (fun acc i ha => ha.hbSlot fb i) ?_ slots h
    intro acc i acc' ha hi
    obtain ⟨f, p, a, x, y, sum, -, -, -, -, -, -, rfl⟩ := hbSlot_ok.mp hi
    exact ha.congr (by simp) (by simp)
  simp [Machine.hbTick, absToFreq, hslots]

theorem SineReady.bankTick (h : SineReady c v) (m : CutMode) : FindsCells (bankTick f32 c m v) := by
  have hbank (f : NumWord) : FindsCells (Machine.hbTick f32 c (v.setNum (.freq 0) f)) :=
    (h.congr (Voice.cfg0_setNum v _ f) (Voice.wt_setNum v _ f)).hbTick
  simp [Machine.bankTick, hbank]

/-- Every chain that is a sine can take it. -/
def WavesReady (c : Config NumWord) (v : Voice NumWord) : Prop :=
  ∀ k, waveSel (v.cfgc.get k) = .sine → SineReady c v

/-- Where the three chains do not need a table that is not built, their sines can be taken. -/
theorem TableSound.wavesReady (h : TableSound c v) (hb : trioUnbuilt v = false) : WavesReady c v := fun k hk => by
  refine h.sineReady (Bool.eq_false_iff.mpr fun hu => ?_)
  obtain ⟨h0, h1, h2⟩ : waveSel (v.cfgc.get 0) ≠ .sine ∧ waveSel (v.cfgc.get 1) ≠ .sine ∧
    waveSel (v.cfgc.get 2) ≠ .sine := by simpa [trioUnbuilt, hu, and_assoc] using hb
  match k with
  | 0 => exact h0 hk
  | 1 => exact h1 hk
  | 2 => exact h2 hk

theorem WavesReady.waveOf (h : WavesReady c v) (k : Fin 3) (p w : NumWord) :
    FindsCells (waveOf f32 c v (waveSel (v.cfgc.get k)) p w) := by
  cases hk : waveSel (v.cfgc.get k) with
  | sine => exact (h k hk).sineBy p
  | triangle => exact findsCells_tri p
  | saw => exact findsCells_saw p
  | square => exact findsCells_square p w

theorem WavesReady.chainTick (h : WavesReady c v) (af : NumWord) (k : Fin 3) (m : CutMode) :
    FindsCells (chainTick f32 c af k m v) := by
  simp [Machine.chainTick, h.waveOf]

/-- A chain writes no configuration and no cell, so the chains after it can take their sines too. -/
theorem WavesReady.after_chainTick (h : WavesReady c v) {af : NumWord} {k : Fin 3} {m : CutMode}
    (hw : Machine.chainTick f32 c af k m v = .ok w) : WavesReady c w := fun j hj => by
  obtain ⟨hr, ht⟩ := chainTick_frame hw
  have h0 : w.cfg0 = v.cfg0 := hr .cfg0 (by simp [chainRegs, envRegs])
  have hc : w.cfgc.get j = v.cfgc.get j := hr (.cfgc j) (by simp [chainRegs, envRegs])
  exact (h j (hc ▸ hj)).congr h0 ht

theorem WavesReady.trioTick (h : WavesReady c v) (m0 m1 m2 : CutMode) : FindsCells (trioTick f32 c m0 m1 m2 v) := by
  simp only [Machine.trioTick, findsCells_bind]
  refine ⟨findsCells_ampFactor, fun af _ => ⟨h.chainTick af 0 m0, fun v0 hv0 => ?_⟩⟩
  have h0 := h.after_chainTick hv0
  refine ⟨h0.chainTick af 1 m1, fun v1 hv1 => ?_⟩
  have h1 := h0.after_chainTick hv1
  exact ⟨h1.chainTick af 2 m2, fun v2 _ => by simp [mixOf]⟩

/-! The commands -/

/-- On a sound table no command meets a cell without a value: where it looks one up, it has checked `STATUS.WTB` first
(40_wavetable.md R104). -/
theorem findsCells_runCommand (h : TableSound c v) (i : Instr) : FindsCells (runCommand f32 c i v) := by
  cases i with
  | nop idx => cases hi : noIdx idx <;> simp [runCommand, nop, hi]
  | wtBuild idx => cases hi : noIdx idx <;> simp [runCommand, wtBuild, hi]
  | wtLookup idx | wgSint idx =>
    cases hi : phaseIdx idx with
    | none => simp [runCommand, wtLookupCmd, wgSint, hi]
    | some j =>
      by_cases hb : v.wtb = true
      · simp [runCommand, wtLookupCmd, wgSint, hi, hb, sineTable, findsCells_wtLookup (h.filled hb)]
      · simp [runCommand, wtLookupCmd, wgSint, hi, hb]
  | phAdv idx | phRst idx | wgSind idx | wgTri idx | wgSaw idx | wgSqr idx =>
    cases hi : phaseIdx idx <;> simp [runCommand, phAdv, phRst, wgSind, wgTri, wgSaw, wgSqr, hi, sineDirect]
  | frqCv idx | pwMod idx | envStep idx | envRst idx | fltProc idx =>
    cases hi : chainIdx idx <;> simp [runCommand, frqCv, pwMod, envStepCmd, envRst, fltProc, hi]
  | cutMod idx =>
    cases hi : chainIdx idx with
    | none => simp [runCommand, cutModCmd, hi]
    | some k => cases hm : cmod (v.cfgc.get k) <;> simp [runCommand, cutModCmd, hi, hm]
  | hbTick idx =>
    simp only [runCommand, hbTickCmd]
    split
    · exact findsCells_ok _
    · refine findsCells_ite.mpr ⟨fun _ => findsCells_ok _, fun hb => ?_⟩
      exact (h.sineReady (Bool.eq_false_iff.mpr hb)).hbTick
  | vgBank idx =>
    simp only [runCommand, vgBank]
    split
    · exact findsCells_ok _
    · split
      · exact findsCells_ok _
      next m _ =>
        refine findsCells_ite.mpr ⟨fun _ => findsCells_ok _, fun hb => ?_⟩
        exact (h.sineReady (Bool.eq_false_iff.mpr hb)).bankTick m
  | vgTrio idx =>
    simp only [runCommand, vgTrio]
    split
    · exact findsCells_ok _
    · split
      next m0 m1 m2 _ _ _ =>
        refine findsCells_ite.mpr ⟨fun _ => findsCells_ok _, fun hb => ?_⟩
        exact (h.wavesReady (Bool.eq_false_iff.mpr hb)).trioTick m0 m1 m2
      · exact findsCells_ok _

/-! The step -/

theorem hostWrite_ne_fault {n : RegNum} {w : Word} {s : State} {f : Fault} : hostWrite n w s ≠ .fault f := by
  unfold hostWrite
  split
  case h_3 => split_ifs <;> nofun
  all_goals nofun

theorem hostRead_ne_fault {n : RegNum} {s : State} {f : Fault} : hostRead n s ≠ .fault f := by
  unfold hostRead
  split <;> nofun

theorem hostExec_fault {w : Cmd} {s : State} {f : Fault} (h : hostExec w s = .fault f) :
    ∃ i, runCommand f32 s.config i s.voice = .error .noValue := by
  unfold hostExec at h
  split at h
  next i _ =>
    rw [exec_eq_finish] at h
    exact ⟨i, (finish_fault.mp h).1⟩
  · cases h

/-- A step that ends in the fault runs a command that met a cell without a value. -/
theorem step_fault {s : State} {f : Fault} (h : step s = .fault f) :
    ∃ i, runCommand f32 s.config i s.voice = .error .noValue := by
  cases hp : s.pending with
  | nil => simp [step, takeAction, hp] at h
  | cons a rest =>
    rw [step_perform hp] at h
    cases a with
    | writeReg n w => exact absurd h hostWrite_ne_fault
    | readReg n => exact absurd h hostRead_ne_fault
    | exec w => exact hostExec_fault (s := s.taken rest) h

/-- Settles O24: only a command can end in the fault, and on a sound table each finds the cells it reads. -/
theorem soundStatesNeverFault : Obligations.SoundStatesNeverFault := by
  rintro s f ⟨-, ht, -⟩ h
  obtain ⟨i, hi⟩ := step_fault h
  exact findsCells_runCommand ht i hi

end Sys2Proof.Machine
end

section
/-! PROOFS. 30_encoding.md R80 to R82: decoding and encoding are inverse to each other. -/

namespace Sys2Proof.Machine

/-! Decoding a command's own word -/

/-- The fields of a command's word (30_encoding.md R80, R82). -/
theorem encodeFields (i : Instr) : Laws.EncodeFields.Statement i := by
  refine ⟨BitVec.extractLsb'_append_eq_left, ?_, ?_⟩
  · calc zField (encode i)
      _ = (0#4 ++ i.idx).extractLsb' 4 4 := BitVec.extractLsb'_append_eq_of_add_le (by decide)
      _ = 0 := BitVec.extractLsb'_append_eq_left
  · calc idxField (encode i)
      _ = (0#4 ++ i.idx).extractLsb' 0 4 := BitVec.extractLsb'_append_eq_of_add_le (by decide)
      _ = i.idx := BitVec.extractLsb'_append_eq_right

/-- The opcode of a command selects the row that makes the command (30_encoding.md R82). -/
theorem opRow?_opcode (i : Instr) : ∃ r, opRow? i.opcode = some r ∧ r.command i.idx = i := by
  cases i <;> exact ⟨_, rfl, rfl⟩

theorem decode_encode (i : Instr) : decode (encode i) = .ok i := by
  obtain ⟨hop, hz, hidx⟩ := encodeFields i
  obtain ⟨r, hr, hi⟩ := opRow?_opcode i
  rw [decode, hz, hop, hidx, hr, if_pos rfl]
  exact congrArg _ hi

/-- Settles O1: the opcode of the word selects the command's row, and the index is read back. -/
theorem decodeInvertsEncode : Obligations.DecodeInvertsEncode := decode_encode

/-- Settles O2: the word is its fields, and they are those of its command. -/
theorem encodeInvertsDecode : Obligations.EncodeInvertsDecode := fun _ _ => encode_of_decode

/-- A word decodes to a command exactly where it is the command's word. -/
theorem decode_eq_ok {w : Cmd} {i : Instr} : decode w = .ok i ↔ encode i = w :=
  ⟨encode_of_decode, fun h => h ▸ decode_encode i⟩

/-- Settles O5: each word by its row of the opcode map. -/
theorem writtenOutWordsDecode : Obligations.WrittenOutWordsDecode := by
  unfold Obligations.WrittenOutWordsDecode
  decide

end Sys2Proof.Machine
end

section
/-! PROOFS. 30_encoding.md R83, R84: the index limits, and the words that raise `F_IDX` and `F_ILL`. -/

namespace Sys2Proof.Machine

/-! The index limits -/

theorem wellFormed_iff {i : Instr} : i.wellFormed = true ↔ i.idx.toNat < i.limit := decide_eq_true_iff

/-- An index at or above the limit only raises `F_IDX` (30_encoding.md R84). -/
theorem exec_of_limit_le {i : Instr} (s : State) (h : i.limit ≤ i.idx.toNat) :
    exec i s = .next (s.withVoice (s.voice.raise .idx)) := by
  have hi : i.wellFormed = false := wellFormed_eq_false.mpr (unitIdx_eq_none.mpr h)
  rw [exec_eq_finish, runCommand_of_not_wellFormed _ _ _ hi, finish_ok]

/-- Only an ill-formed command raises `F_IDX` (60_exceptions.md R201). -/
theorem Raises.ne_idx {ν : Type} {v : Voice ν} {i : Instr} {f : FaultBit} (h : Raises v i f)
    (hi : i.wellFormed = true) : f ≠ .idx := by
  cases h with
  | idx hn => rw [hi] at hn; cases hn
  | _ => nofun

/-- A command that performs its rule changes no fault bit: `WTB` is the one bit of `STATUS` that a rule writes. -/
theorem Performs.faultBit {N : Numerics NumWord} {c : Config NumWord} {i : Instr} {v w : Voice NumWord}
    (h : Performs N c v i w) (f : FaultBit) : w.faultBit f = v.faultBit f := by
  obtain ⟨hs, -⟩ | ⟨-, -, m, -, rfl⟩ := h.status_table
  · rw [Voice.faultBit, hs, Voice.faultBit]
  · rw [Voice.faultBit, Voice.status_setStatus, getLsbD_setBit _ _ _ (by decide)]
    simp [f.bit_ne_wtb.symm, Voice.faultBit]

theorem exec_keeps_idx {i : Instr} {s t : State} (hi : i.wellFormed = true) (h : exec i s = .next t) :
    t.voice.faultBit .idx = s.voice.faultBit .idx := by
  obtain ⟨w, hw, rfl⟩ := exec_next.mp h
  obtain ⟨f, hf, rfl⟩ | hp := runCommand_ok hw
  · simp [hf.ne_idx hi]
  · exact hp.faultBit .idx

/-- Both sides of a command's limit (30_encoding.md R83, R84). -/
theorem exec_limit {i : Instr} {n : Nat} {idx : Idx} (s : State) (h : i.limit = n ∧ i.idx = idx) :
    (n ≤ idx.toNat → exec i s = .next (s.withVoice (s.voice.raise .idx))) ∧
    (idx.toNat < n → ∀ t, exec i s = .next t → t.voice.faultBit .idx = s.voice.faultBit .idx) := by
  obtain ⟨rfl, rfl⟩ := h
  exact ⟨fun hn => exec_of_limit_le s hn,
    fun hn _ => exec_keeps_idx (wellFormed_iff.mpr hn)⟩

/-- Settles O7: every command of a list has the limit of its clause, and carries the index. -/
theorem indexLimits : Obligations.IndexLimits := by
  intro s idx
  refine ⟨fun i hi => exec_limit s ?_, fun i hi => exec_limit s ?_, fun i hi => exec_limit s ?_⟩
  all_goals
    revert i
    simp [Instr.limit, Instr.idx]

/-! Illegal words -/

theorem opRow?_eq_none {op : BitVec 8} : opRow? op = none ↔ op ∉ opcodeMap.map OpRow.op := by
  rw [opRow?, List.find?_eq_none, List.mem_map]
  simp

/-- An unassigned `op` or a non-zero `z` is illegal (30_encoding.md R84). -/
theorem decode_illegal {w : Cmd} (h : zField w ≠ 0 ∨ opField w ∉ opcodeMap.map OpRow.op) :
    decode w = .error .illegal := by
  unfold decode
  split
  next hz => rw [opRow?_eq_none.mpr (h.resolve_left (not_not.mpr hz))]
  · rfl

theorem step_withExec (s : State) (w : Cmd) : step (s.withExec w) = hostExec w (s.taken s.pending) :=
  step_perform (State.pending_withExec s w)

/-- The one legal `NOP` word (30_encoding.md R84). -/
theorem encode_nop_of_wellFormed {idx : Idx} (h : (Instr.nop idx).wellFormed = true) : encode (.nop idx) = 0x0000 := by
  have hlt : idx.toNat < 1 := wellFormed_iff.mp h
  have h0 : idx = 0 := BitVec.eq_of_toNat_eq (by simpa using hlt)
  rw [h0]
  rfl

/-- Settles O3: an illegal word has no command; any other raises what its command raises; and the words of `NOP` are
its own. -/
theorem illegalWordsRaiseTheirFault : Obligations.IllegalWordsRaiseTheirFault := by
  refine ⟨fun s w h => ?_, fun s w i hd hle => ?_, fun w idx hd hwf => ?_⟩
  · rw [step_withExec, hostExec, decode_illegal h]
    rfl
  · obtain ⟨-, -, hidx⟩ := fields_of_decode hd
    have hle : i.limit ≤ i.idx.toNat := hidx ▸ hle
    rw [step_withExec, hostExec_of_decode _ hd]
    exact exec_of_limit_le _ hle
  · rw [← encode_of_decode hd]
    exact encode_nop_of_wellFormed hwf

end Sys2Proof.Machine
end

section
/-! PROOFS. 30_encoding.md R85: how many words are legal, have a bad index, and are illegal. -/

namespace Sys2Proof.Machine

/-- Every command, with every index: the rows of the opcode map by the 16 indices. -/
def allCommands : List Instr :=
  opcodeMap.flatMap fun r => (List.finRange 16).map fun k => r.command (BitVec.ofFin k)

theorem mem_allCommands (i : Instr) : i ∈ allCommands := by
  obtain ⟨r, hr, hi⟩ := opRow?_opcode i
  exact List.mem_flatMap.mpr ⟨r, List.mem_of_find?_eq_some hr, List.mem_map.mpr ⟨i.idx.toFin, List.mem_finRange _, hi⟩⟩

/-- The index tells the commands of a row apart, and the opcode those of different rows. -/
theorem nodup_allCommands : allCommands.Nodup := by
  refine List.nodup_flatMap.mpr ⟨fun r hr => ?_, ?_⟩
  · refine (List.nodup_finRange 16).map fun j k h => BitVec.ofFin.inj (w := 4) ?_
    rw [← (opcode_idx_of_mem_opcodeMap r hr (.ofFin j)).2, ← (opcode_idx_of_mem_opcodeMap r hr (.ofFin k)).2]
    exact congrArg Instr.idx h
  · have hops : (opcodeMap.map OpRow.op).Nodup := by decide
    refine (List.pairwise_map.mp hops).imp_of_mem fun hr hr' hne i hi hi' => hne ?_
    obtain ⟨j, -, rfl⟩ := List.mem_map.mp hi
    obtain ⟨k, -, hk⟩ := List.mem_map.mp hi'
    rw [← (opcode_idx_of_mem_opcodeMap _ hr (.ofFin j)).1, ← (opcode_idx_of_mem_opcodeMap _ hr' (.ofFin k)).1, hk]

/-- Every command word, in order. -/
def allWords : List Cmd := (List.range 65536).map (BitVec.ofNat 16)

theorem mem_allWords (w : Cmd) : w ∈ allWords :=
  List.mem_map.mpr ⟨w.toNat, List.mem_range.mpr w.isLt, BitVec.eq_of_toNat_eq (by simp)⟩

theorem nodup_allWords : allWords.Nodup :=
  List.nodup_range.map_on fun m hm n hn h => by
    have h := congrArg BitVec.toNat h
    rwa [BitVec.toNat_ofNat, BitVec.toNat_ofNat, Nat.mod_eq_of_lt (List.mem_range.mp hm),
      Nat.mod_eq_of_lt (List.mem_range.mp hn)] at h

/-- Counting words that decode is counting commands: each command has exactly one word. -/
theorem countP_allWords {p : Cmd → Bool} {q : Instr → Bool} (h : ∀ w, p w = true ↔ ∃ i, q i = true ∧ decode w = .ok i) :
    allWords.countP p = allCommands.countP q := by
  have hp : (allWords.filter p).Perm ((allCommands.filter q).map encode) := by
    refine (List.perm_ext_iff_of_nodup (nodup_allWords.filter _) ?_).mpr fun w => ?_
    · exact (nodup_allCommands.filter _).map fun i j hij => by
        have := congrArg decode hij
        rwa [decode_encode, decode_encode, Except.ok.injEq] at this
    · simp [mem_allWords, mem_allCommands, h, decode_eq_ok]
  rw [List.countP_eq_length_filter, List.countP_eq_length_filter, hp.length_eq, List.length_map]

/-- A legal word is the word of a well-formed command (30_encoding.md R85). -/
theorem classify_legal {w : Cmd} : (classify w == .legal) = true ↔ ∃ i, i.wellFormed = true ∧ decode w = .ok i := by
  unfold classify
  cases decode w with
  | error => simp
  | ok i => cases hi : i.wellFormed <;> simp [hi]

/-- A word with a bad index is the word of an ill-formed command (30_encoding.md R85). -/
theorem classify_badIndex {w : Cmd} :
    (classify w == .badIndex) = true ↔ ∃ i, (!i.wellFormed) = true ∧ decode w = .ok i := by
  unfold classify
  cases decode w with
  | error => simp
  | ok i => cases hi : i.wellFormed <;> simp [hi]

/-- The kinds partition the words. -/
theorem countP_classify (l : List Cmd) :
    l.countP (classify · == .legal) + l.countP (classify · == .badIndex) + l.countP (classify · == .illegal) =
      l.length := by
  induction l with
  | nil => rfl
  | cons w l ih => cases hw : classify w <;> simp [hw] <;> omega

/-- Settles O4: the legal words are those of the 111 well-formed commands, those with a bad index those of the other
193, and the illegal words are the rest. -/
theorem legalWordCounts : Obligations.LegalWordCounts := by
  have hcount (k : WordClass) : (List.range 65536).countP (fun n => classify (BitVec.ofNat 16 n) == k) =
      allWords.countP (classify · == k) := by
    rw [allWords, List.countP_map]
    rfl
  have hlegal : allWords.countP (classify · == .legal) = 111 :=
    (countP_allWords fun _ => classify_legal).trans (by decide +kernel)
  have hbad : allWords.countP (classify · == .badIndex) = 193 :=
    (countP_allWords fun _ => classify_badIndex).trans (by decide +kernel)
  have hall : allWords.length = 65536 := List.length_map _ |>.trans List.length_range
  have hsum := countP_classify allWords
  refine ⟨(hcount _).trans hlegal, (hcount _).trans hbad, (hcount _).trans ?_⟩
  omega

end Sys2Proof.Machine
end

section
/-! PROOFS. What a command leaves unchanged (60_exceptions.md R201), and 40_wavetable.md R104: a lookup
before `WT.BUILD`. -/

namespace Sys2Proof.Machine

variable {i : Instr} {s : State}

/-- Settles O18: a command that answers raises one fault, or performs its rule with the frame of `Performs.frame`. -/
theorem commandFrame : Obligations.CommandFrame := by
  intro i s t h
  obtain ⟨w, hw, rfl⟩ := exec_next.mp h
  obtain ⟨f, -, rfl⟩ | hp := runCommand_ok hw
  · exact .inl ⟨f, rfl⟩
  · obtain ⟨hregs, htable⟩ := hp.frame
    exact .inr ⟨hregs, ⟨rfl, rfl, rfl⟩, fun hi n => congrArg (Memory.read · n) (htable hi)⟩

/-! The outcome of a command that raises, performs its rule, or meets a NaN -/

theorem exec_of_raises {f : FaultBit} (h : Raises s.voice i f) : exec i s = .next (s.withVoice (s.voice.raise f)) :=
  exec_next.mpr ⟨_, runCommand_of_raises _ _ h, rfl⟩

theorem exec_of_performs {w : Voice NumWord} (h : Performs f32 s.config s.voice i w) :
    exec i s = .next (s.withVoice w) :=
  exec_next.mpr ⟨_, runCommand_of_performs h, rfl⟩

theorem exec_of_nan (h : runCommand f32 s.config i s.voice = .error .nan) : exec i s = .refused .nanOperation := by
  rw [exec_eq_finish, h]; rfl

/-! The composites that look up -/

/-- Only the reserved value 3 of `CMOD` names no mode (10_state.md R29). -/
theorem exists_cmod {w : Word} (h : w.extractLsb' 4 2 ≠ 3) : ∃ m, cmod w = some m := by
  have two_bits : ∀ b : BitVec 2, b ≠ 3 → b.toNat = 0 ∨ b.toNat = 1 ∨ b.toNat = 2 := by decide
  unfold cmod
  rcases two_bits _ h with e | e | e <;> simp [e]

theorem waveSel_eq_sine {w : Word} (h : w.extractLsb' 0 2 = 0) : waveSel w = .sine := by
  simp [waveSel, h]

section
variable {ν : Type} {v : Voice ν}

/-- Where the table sine is selected, the bank needs a built table. -/
theorem bankUnbuilt_of_table (hsd : v.cfg0.getLsbD 2 = false) (hb : v.wtb = false) : bankUnbuilt v = true := by
  rw [bankUnbuilt, sd, hsd, hb]; rfl

/-- One chain that is a sine makes the three chains need what the bank needs. -/
theorem trioUnbuilt_of_sine {k : Fin 3} (h : bankUnbuilt v = true) (hk : waveSel (v.cfgc.get k) = .sine) :
    trioUnbuilt v = true := by
  match k with
  | 0 | 1 | 2 => simp [trioUnbuilt, h, hk]

end

/-- Settles O17: each of the five operations tests `STATUS.WTB` before anything else but `CMOD`. -/
theorem lookupBeforeBuildFaults : Obligations.LookupBeforeBuildFaults := by
  intro s hb
  refine ⟨fun j => ⟨exec_of_raises (.wtLookup (phaseIdx_ofNat j) hb), exec_of_raises (.wgSint (phaseIdx_ofNat j) hb)⟩,
    fun hsd => ?_⟩
  have hbank := bankUnbuilt_of_table hsd hb
  refine ⟨exec_of_raises (.hbTick hbank), fun hm => ?_, fun hm ⟨k, hk⟩ => ?_⟩
  · obtain ⟨m, hm⟩ := exists_cmod hm
    exact exec_of_raises (.vgBankTable hm hbank)
  · obtain ⟨m0, h0⟩ := exists_cmod (hm 0)
    obtain ⟨m1, h1⟩ := exists_cmod (hm 1)
    obtain ⟨m2, h2⟩ := exists_cmod (hm 2)
    exact exec_of_raises (.vgTrioTable h0 h1 h2 (trioUnbuilt_of_sine hbank (waveSel_eq_sine hk)))

end Sys2Proof.Machine
end

section
/-! PROOFS. 40_wavetable.md R100, R101: what `WT.BUILD` stores, and where a sample is a NaN. -/

namespace Sys2Proof.Machine

open F32

theorem app_ok {f : NumWord → NumWord} {a r : NumWord} (h : F32.app f a = .ok r) : f a = r := by
  unfold F32.app at h
  split at h
  · cases h
  · exact Except.ok.inj h

/-- A sample is the amplitude times the sine of the quotient of its index (R101). -/
theorem wtSample_eq {c : Config NumWord} {i : Nat} {x : NumWord} (h : wtSample f32 c i = .ok x) :
    ∃ q, F32.div (F32.lit i 1) (F32.lit (tableSize c) 1) = .ok q ∧ F32.mul c.wtAmp (c.sin2pi q) = .ok x := by
  simp only [wtSample, calc_bind_ok] at h
  obtain ⟨q, hq, y, hy, hx⟩ := h
  rw [← app_ok hy] at hx
  exact ⟨q, hq, hx⟩

/-- The table can be filled exactly where the amplitude and the last index are finite (R13). -/
theorem exists_wtFill_iff {p : OpenParams} {m : Memory NumWord} :
    (∃ m', wtFill f32 (configOf p) m = .ok m') ↔
      isFinite p.wtAmp = true ∧ isFinite (int f32 (tableSize (configOf p) - 1)) = true := by
  have hN := tableSize_pos (configOf p)
  refine ⟨fun ⟨m', h⟩ => ?_, fun ⟨hamp, hlast⟩ => wtFill_ok_of (fun i hi => ?_) m⟩
  · obtain ⟨hamp, hs⟩ := wtFill_finite h
    have hlt : tableSize (configOf p) - 1 < tableSize (configOf p) := by omega
    obtain ⟨x, hx, -⟩ := hs _ hlt
    exact ⟨hamp, (wtSample_finite hamp hlt hx).1⟩
  · obtain ⟨x, hx, -⟩ := wtSample_ok hamp hi (int_finite_mono (by omega) hlast)
    exact ⟨x, hx⟩

/-- A table that cannot be filled stops at a NaN. -/
theorem wtFill_nan {c : Config NumWord} {m : Memory NumWord} (h : ¬ ∃ m', wtFill f32 c m = .ok m') :
    wtFill f32 c m = .error .nan := by
  have hcells : FindsCells (wtFill f32 c m) := findsCells_wtFill m
  match hr : wtFill f32 c m with
  | .ok m' => exact absurd ⟨m', hr⟩ h
  | .error .noValue => exact absurd hr hcells
  | .error .nan => rfl

/-- Settles O27: the block `Performs.wtBuild` leaves, where the table can be filled. -/
theorem buildFillsTheTable : Obligations.BuildFillsTheTable := by
  refine fun s => ⟨fun hb => ?_, fun hb => exec_of_raises (.wtBuild hb)⟩
  split
  next hfin =>
    obtain ⟨m, hm⟩ := exists_wtFill_iff (p := s.params) (m := s.voice.wt).mpr hfin
    have hp : Performs f32 s.config s.voice (.wtBuild 0) _ := .wtBuild hb hm
    refine ⟨_, exec_of_performs hp, rfl, hp.frame.1, ⟨rfl, rfl, rfl⟩, fun i hi => ?_, (read_wtFill hm · |>.2)⟩
    obtain ⟨x, hx, hread⟩ := (read_wtFill hm i).1 hi
    obtain ⟨q, hq, hmul⟩ := wtSample_eq hx
    exact ⟨q, x, hq, hmul, hread⟩
  next hfin =>
    have hnan : wtFill f32 s.config s.voice.wt = .error .nan := wtFill_nan (mt exists_wtFill_iff.mp hfin)
    have hb : s.voice.wtb = false := hb
    exact exec_of_nan (by simp [runCommand, wtBuild, hb, hnan])

end Sys2Proof.Machine
end

section
/-! PROOFS. 40_wavetable.md R102, R103 and 42_waveform.md R126: the cell a lookup reads. -/

namespace Sys2Proof.Machine

open F32

/-- A number that is not finite is an infinity. -/
theorem isInf_of_not_finite {w : NumWord} (h : isNaN w = false) (hf : isFinite w = false) : isInf w = true := by
  simp only [isNaN, isFinite, decide_eq_false_iff_not] at h hf
  exact decide_eq_true (by omega)

/-! The product of a phase and N -/

section
variable {p : NumWord} {n : Nat}

/-- A zero times an N that converts to an infinity is a NaN (R13). -/
theorem mul_size_nan (hp : mag p = 0) (hn : isFinite (lit n 1) = false) : F32.mul p (lit n 1) = .error .nan := by
  simp [F32.mul, isZero, hp, isInf_of_not_finite (lit_not_nan n 1) hn]

/-- Any other phase that is no NaN has a product with N. -/
theorem mul_size_ok (hp : isNaN p = false) (hn : 0 < n) (h : ¬ (mag p = 0 ∧ isFinite (lit n 1) = false)) :
    ∃ m, F32.mul p (lit n 1) = .ok m := by
  have hz : isZero (lit n 1) = false := int_isZero hn
  have hzero : (isInf p || isInf (lit n 1)) = true → isZero p = false := fun hinf => by
    simp only [isZero, isInf, isFinite, Bool.or_eq_true, decide_eq_true_eq, decide_eq_false_iff_not] at *
    unfold infMag at *
    omega
  unfold F32.mul
  rw [hp, lit_not_nan, hz]
  split
  · contradiction
  · split
    next hinf => simp [hzero hinf]
    · exact ⟨_, rfl⟩

end

/-! The index, and the cell -/

/-- A number has a floor, or is infinite. -/
theorem floor_of_not_nan {m : NumWord} (h : isNaN m = false) :
    ∃ f, F32.floor m = .ok f ∧ (isFinite m = true → f = some (units m / 2 ^ 149)) := by
  by_cases hm : isFinite m = true
  · exact ⟨_, floor_finite hm, fun _ => rfl⟩
  · have hinf : isInf m = true := isInf_of_not_finite h (Bool.eq_false_iff.mpr hm)
    exact ⟨none, by simp [F32.floor, h, hinf], fun hfin => absurd hfin hm⟩

/-- Where the product of the phase and N is a number, it has an index: its floor modulo N where it is finite. -/
theorem wtIndex_of_mul {c : Config NumWord} {p m : NumWord} (h : F32.mul p (lit (tableSize c) 1) = .ok m) :
    ∃ i, wtIndex f32 c p = .ok i ∧ (isFinite m = true → (i : Int) = units m / 2 ^ 149 % max c.wtSize 1) := by
  obtain ⟨f, hf, hfin⟩ := floor_of_not_nan (mul_not_nan h)
  refine ⟨(f.getD (c.floorInf m) % (tableSize c : Int)).toNat, ?_, fun hm => ?_⟩
  · change (F32.mul p (lit (tableSize c) 1) >>= fun t => F32.floor t >>= _) = _
    rw [h, calc_ok_bind, hf]
    rfl
  · rw [hfin hm, ← tableSize_cast]
    exact Int.toNat_of_nonneg (Int.emod_nonneg _ (by have := tableSize_pos c; omega))

/-- On a sound built table a lookup gives the value of the cell of its index. -/
theorem TableSound.wtLookup {c : Config NumWord} {v : Voice NumWord} {p : NumWord} {i : Nat} (ht : TableSound c v)
    (hb : v.wtb = true) (hi : wtIndex f32 c p = .ok i) :
    ∃ x, Memory.read v.wt i = some x ∧ wtLookup f32 c v.wt p = .ok x := by
  obtain ⟨x, hx⟩ := Option.isSome_iff_exists.mp (ht.filled hb i (wtIndex_lt hi))
  exact ⟨x, hx, by rw [Machine.wtLookup, hi, calc_ok_bind, hx]; rfl⟩

theorem wtLookup_nan {c : Config NumWord} {p : NumWord} (m : Memory NumWord)
    (h : F32.mul p (lit (tableSize c) 1) = .error .nan) : wtLookup f32 c m p = .error .nan := by
  change ((F32.mul p (lit (tableSize c) 1) >>= _) >>= _) = _
  rw [h]
  rfl

/-- Settles O28: both commands are the one lookup, whose product is a number but for a zero times an infinity. -/
theorem lookupReadsTheIndexedCell : Obligations.LookupReadsTheIndexedCell := by
  intro s j ht hb hp
  replace hb : s.voice.wtb = true := hb
  split
  next hzero =>
    have hnan := wtLookup_nan (c := s.config) s.voice.wt (mul_size_nan hzero.1 hzero.2)
    constructor <;> exact exec_of_nan (by simp [runCommand, wtLookupCmd, wgSint, sineTable, hb, hnan])
  next hzero =>
    obtain ⟨m, hm⟩ := mul_size_ok hp (tableSize_pos s.config) hzero
    obtain ⟨i, hi, hfin⟩ := wtIndex_of_mul hm
    obtain ⟨x, hx, hlookup⟩ := ht.wtLookup hb hi
    exact ⟨m, i, x, s.withVoice (s.voice.setNum .r0 x), hm, wtIndex_lt hi, hfin, hx,
      exec_of_performs (.wtLookup (phaseIdx_ofNat j) hb hlookup),
      exec_of_performs (.wgSint (phaseIdx_ofNat j) hb hlookup), by simp,
      frame_withVoice (sameRegs_setNum _ _ (sameRegs_refl _ _) List.mem_cons_self) (Voice.wt_setNum _ _ x)⟩

end Sys2Proof.Machine
end

section
/-! PROOFS. Which sums and products of numbers answer, and bounds on a rounded sum (00_scope.md R11, R13). -/

namespace Sys2Proof.F32

open Sys2Proof.Machine

variable {a b r w : NumWord}

/-- A sum with a finite number is a NaN only where the other operand is one. -/
theorem exists_add (ha : isNaN a = false) (hb : isNaN b = false) (hfin : isFinite a = true ∨ isFinite b = true) :
    ∃ r, add a b = .ok r := by
  have hinf : isInf a = true → isInf b = false := fun hi =>
    isInf_of_isFinite (hfin.resolve_left fun h => by rw [isInf_of_isFinite h] at hi; cases hi)
  unfold add
  rw [ha, hb]
  split
  · contradiction
  · split
    next hi => exact ⟨a, by simp [hinf hi]⟩
    · split <;> exact ⟨_, rfl⟩

/-- A product with a finite number other than 0 is a NaN only where the other operand is one. -/
theorem exists_mul (ha : isFinite a = true) (hz : isZero a = false) (hb : isNaN b = false) : ∃ r, mul a b = .ok r := by
  by_cases hfin : isFinite b = true
  · exact ⟨_, mul_finite ha hfin⟩
  · have hinf : isInf b = true := isInf_of_not_finite hb (Bool.eq_false_iff.mpr hfin)
    have hzb : isZero b = false := by
      simp only [isInf, isZero, decide_eq_true_eq, decide_eq_false_iff_not] at hinf ⊢
      rw [hinf]; decide
    exact ⟨pack (sign a != sign b) infMag, by simp [mul, isNaN_of_isFinite ha, hb, hinf, hz, hzb]⟩

theorem natAbs_key (w : NumWord) : (key w).natAbs = mag w := by
  unfold key; split <;> omega

theorem isZero_of_key_pos (h : 0 < key w) : isZero w = false := by
  have hm := natAbs_key w
  exact decide_eq_false (by omega)

/-- A number that is not negative is finite where a finite number is at least as large. -/
theorem isFinite_of_units_le (hw : isFinite w = true) (h0 : 0 ≤ units a) (h : units a ≤ units w) :
    isFinite a = true := by
  have hkey : 0 ≤ key a := units_le_iff (a := 0).mp h0
  have hle : mag a ≤ mag w := by
    have := units_le_iff.mp h
    rw [← natAbs_key, ← natAbs_key]
    omega
  exact decide_eq_true (hle.trans_lt (of_decide_eq_true hw))

/-- A rounded sum is at most any finite number the exact sum is at most. -/
theorem units_add_le (ha : isFinite a = true) (hb : isFinite b = true) (hw : isFinite w = true)
    (hr : add a b = .ok r) (h : units a + units b ≤ units w) : units r ≤ units w := by
  rw [add_finite ha hb] at hr
  cases hr
  exact units_le_iff.mpr (key_ofUnits_le hw h)

/-- A rounded sum is at least any finite number the exact sum is at least. -/
theorem le_units_add (ha : isFinite a = true) (hb : isFinite b = true) (hw : isFinite w = true)
    (hr : add a b = .ok r) (h : units w ≤ units a + units b) : units w ≤ units r := by
  rw [add_finite ha hb] at hr
  cases hr
  exact units_le_iff.mpr (le_key_ofUnits hw h)

end Sys2Proof.F32
end

section
/-! PROOFS. 41_phase.md R110 to R113: the phase accumulator under F32. -/

namespace Sys2Proof.Machine

open F32

theorem int_zero : int f32 0 = 0 := by decide +kernel

theorem int_one : int f32 1 = oneW := by decide +kernel

/-! `PH.RST` -/

/-- Settles O32: the block `Performs.phRst` leaves; the fields of the word; the limit. -/
theorem phaseReset : Obligations.PhaseReset := by
  refine ⟨fun s j => ⟨_, exec_of_performs (.phRst (phaseIdx_ofNat j)), ?_,
    frame_withVoice (sameRegs_setNum _ _ (sameRegs_refl _ _) List.mem_cons_self) (Voice.wt_setNum _ _ _)⟩,
    by decide, fun s idx => exec_of_limit_le (i := .phRst idx) s⟩
  rw [State.voice_withVoice, Voice.num_setNum, if_pos rfl, int_zero]

/-! `PH.ADV` -/

/-- The single wrap of an advance (R110): `r` is `q`, less 1 where `q ≥ 1`. -/
def Wraps (q r : NumWord) : Prop := if key oneW ≤ key q then F32.sub q oneW = .ok r else r = q

theorem exists_wraps {q : NumWord} (hq : isNaN q = false) : ∃ r, Wraps q r := by
  unfold Wraps
  split
  · exact exists_add hq (by decide) (.inr (by decide))
  · exact ⟨q, rfl⟩

theorem phaseAdvance_of_wraps {p f dt d q r : NumWord} (hd : F32.mul f dt = .ok d) (hq : F32.add p d = .ok q)
    (hr : Wraps q r) : phaseAdvance f32 p f dt = .ok r := by
  refine phaseAdvance_ok.mpr ⟨d, q, _, hd, hq, le_of_not_nan (int_not_nan 1) (add_not_nan hq), ?_⟩
  rw [int_one]
  unfold Wraps at hr
  split at hr
  next h => rw [decide_eq_true h]; exact hr
  next h => rw [decide_eq_false h, hr]; rfl

/-- From a finite phase `PH.ADV` completes wherever the product `A0 * DT` is a number (R111). -/
theorem exec_phAdv {s : State} {j : Fin 11} {d : NumWord} (hp : isFinite (s.voice.num (.ph j)) = true)
    (hd : F32.mul (s.voice.num .a0) (s.voice.num .dt) = .ok d) :
    ∃ q r t, F32.add (s.voice.num (.ph j)) d = .ok q ∧ Wraps q r ∧ exec (.phAdv (BitVec.ofNat 4 j)) s = .next t ∧
      t.voice.num (.ph j) = r ∧ t.voice.num .r0 = r ∧ Frame [.num (.ph j), .num .r0] s t := by
  obtain ⟨q, hq⟩ := exists_add (isNaN_of_isFinite hp) (mul_not_nan hd) (.inl hp)
  obtain ⟨r, hr⟩ := exists_wraps (add_not_nan hq)
  exact ⟨q, r, _, hq, hr, exec_of_performs (.phAdv (phaseIdx_ofNat j) (phaseAdvance_of_wraps hd hq hr)),
    by simp, by simp,
    frame_withVoice (sameRegs_setNum _ _ (sameRegs_setNum _ _ (sameRegs_refl _ _) (by simp)) (by simp)) (by simp)⟩

/-- Settles O30: the product of finite numbers is a number, and so are the sum and the difference that follow. -/
theorem phaseAdvanceCompletes : Obligations.PhaseAdvance := by
  intro s j hp ha hdt
  have hd := mul_finite ha hdt
  obtain ⟨q, r, t, h⟩ := exec_phAdv hp hd
  exact ⟨_, q, r, t, hd, h⟩

/-! The unit interval (R111) -/

/-- The largest number below 1. -/
def belowOne : NumWord := 0x3F7FFFFF

/-- The largest number below 2. -/
def belowTwo : NumWord := 0x3FFFFFFF

theorem units_oneW : units oneW = 2 ^ 149 := by decide +kernel

theorem units_belowOne : units belowOne = 2 ^ 149 - 2 ^ 125 := by decide +kernel

theorem units_belowTwo : units belowTwo = 2 ^ 150 - 2 ^ 126 := by decide +kernel

/-- A number in [0, 1) is at most the largest number below 1. -/
theorem unit_iff_units {w : NumWord} : (0 ≤ key w ∧ key w < key oneW) ↔ 0 ≤ units w ∧ units w ≤ units belowOne := by
  rw [show key oneW = key belowOne + 1 by decide, Int.lt_add_one_iff, units_le_iff]
  exact and_congr_left' (units_le_iff (a := 0)).symm

/-- The sum of two numbers in [0, 1) is at most the largest number below 2: the exact sum is at most that. -/
theorem units_add_unit {a b q : NumWord} (ha0 : 0 ≤ units a) (ha1 : units a ≤ units belowOne) (hb0 : 0 ≤ units b)
    (hb1 : units b ≤ units belowOne) (hq : F32.add a b = .ok q) : 0 ≤ units q ∧ units q ≤ units belowTwo := by
  have ha : isFinite a = true := isFinite_of_units_le (by decide) ha0 ha1
  have hb : isFinite b = true := isFinite_of_units_le (by decide) hb0 hb1
  refine ⟨le_units_add (w := 0) ha hb (by decide) hq (add_nonneg ha0 hb0), units_add_le ha hb (by decide) hq ?_⟩
  rw [units_belowOne] at ha1 hb1
  rw [units_belowTwo]
  omega

/-- One wrap brings a number in [0, 2) to [0, 1). -/
theorem Wraps.unit {q r : NumWord} (hq0 : 0 ≤ units q) (hq2 : units q ≤ units belowTwo) (hr : Wraps q r) :
    0 ≤ units r ∧ units r ≤ units belowOne := by
  unfold Wraps at hr
  split at hr
  next h =>
    have hq : isFinite q = true := isFinite_of_units_le (by decide) hq0 hq2
    have hone : isFinite (neg oneW) = true := by decide
    have hq1 := units_le_iff.mpr h
    refine ⟨le_units_add (w := 0) hq hone (by decide) hr ?_, units_add_le hq hone (by decide) hr ?_⟩
    · rw [units_neg]
      exact sub_nonneg.mpr hq1
    · rw [units_belowTwo] at hq2
      rw [units_neg, units_oneW, units_belowOne]
      omega
  next h =>
    rw [hr]
    exact unit_iff_units.mp ⟨units_le_iff (a := 0).mp hq0, not_le.mp h⟩

/-- Settles O31: the rounded sum is below 2, and the wrap brings it back. -/
theorem phaseStaysInUnitInterval : Obligations.PhaseStaysInUnitInterval := by
  intro s t j d hp0 hp1 hd hd0 hd1 ht
  obtain ⟨hp0, hp1⟩ := unit_iff_units.mp ⟨hp0, hp1⟩
  obtain ⟨hd0, hd1⟩ := unit_iff_units.mp ⟨hd0, hd1⟩
  obtain ⟨q, r, t', hq, hr, ht', hph, -⟩ := exec_phAdv (isFinite_of_units_le (by decide) hp0 hp1) hd
  obtain ⟨hq0, hq2⟩ := units_add_unit hp0 hp1 hd0 hd1 hq
  rw [ht] at ht'
  cases ht'
  rw [hph]
  exact unit_iff_units.mpr (hr.unit hq0 hq2)

end Sys2Proof.Machine
end

section
/-! PROOFS. 41_phase.md R112 and R116: the phase accumulator under REAL. -/

namespace Sys2Proof.Machine

/-- From a phase in [0, 1), by less than a cycle, an advance is the fractional part of the sum. -/
theorem phaseAdvance_reals {p f dt : ℝ} (hp0 : 0 ≤ p) (hp1 : p < 1) (h0 : 0 ≤ f * dt) (h1 : f * dt < 1) :
    phaseAdvance reals p f dt = .ok (Int.fract (p + f * dt)) := by
  refine phaseAdvance_ok.mpr ⟨_, _, _, rfl, rfl, rfl, ?_⟩
  have hone : int reals 1 = 1 := by simp [int, reals]
  rw [hone]
  by_cases hq : 1 ≤ p + f * dt
  · have hfract : Int.fract (p + f * dt) = p + f * dt - 1 :=
      Int.fract_eq_iff.mpr ⟨by linarith, by linarith, 1, by push_cast; ring⟩
    rw [decide_eq_true hq, hfract]
    rfl
  · rw [decide_eq_false hq, Int.fract_eq_self.mpr ⟨by linarith, by linarith⟩]
    rfl

/-- Settles O56, by induction on the number of advances. -/
theorem realPhaseStaysInRange : Obligations.RealPhaseStaysInRange := by
  intro p0 f dt p hp0 hp1 h0 h1 hstart hstep
  have hfract : ∀ n : Nat, p n = Int.fract (p0 + n * (f * dt)) := by
    intro n
    induction n with
    | zero => simp [hstart, Int.fract_eq_self.mpr ⟨hp0, hp1⟩]
    | succ n ih =>
      have hadv := phaseAdvance_reals (ih ▸ Int.fract_nonneg _) (ih ▸ Int.fract_lt_one _) h0 h1
      rw [hstep n] at hadv
      calc p (n + 1) = Int.fract (Int.fract (p0 + n * (f * dt)) + f * dt) := by rw [Except.ok.inj hadv, ih]
        _ = Int.fract (p0 + n * (f * dt) + f * dt) := Int.fract_eq_fract.mpr ⟨-⌊p0 + n * (f * dt)⌋, by
            rw [Int.fract]; push_cast; ring⟩
        _ = Int.fract (p0 + (n + 1 : Nat) * (f * dt)) := by rw [Nat.cast_succ, add_one_mul, add_assoc]
  exact fun n => ⟨hfract n ▸ Int.fract_nonneg _, hfract n ▸ Int.fract_lt_one _, hfract n⟩

end Sys2Proof.Machine
end

section
/-! PROOFS. 41_phase.md R114 and R115: the clamped frequency of a chain. -/

namespace Sys2Proof.Machine

open F32

/-- A clamped number is within ordered bounds. -/
theorem clampWord_between {x lo hi : NumWord} (h : key lo ≤ key hi) :
    key lo ≤ key (clampWord x lo hi) ∧ key (clampWord x lo hi) ≤ key hi := by
  unfold clampWord
  split_ifs <;> omega

/-- The clamp to [`F_MIN`, `F_MAX`] answers at every number (R114). -/
theorem absToFreq_f32 {x : NumWord} (hx : isNaN x = false) :
    absToFreq f32 x = .ok (clampWord x 0x41200000 0x469C4000) := by
  have hmin : int f32 10 = 0x41200000 := by decide +kernel
  have hmax : int f32 20000 = 0x469C4000 := by decide +kernel
  rw [absToFreq, hmin, hmax]
  exact clamp_of_not_nan hx (by decide) (by decide)

/-- `EXP2` answers at every number (00_scope.md R12). -/
theorem app_exp2 {p : OpenParams} {x : NumWord} (hx : isNaN x = false) :
    f32.app (configOf p).exp2 x = .ok ((configOf p).exp2 x) := by
  simp [f32, F32.app, hx, exp2_not_nan]

theorem pitchToFreq_f32 {p : OpenParams} {x f : NumWord} (hx : isNaN x = false)
    (hf : F32.mul p.baseFreq ((configOf p).exp2 x) = .ok f) :
    pitchToFreq f32 (configOf p) x = .ok (clampWord f 0x41200000 0x469C4000) := by
  rw [pitchToFreq, app_exp2 hx, calc_ok_bind]
  exact calc_bind_ok.mpr ⟨f, hf, absToFreq_f32 (mul_not_nan hf)⟩

/-- `FRQ.CV k` stores the frequency of chain `k`, a clamped number (R115). -/
theorem exec_frqCv {s : State} {k : Fin 3} {x : NumWord}
    (hf : chainFreq f32 s.config s.voice k = .ok (clampWord x 0x41200000 0x469C4000)) :
    ∃ t, exec (.frqCv (BitVec.ofNat 4 k)) s = .next t ∧
      t.voice.num (.freq k) = clampWord x 0x41200000 0x469C4000 ∧ Frame [.num (.freq k)] s t ∧
      key 0x41200000 ≤ key (t.voice.num (.freq k)) ∧ key (t.voice.num (.freq k)) ≤ key 0x469C4000 := by
  have hnum : (s.voice.setNum (.freq k) (clampWord x 0x41200000 0x469C4000)).num (.freq k) = _ :=
    (Voice.num_setNum _ _ _ _).trans (if_pos rfl)
  refine ⟨_, exec_of_performs (.frqCv (chainIdx_ofNat k) hf), hnum,
    frame_withVoice (sameRegs_setNum _ _ (sameRegs_refl _ _) List.mem_cons_self) (Voice.wt_setNum _ _ _), ?_⟩
  rw [State.voice_withVoice, hnum]
  exact clampWord_between (by decide)

/-- Settles O33: both sources give a clamped number, and a product with a finite number above 0 answers. -/
theorem frequencyIsClamped : Obligations.FrequencyIsClamped := by
  refine fun s k => ⟨fun hfa hx => exec_frqCv ?_, fun hfa hx => ⟨fun hfin hpos => ?_, fun f hf => exec_frqCv ?_⟩⟩
  · rw [chainFreq, fa, hfa, if_pos rfl]
    exact absToFreq_f32 hx
  · exact exists_mul hfin (isZero_of_key_pos hpos) (exp2_not_nan _)
  · rw [chainFreq, fa, hfa, if_neg Bool.false_ne_true]
    exact pitchToFreq_f32 hx hf

end Sys2Proof.Machine
end

section
/-! PROOFS. 42_waveform.md R122 to R132: the waveforms and the pulse width under F32. -/

namespace Sys2Proof.Machine

open F32

/-! Operations that answer -/

/-- A difference with a finite number is a NaN only where the other operand is one. -/
theorem exists_sub {a b : NumWord} (ha : isNaN a = false) (hb : isNaN b = false)
    (hfin : isFinite a = true ∨ isFinite b = true) : ∃ r, F32.sub a b = .ok r :=
  exists_add ha ((isNaN_neg b).trans hb) (hfin.imp_right (isFinite_neg b).trans)

/-- A finite number times one of at most 1 in size stays finite: it does not grow. -/
theorem exists_mul_of_mag_le_one {a b : NumWord} (ha : isFinite a = true) (hb : mag b ≤ oneMag) :
    ∃ r, F32.mul a b = .ok r ∧ isFinite r = true := by
  have hscale : scale (mag b) ≤ 2 ^ 149 := (scale_strictMono.monotone hb).trans (by decide)
  have hmag : mag a < infMag := of_decide_eq_true ha
  refine ⟨_, mul_finite ha (decide_eq_true (hb.trans_lt (by decide))), decide_eq_true ?_⟩
  rw [mag_round]
  exact (roundMag_le_of hmag (by decide) (Nat.mul_le_mul_left _ hscale)).trans_lt hmag

/-! A rule that writes one register -/

/-- A command whose rule writes one `Num` register completes with that register and nothing else changed. -/
theorem exec_of_performs_setNum {s : State} {i : Instr} {r : NumReg} {x : NumWord}
    (h : Performs f32 s.config s.voice i (s.voice.setNum r x)) :
    ∃ t, exec i s = .next t ∧ t.voice.num r = x ∧ Frame [.num r] s t :=
  ⟨_, exec_of_performs h, (Voice.num_setNum _ _ _ _).trans (if_pos rfl),
    frame_withVoice (sameRegs_setNum _ _ (sameRegs_refl _ _) List.mem_cons_self) (Voice.wt_setNum _ _ _)⟩

/-! The direct sine -/

theorem sineDirect_f32 {p : OpenParams} {x : NumWord} (hx : isFinite x = true) :
    sineDirect f32 (configOf p) x = .ok ((configOf p).sin2pi x) := by
  simp [sineDirect, f32, F32.app, isNaN_of_isFinite hx, isNaN_of_isFinite (sin2pi_finite hx)]

/-- Settles O34: the sine of a finite phase is a number, of which R12 gives the size and the quarters. -/
theorem directSine : Obligations.DirectSine := by
  intro s j hp
  obtain ⟨t, ht, hr0, hframe⟩ := exec_of_performs_setNum (.wgSind (phaseIdx_ofNat j) (sineDirect_f32 hp))
  obtain ⟨h0, h1, h2, h3⟩ := sin2pi_quarters s.params
  refine ⟨t, ht, hr0, ?_, hframe, ?_⟩
  · rw [hr0]
    exact sin2pi_mag hp
  · rw [hr0]
    exact ⟨fun h => h ▸ h0, fun h => h ▸ h1, fun h => h ▸ h2, fun h => h ▸ h3⟩

/-! The triangle and the saw -/

/-- The triangle from the rounded product `4p` (R123). -/
theorem tri_f32 {p q : NumWord} (hp : isNaN p = false) (hq : F32.mul 0x40800000 p = .ok q) :
    tri f32 p = if key p < key 0x3F000000 then F32.sub q oneW else F32.sub 0x40400000 q := by
  have half : F32.lit 1 2 = 0x3F000000 := by decide +kernel
  have four : int f32 4 = 0x40800000 := by decide +kernel
  have three : int f32 3 = 0x40400000 := by decide +kernel
  rw [tri, four, three, int_one]
  change (F32.lt p (F32.lit 1 2) >>= fun rising => F32.mul _ p >>= _) = _
  rw [half, lt_of_not_nan hp (by decide), calc_ok_bind, hq, calc_ok_bind]
  simp only [decide_eq_true_eq]
  rfl

/-- The saw from the rounded product `2p` (R124). -/
theorem saw_f32 {p q : NumWord} (hq : F32.mul 0x40000000 p = .ok q) : saw f32 p = F32.sub q oneW := by
  have two : int f32 2 = 0x40000000 := by decide +kernel
  rw [saw, two, int_one]
  change (F32.mul _ p >>= _) = _
  rw [hq]
  rfl

/-- `WG.TRI j` on a finite phase: the product may be infinite, but the difference with 1 or 3 answers (R128). -/
theorem exec_wgTri {s : State} {j : Fin 11} (hp : isFinite (s.voice.num (.ph j)) = true) :
    ∃ q r t, F32.mul 0x40800000 (s.voice.num (.ph j)) = .ok q ∧
      (if key (s.voice.num (.ph j)) < key 0x3F000000 then F32.sub q oneW = .ok r
        else F32.sub 0x40400000 q = .ok r) ∧
      exec (.wgTri (BitVec.ofNat 4 j)) s = .next t ∧ t.voice.num .r0 = r ∧ Frame [.num .r0] s t := by
  have hq := mul_finite (a := 0x40800000) (by decide) hp
  have htri := tri_f32 (isNaN_of_isFinite hp) hq
  split at htri
  next h =>
    obtain ⟨r, hr⟩ := exists_sub (b := oneW) (mul_not_nan hq) (by decide) (.inr (by decide))
    obtain ⟨t, ht⟩ := exec_of_performs_setNum (.wgTri (phaseIdx_ofNat j) (htri.trans hr))
    exact ⟨_, r, t, hq, by rwa [if_pos h], ht⟩
  next h =>
    obtain ⟨r, hr⟩ := exists_sub (a := 0x40400000) (by decide) (mul_not_nan hq) (.inl (by decide))
    obtain ⟨t, ht⟩ := exec_of_performs_setNum (.wgTri (phaseIdx_ofNat j) (htri.trans hr))
    exact ⟨_, r, t, hq, by rwa [if_neg h], ht⟩

/-- `WG.SAW j` on a finite phase (R129). -/
theorem exec_wgSaw {s : State} {j : Fin 11} (hp : isFinite (s.voice.num (.ph j)) = true) :
    ∃ q r t, F32.mul 0x40000000 (s.voice.num (.ph j)) = .ok q ∧ F32.sub q oneW = .ok r ∧
      exec (.wgSaw (BitVec.ofNat 4 j)) s = .next t ∧ t.voice.num .r0 = r ∧ Frame [.num .r0] s t := by
  have hq := mul_finite (a := 0x40000000) (by decide) hp
  obtain ⟨r, hr⟩ := exists_sub (b := oneW) (mul_not_nan hq) (by decide) (.inr (by decide))
  obtain ⟨t, ht⟩ := exec_of_performs_setNum (.wgSaw (phaseIdx_ofNat j) ((saw_f32 hq).trans hr))
  exact ⟨_, r, t, hq, hr, ht⟩

/-- Settles O35: the product of a finite phase is a number, and so is its difference with a constant. -/
theorem triangleAndSaw : Obligations.TriangleAndSaw := fun _ _ hp => ⟨exec_wgTri hp, exec_wgSaw hp⟩

/-! The clamped width: the square and the pulse-width modulation -/

/-- The clamp to [`W_MIN`, `W_MAX`] answers at every number (00_scope.md R7, R14). -/
theorem clamp_width {w : NumWord} (hw : isNaN w = false) :
    clamp f32 w (wMin f32) (wMax f32) = .ok (clampWord w 0x3C23D70A 0x3F7D70A4) := by
  have hmin : wMin f32 = 0x3C23D70A := by decide +kernel
  have hmax : wMax f32 = 0x3F7D70A4 := by decide +kernel
  rw [hmin, hmax]
  exact clamp_of_not_nan hw (by decide) (by decide)

theorem clampWord_not_nan {x lo hi : NumWord} (hx : isNaN x = false) (hlo : isNaN lo = false) (hhi : isNaN hi = false) :
    isNaN (clampWord x lo hi) = false := by
  unfold clampWord
  split_ifs <;> assumption

/-- The square answers at numbers that are no NaN (R125). -/
theorem square_f32 {p w : NumWord} (hp : isNaN p = false) (hw : isNaN w = false) :
    square f32 p w =
      .ok (if key p < key (clampWord w 0x3C23D70A 0x3F7D70A4) then oneW else 0xBF800000) := by
  have minus_one : f32.minusOne = 0xBF800000 := by decide +kernel
  rw [square, clamp_width hw, calc_ok_bind, int_one, minus_one]
  change (F32.lt p _ >>= _) = _
  rw [lt_of_not_nan hp (clampWord_not_nan hw (by decide) (by decide)), calc_ok_bind, calc_pure]
  simp only [decide_eq_true_eq]

/-- Settles O36: a clamped number is a number, so the comparison answers. -/
theorem squareComparesWithTheClampedWidth : Obligations.SquareComparesWithTheClampedWidth := by
  intro s j hp hw
  obtain ⟨t, ht, hr0, hframe⟩ := exec_of_performs_setNum (.wgSqr (phaseIdx_ofNat j) (square_f32 hp hw))
  exact ⟨t, ht, hframe, hr0⟩

/-- The modulated width, once its operations answer (R131). -/
theorem pulseWidth_f32 {pw amt cv u d w : NumWord} (hu : F32.mul cv 0x3DCCCCCD = .ok u) (hd : F32.mul amt u = .ok d)
    (hw : F32.add pw d = .ok w) : pulseWidth f32 pw amt cv = .ok (clampWord w 0x3C23D70A 0x3F7D70A4) := by
  have tenth : cvScale f32 = 0x3DCCCCCD := by decide +kernel
  rw [pulseWidth, tenth]
  exact calc_bind_ok.mpr ⟨u, hu, calc_bind_ok.mpr ⟨d, hd, calc_bind_ok.mpr ⟨w, hw, clamp_width (add_not_nan hw)⟩⟩⟩

/-- Settles O37: `PWM_CV * 0.1` is finite, so the second product is a number, and its sum with the finite width is. -/
theorem pulseWidthIsClamped : Obligations.PulseWidthIsClamped := by
  intro s k hpw hamt hcv
  obtain ⟨u, hu, hufin⟩ := exists_mul_of_mag_le_one (b := 0x3DCCCCCD) hcv (by decide)
  have hd := mul_finite hamt hufin
  obtain ⟨w, hw⟩ := exists_add (isNaN_of_isFinite hpw) (mul_not_nan hd) (.inl hpw)
  obtain ⟨t, ht, hwidth, hframe⟩ := exec_of_performs_setNum (.pwMod (chainIdx_ofNat k) (pulseWidth_f32 hu hd hw))
  refine ⟨u, _, w, t, hu, hd, hw, ht, hwidth, hframe, ?_⟩
  rw [hwidth]
  exact clampWord_between (by decide)

end Sys2Proof.Machine
end

section
/-! PROOFS. 42_waveform.md R123 and R134: the triangle under REAL. -/

namespace Sys2Proof.Machine

/-- The triangle in one formula: 1 at the middle, less four times the distance from it. -/
noncomputable def realTri (p : ℝ) : ℝ := 1 - |4 * p - 2|

theorem realTri_of_le {p : ℝ} (h : p ≤ 1 / 2) : realTri p = 4 * p - 1 := by
  rw [realTri, abs_of_nonpos (by linarith)]; ring

theorem realTri_of_ge {p : ℝ} (h : 1 / 2 ≤ p) : realTri p = 3 - 4 * p := by
  rw [realTri, abs_of_nonneg (by linarith)]; ring

/-- Under REAL the rule's two branches are the one formula (R123). -/
theorem tri_reals (p : ℝ) : tri reals p = .ok (realTri p) := by
  by_cases h : p < 1 / 2
  · simp [tri, reals, int, realTri_of_le h.le, h, -one_div]
  · simp [tri, reals, int, realTri_of_ge (not_lt.mp h), h, -one_div]

theorem continuous_realTri : Continuous realTri := by
  unfold realTri
  fun_prop

/-- Within a cycle the distance from the middle is at most 1/2. -/
theorem realTri_between {p : ℝ} (h0 : 0 ≤ p) (h1 : p < 1) : -1 ≤ realTri p ∧ realTri p ≤ 1 := by
  have hdist : |4 * p - 2| ≤ 2 := abs_le.mpr ⟨by linarith, by linarith⟩
  have hnonneg := abs_nonneg (4 * p - 2)
  unfold realTri
  constructor <;> linarith

/-- Settles O59: the formula is continuous, and has slope 4 up to the middle and -4 from there. -/
theorem realTriangle : Obligations.RealTriangle := by
  refine ⟨realTri, tri_reals, ?_, ?_, ?_, continuous_realTri, fun p => realTri_between, ?_, ?_⟩
  · rw [realTri_of_le (by norm_num)]; norm_num
  · rw [realTri_of_le le_rfl]; norm_num
  · rw [realTri_of_ge (by norm_num), realTri_of_le (by norm_num)]; norm_num
  · intro p hp q hq hpq
    rw [realTri_of_le hp.2.le, realTri_of_le hq.2.le]
    linarith
  · intro p hp q hq hpq
    rw [realTri_of_ge hp.1, realTri_of_ge hq.1]
    linarith

end Sys2Proof.Machine
end

section
/-! PROOFS. 43_harmonic_bank.md R136 to R139: what a tick of the harmonic bank computes, slot by slot. -/

namespace Sys2Proof.Machine

variable {ν : Type} {N : Numerics ν} {c : Config ν} {fb : ν} {v w : Voice ν} {i j : Fin 8}

/-! One slot -/

/-- The values the rule of one slot names (R138). -/
structure SlotValues (ν : Type) where
  freq : ν
  phase : ν
  amp : ν
  sine : ν
  product : ν

/-- `SlotGives N c fb v i q`: on the block `v` the operations of slot `i` give the values `q` (R136 to R138). -/
structure SlotGives (N : Numerics ν) (c : Config ν) (fb : ν) (v : Voice ν) (i : Fin 8) (q : SlotValues ν) : Prop where
  freq : slotFreq N c v.cfg0 fb i = .ok q.freq
  phase : phaseAdvance N (v.num (.ph (slotPhase i))) q.freq (v.num .dt) = .ok q.phase
  amp : slotAmp N v i = .ok q.amp
  sine : sineBy N c v q.phase = .ok q.sine
  product : N.mul q.amp q.sine = .ok q.product

/-- The block with slot `i`'s phase and latches written (R138). -/
def Voice.latch (v : Voice ν) (i : Fin 8) (q : SlotValues ν) : Voice ν :=
  ((v.setNum (.ph (slotPhase i)) q.phase).setNum (.slotF i) q.freq).setNum (.slotA i) q.amp

/-- Slot `i`'s phase and latches hold the values `q`. -/
def Voice.Latched (v : Voice ν) (i : Fin 8) (q : SlotValues ν) : Prop :=
  v.num (.ph (slotPhase i)) = q.phase ∧ v.num (.slotF i) = q.freq ∧ v.num (.slotA i) = q.amp

theorem slotPhase_inj : slotPhase i = slotPhase j ↔ i = j := by simp [slotPhase, Fin.ext_iff]

theorem Voice.latched_latch_self (v : Voice ν) (i : Fin 8) (q : SlotValues ν) : (v.latch i q).Latched i q := by
  simp [Voice.Latched, Voice.latch]

theorem Voice.latched_latch_of_ne {q r : SlotValues ν} (h : j ≠ i) : (v.latch i q).Latched j r ↔ v.Latched j r := by
  simp [Voice.Latched, Voice.latch, slotPhase_inj, h]

/-- Another slot reads nothing that a slot latches. -/
theorem slotGives_latch {q r : SlotValues ν} (h : j ≠ i) :
    SlotGives N c fb (v.latch i q) j r ↔ SlotGives N c fb v j r := by
  have hamp : slotAmp N (v.latch i q) j = slotAmp N v j := by simp [slotAmp, Voice.latch]
  have hsine (p : ν) : sineBy N c (v.latch i q) p = sineBy N c v p := by simp [sineBy, Voice.latch]
  have hph : (v.latch i q).num (.ph (slotPhase j)) = v.num (.ph (slotPhase j)) := by
    simp [Voice.latch, slotPhase_inj, h]
  have hdt : (v.latch i q).num .dt = v.num .dt := by simp [Voice.latch]
  have hcfg0 : (v.latch i q).cfg0 = v.cfg0 := by simp [Voice.latch]
  constructor <;> exact fun ⟨hf, hp, ha, hx, hy⟩ => ⟨hcfg0 ▸ hf, hph ▸ hdt ▸ hp, hamp ▸ ha, hsine _ ▸ hx, hy⟩

/-- A slot whose operations give `q` adds their product to the running sum and latches them (R138). -/
theorem hbSlot_of_slotGives {q : SlotValues ν} (h : SlotGives N c fb v i q) (sum : ν) :
    hbSlot N c fb (v, sum) i = N.add sum q.product >>= fun t => .ok (v.latch i q, t) := by
  simp only [hbSlot, h.freq, h.phase, h.amp, h.sine, h.product, calc_ok_bind, calc_pure, Voice.latch]

theorem slotGives_of_hbSlot {acc r : Voice ν × ν} (h : hbSlot N c fb acc i = .ok r) :
    ∃ q, SlotGives N c fb acc.1 i q ∧ r.1 = acc.1.latch i q := by
  obtain ⟨f, p, a, x, y, sum, hf, hp, ha, hx, hy, -, rfl⟩ := hbSlot_ok.mp h
  exact ⟨⟨f, p, a, x, y⟩, ⟨hf, hp, ha, hx, hy⟩, rfl⟩

/-! The eight slots in order -/

/-- The block with the phases and latches of the listed slots written. -/
def Voice.latchAll (v : Voice ν) (q : Fin 8 → SlotValues ν) (l : List (Fin 8)) : Voice ν :=
  l.foldl (fun w i => w.latch i (q i)) v

theorem Voice.latched_latchAll {q : Fin 8 → SlotValues ν} {l : List (Fin 8)} (h : i ∈ l ∨ v.Latched i (q i)) :
    (v.latchAll q l).Latched i (q i) := by
  induction l generalizing v with
  | nil => exact h.resolve_left List.not_mem_nil
  | cons j l ih =>
    refine ih ?_
    by_cases hij : i = j
    · exact .inr (hij ▸ v.latched_latch_self i (q i))
    · exact h.imp (fun hi => (List.mem_cons.mp hi).resolve_left hij) (latched_latch_of_ne hij).mpr

/-- Distinct slots do not disturb each other: where each gives its values on the block before, running them in order
latches those values and sums their products (R138). -/
theorem foldlM_hbSlot {q : Fin 8 → SlotValues ν} {l : List (Fin 8)} (hl : l.Nodup)
    (hq : ∀ i ∈ l, SlotGives N c fb v i (q i)) (sum : ν) :
    l.foldlM (hbSlot N c fb) (v, sum) =
      l.foldlM (fun sum i => N.add sum (q i).product) sum >>= fun t => .ok (v.latchAll q l, t) := by
  induction l generalizing v sum with
  | nil => rfl
  | cons i l ih =>
    obtain ⟨hi, hl⟩ := List.nodup_cons.mp hl
    obtain ⟨hqi, hql⟩ := List.forall_mem_cons.mp hq
    have hql' : ∀ j ∈ l, SlotGives N c fb (v.latch i (q i)) j (q j) := fun j hj =>
      (slotGives_latch (ne_of_mem_of_not_mem hj hi)).mpr (hql j hj)
    simp only [List.foldlM_cons, hbSlot_of_slotGives hqi, bind_assoc, calc_ok_bind, ih hl hql']
    rfl

/-- Where the listed slots run through, each gives its values on the block before. -/
theorem slotGives_of_foldlM {l : List (Fin 8)} (hl : l.Nodup) {acc r : Voice ν × ν}
    (h : l.foldlM (hbSlot N c fb) acc = .ok r) : ∀ i ∈ l, ∃ q, SlotGives N c fb acc.1 i q := by
  induction l generalizing acc with
  | nil => simp
  | cons i l ih =>
    obtain ⟨hi, hl⟩ := List.nodup_cons.mp hl
    rw [List.foldlM_cons, calc_bind_ok] at h
    obtain ⟨acc', hslot, hrest⟩ := h
    obtain ⟨q, hq, hacc'⟩ := slotGives_of_hbSlot hslot
    refine List.forall_mem_cons.mpr ⟨⟨q, hq⟩, fun j hj => ?_⟩
    obtain ⟨r, hr⟩ := ih hl hrest j hj
    exact ⟨r, (slotGives_latch (ne_of_mem_of_not_mem hj hi)).mp (hacc' ▸ hr)⟩

theorem nodup_slots : slots.Nodup := by decide

theorem mem_slots (i : Fin 8) : i ∈ slots := by revert i; decide

/-- `HB.TICK` slot by slot, every slot's values on the block before (R138). -/
theorem hbTick_iff :
    hbTick N c v = .ok w ↔ ∃ fb q sum g o, absToFreq N (v.num (.freq 0)) = .ok fb ∧
      (∀ i, SlotGives N c fb v i (q i)) ∧ slots.foldlM (fun sum i => N.add sum (q i).product) (int N 0) = .ok sum ∧
      N.mul (outGain N v.cfg0) sum = .ok g ∧ N.div g (int N 8) = .ok o ∧
      (v.latchAll q slots).setNum .hbOut o = w := by
  rw [hbTick_ok]
  constructor
  · rintro ⟨fb, r, g, o, hfb, hr, hg, ho, rfl⟩
    choose q hq using fun i => slotGives_of_foldlM nodup_slots hr i (mem_slots i)
    rw [foldlM_hbSlot nodup_slots fun i _ => hq i, calc_bind_ok] at hr
    obtain ⟨sum, hsum, hr⟩ := hr
    cases hr
    exact ⟨fb, q, sum, g, o, hfb, hq, hsum, hg, ho, rfl⟩
  · rintro ⟨fb, q, sum, g, o, hfb, hq, hsum, hg, ho, rfl⟩
    refine ⟨fb, (v.latchAll q slots, sum), g, o, hfb, ?_, hg, ho, rfl⟩
    rw [foldlM_hbSlot nodup_slots fun i _ => hq i, hsum, calc_ok_bind]

/-- After the tick every slot's registers hold its values. -/
theorem latched_setNum_hbOut (v : Voice ν) (q : Fin 8 → SlotValues ν) (o : ν) (i : Fin 8) :
    ((v.latchAll q slots).setNum .hbOut o).Latched i (q i) := by
  simpa [Voice.Latched] using Voice.latched_latchAll (v := v) (q := q) (.inl (mem_slots i))

theorem bankUnbuilt_eq_false : bankUnbuilt v = false ↔ v.cfg0.getLsbD 2 = true ∨ v.status.getLsbD 0 = true := by
  simp [bankUnbuilt, sd, Voice.wtb, wtbBit, or_iff_not_imp_left]

/-- Without a fault `HB.TICK` is the tick (R139). -/
theorem exec_hbTick_next {s t : State} (hb : bankUnbuilt s.voice = false) (h : exec (.hbTick 0) s = .next t) :
    ∃ w, hbTick f32 s.config s.voice = .ok w ∧ t = s.withVoice w := by
  obtain ⟨w, hw, ht⟩ := exec_next.mp h
  exact ⟨w, by simpa [runCommand, hbTickCmd, hb] using hw, ht⟩

/-! The tick under F32 -/

/-- The clamp to [0, 1] answers at every number. -/
theorem clamp_unit {x : NumWord} (hx : F32.isNaN x = false) :
    clamp f32 x (int f32 0) (int f32 1) = .ok (clampWord x 0 oneW) := by
  rw [int_zero, int_one]
  exact F32.clamp_of_not_nan hx (by decide) (by decide)

theorem slotAmp_of_cv {v : Voice NumWord} {u : NumWord} (hc : v.cfg0.getLsbD (8 + i) = true)
    (hu : F32.mul (v.num (.hcv i)) 0x3DCCCCCD = .ok u) : slotAmp f32 v i = .ok (clampWord u 0 oneW) := by
  have tenth : cvScale f32 = 0x3DCCCCCD := by decide +kernel
  rw [slotAmp, Machine.hc, hc, if_pos rfl, cvUnit, tenth]
  exact calc_bind_ok.mpr ⟨u, hu, clamp_unit (F32.mul_not_nan hu)⟩

theorem slotAmp_of_level {v : Voice NumWord} (hc : v.cfg0.getLsbD (8 + i) = false)
    (hn : F32.isNaN (v.num (.level i)) = false) :
    slotAmp f32 v i = .ok (clampWord (v.num (.level i)) 0 oneW) := by
  rw [slotAmp, Machine.hc, hc, if_neg Bool.false_ne_true, clamp_unit hn]

theorem outGain_f32 (cfg0 : Word) : outGain f32 cfg0 = if cfg0.getLsbD 3 then 0x41200000 else 0x40A00000 := by
  have ten : int f32 10 = 0x41200000 := by decide +kernel
  have five : int f32 5 = 0x40A00000 := by decide +kernel
  rw [outGain, g10, ten, five]

theorem int_eight : int f32 8 = 0x41000000 := by decide +kernel

theorem slots_eq_finRange : slots = List.finRange 8 := by decide

/-- Folding over all indices follows a chain of values. -/
theorem foldlM_finRange_of_chain {β : Type} {n : Nat} {f : β → Fin n → Calc β} {sum : Fin (n + 1) → β}
    (h : ∀ i, f (sum i.castSucc) i = .ok (sum i.succ)) :
    (List.finRange n).foldlM f (sum 0) = .ok (sum (Fin.last n)) := by
  induction n with
  | zero => rfl
  | succ n ih =>
    rw [List.finRange_succ, List.foldlM_cons, show f (sum 0) 0 = _ from h 0, calc_ok_bind, List.foldlM_map]
    exact ih (sum := sum ∘ Fin.succ) fun i => h i.succ

/-- Settles O38: the given values are those of the slots, and the given sums those of the running sum. -/
theorem bankTickCompletes : Obligations.BankTick := by
  intro s f p a x y sum g o hb hfreq hf hp ha hx hy hsum0 hsum hg ho
  let q : Fin 8 → SlotValues NumWord := fun i => ⟨f i, p i, a i, x i, y i⟩
  have hslotFreq (i : Fin 8) : slotFreq f32 s.config s.voice.cfg0
      (clampWord (s.voice.num (.freq 0)) 0x41200000 0x469C4000) i = .ok (f i) := by
    have h := hf i
    unfold slotFreq fsel
    generalize (s.voice.cfg0.extractLsb' 0 2).toNat = m at h ⊢
    match m with
    | 0 => exact h
    | 1 | 2 | _ + 3 => exact congrArg Except.ok h.symm
  have hslotAmp (i : Fin 8) : slotAmp f32 s.voice i = .ok (a i) := by
    have h := ha i
    split at h
    next hc =>
      obtain ⟨u, hu, hai⟩ := h
      rw [hai, slotAmp_of_cv hc hu]
    next hc => rw [h.2, slotAmp_of_level (Bool.eq_false_iff.mpr hc) h.1]
  have hq (i : Fin 8) : SlotGives f32 s.config _ s.voice i (q i) := ⟨hslotFreq i, hp i, hslotAmp i, hx i, hy i⟩
  have hsum8 : slots.foldlM (fun sum i => f32.add sum (q i).product) (int f32 0) = .ok (sum 8) := by
    rw [slots_eq_finRange, int_zero, ← hsum0]
    exact foldlM_finRange_of_chain hsum
  rw [← outGain_f32] at hg
  rw [← int_eight] at ho
  have hw := hbTick_iff.mpr ⟨_, q, sum 8, g, o, absToFreq_f32 hfreq, hq, hsum8, hg, ho, rfl⟩
  obtain ⟨hregs, htable⟩ := hbTick_frame hw
  refine ⟨_, exec_of_performs (.hbTick (bankUnbuilt_eq_false.mpr hb) hw), ?_, frame_withVoice hregs htable,
    latched_setNum_hbOut s.voice q o⟩
  rw [State.voice_withVoice, Voice.num_setNum, if_pos rfl]

end Sys2Proof.Machine
end

section
/-! PROOFS. 43_harmonic_bank.md R142: a silent bank gives a zero. -/

namespace Sys2Proof.F32

/-! Zeros of either sign -/

variable {a b r : NumWord}

theorem isFinite_of_zero (h : mag a = 0) : isFinite a = true := by simp [isFinite, infMag, h]

/-- A product with a zero that answers is a zero. -/
theorem mag_mul_zero (hz : mag a = 0 ∨ mag b = 0) (h : mul a b = .ok r) : mag r = 0 := by
  have hprod : scale (mag a) * scale (mag b) = 0 := by
    rcases hz with hz | hz <;> simp [hz]
  have hzero : (isZero a || isZero b) = true := by simpa [isZero] using hz
  unfold mul at h
  simp only [hzero, if_true] at h
  split_ifs at h
  cases h
  rw [mag_round, hprod, roundMag_zero _ (by decide)]

/-- The sum of two zeros is a zero. -/
theorem mag_add_zero (ha : mag a = 0) (hb : mag b = 0) (h : add a b = .ok r) : mag r = 0 := by
  have units_zero {w : NumWord} (hw : mag w = 0) : units w = 0 := by simp [units, hw]
  rw [add_finite (isFinite_of_zero ha) (isFinite_of_zero hb), units_zero ha, units_zero hb] at h
  cases h
  rw [ofUnits, mag_round]
  exact roundMag_zero _ (by decide)

/-- A zero over a finite number other than 0 is a zero. -/
theorem mag_div_zero (ha : mag a = 0) (hb : isFinite b = true) (h0 : isZero b = false) (h : div a b = .ok r) :
    mag r = 0 := by
  have hpos : 0 < scale (mag b) := scale_pos (Nat.pos_of_ne_zero (of_decide_eq_false h0))
  rw [div_finite (isFinite_of_zero ha) hb h0, ha, scale_zero, Nat.zero_mul] at h
  cases h
  rw [mag_round, roundMag_zero _ hpos]

/-- A clamp to [0, 1] keeps a zero, with its sign (00_scope.md R14). -/
theorem clampWord_unit_of_zero (h : mag a = 0) : Machine.clampWord a 0 Machine.oneW = a := by
  have hkey : key a = 0 := by simp [key, h]
  have hlo : key 0 = 0 := by decide
  have hhi : ¬ key Machine.oneW < 0 := by decide
  rw [Machine.clampWord, hkey, hlo, if_neg (lt_irrefl _), if_neg hhi]

end Sys2Proof.F32

namespace Sys2Proof.Machine

open F32

/-- A slot whose level is a zero adds a zero, whatever its sine. -/
theorem SlotGives.product_zero {c : Config NumWord} {fb : NumWord} {v : Voice NumWord} {i : Fin 8}
    {q : SlotValues NumWord} (h : SlotGives f32 c fb v i q) (hc : v.cfg0.getLsbD (8 + i) = false)
    (hlevel : mag (v.num (.level i)) = 0) : mag q.product = 0 := by
  have hamp := h.amp
  rw [slotAmp_of_level hc (isNaN_of_isFinite (isFinite_of_zero hlevel)), clampWord_unit_of_zero hlevel,
    Except.ok.injEq] at hamp
  exact mag_mul_zero (.inl (hamp ▸ hlevel)) h.product

/-- Settles O39: every product is a zero, so the running sum stays one, and gain and division keep it. -/
theorem silentBankGivesZero : Obligations.SilentBankGivesZero := by
  intro s t hc hlevel hb h
  obtain ⟨w, hw, rfl⟩ := exec_hbTick_next (bankUnbuilt_eq_false.mpr hb) h
  obtain ⟨fb, q, sum, g, o, -, hq, hsum, hg, ho, rfl⟩ := hbTick_iff.mp hw
  have hsum0 : mag sum = 0 :=
    foldlM_keeps (P := (mag · = 0))
      (fun _ i _ hacc hadd => mag_add_zero hacc ((hq i).product_zero (hc i) (hlevel i)) hadd)
      slots (by rw [int_zero]; rfl) hsum
  have hg0 : mag g = 0 := mag_mul_zero (.inr hsum0) hg
  rw [int_eight] at ho
  rw [State.voice_withVoice, Voice.num_setNum, if_pos rfl]
  exact mag_div_zero hg0 (by decide) (by decide) ho

end Sys2Proof.Machine
end

section
/-! PROOFS. 43_harmonic_bank.md R138, R142 under REAL: the output as a sum over the slots. -/

namespace Sys2Proof.Machine

theorem foldlM_add_reals {α : Type} (f : α → ℝ) (l : List α) (s : ℝ) :
    l.foldlM (fun s i => reals.add s (f i)) s = .ok (s + (l.map f).sum) := by
  induction l generalizing s with
  | nil => simp [calc_pure]
  | cons i l ih =>
    rw [List.foldlM_cons, show reals.add s (f i) = .ok (s + f i) from rfl, calc_ok_bind, ih, List.map_cons,
      List.sum_cons, add_assoc]

/-- With the direct sine a slot's product is its amplitude times the exact sine of its advanced phase. -/
theorem SlotGives.product_reals {c : Config ℝ} {fb : ℝ} {v : Voice ℝ} {i : Fin 8} {q : SlotValues ℝ}
    (h : SlotGives reals c fb v i q) (hc : RealConfig c) (hsd : v.cfg0.getLsbD 2 = true) :
    q.product = q.amp * Real.sin (2 * Real.pi * q.phase) := by
  have hsine := h.sine
  rw [sineBy, sd, hsd, if_pos rfl] at hsine
  rw [← hc.sin2pi_eq, show c.sin2pi q.phase = q.sine from Except.ok.inj hsine]
  exact (Except.ok.inj h.product).symm

/-- Settles O60: the running sum is the sum of the slots' products, read back from the latches. -/
theorem realBankOutput : Obligations.RealBankOutput := by
  intro c v w hc hsd hw
  obtain ⟨fb, q, sum, g, o, -, hq, hsum, hg, ho, rfl⟩ := hbTick_iff.mp hw
  have hterm (i : Fin 8) : (q i).product = ((v.latchAll q slots).setNum .hbOut o).num (.slotA i) *
      Real.sin (2 * Real.pi * ((v.latchAll q slots).setNum .hbOut o).num (.ph (slotPhase i))) := by
    obtain ⟨hphase, -, hamp⟩ := latched_setNum_hbOut v q o i
    rw [hphase, hamp, (hq i).product_reals hc hsd]
  have hsum' : sum = ∑ i, (q i).product := by
    rw [foldlM_add_reals, slots_eq_finRange, ← Fin.sum_univ_def] at hsum
    simpa [int, reals] using (Except.ok.inj hsum).symm
  have hg' : g = (if v.cfg0.getLsbD 3 then 10 else 5) * sum := by
    simpa [outGain, g10, int, reals] using (Except.ok.inj hg).symm
  have ho' : o = g / 8 := by
    simpa [int, reals, eq_comm] using ho
  simp only [← hterm]
  rw [Voice.num_setNum, if_pos rfl, ho', hg', hsum', div_mul_eq_mul_div]

end Sys2Proof.Machine
end

section
/-! PROOFS. 44_envelope.md R146 to R154: what an envelope step does, over any number type, and when it answers under F32. -/

namespace Sys2Proof.Machine

/-! The edge (R147) -/

section
variable {ν : Type} {N : Numerics ν} {c : Config ν} {x : EnvIn ν} {sc : ν} {u u' : EnvUnit ν} {gate : Bool}

/-- A step that ends in an attack action: a rising edge, or an Attack without a falling edge (R147, R148). -/
def EnvUnit.Attacks (u : EnvUnit ν) (gate : Bool) : Prop :=
  (gate = true ∧ u.gprev = false) ∨ (u.st = .attack ∧ (gate = true ∨ u.gprev = false))

theorem envEdge_of_attacks (h : u.Attacks gate) :
    envEdge N gate u = { u with st := .attack, prog := if gate && !u.gprev then int N 0 else u.prog } := by
  obtain ⟨hg, hp⟩ | ⟨hst, hg⟩ := h
  · simp [envEdge, hg, hp]
  · obtain ⟨st, out, prog, gprev, rel0⟩ := u
    cases hst
    cases gate <;> cases gprev <;> simp [envEdge] at hg ⊢

/-- A step that ends in a release action: a falling edge outside Idle, or a Release without an edge (R147, R152). -/
def EnvUnit.Releases (u : EnvUnit ν) (gate : Bool) : Prop :=
  ((!gate && u.gprev) = true ∧ u.st ≠ .idle) ∨ (u.st = .release ∧ u.gprev = gate)

theorem envEdge_of_releases (h : u.Releases gate) :
    envEdge N gate u = { u with
      st := .release
      prog := if !gate && u.gprev then int N 0 else u.prog
      rel0 := if !gate && u.gprev then u.out else u.rel0 } := by
  obtain ⟨hf, hst⟩ | ⟨hst, rfl⟩ := h
  · obtain ⟨hg, hp⟩ : gate = false ∧ u.gprev = true := by simpa using hf
    simp [envEdge, hg, hp, hst]
  · simp [envEdge, ← hst]

/-- Without an edge the unit is kept. -/
theorem envEdge_of_eq (h : u.gprev = gate) : envEdge N gate u = u := by
  subst h
  simp [envEdge]

/-- An Idle unit has no falling edge. -/
theorem envEdge_of_idle (hst : u.st = .idle) (h : gate = false ∨ u.gprev = true) : envEdge N gate u = u := by
  obtain h | h := h <;> simp [envEdge, hst, h]

/-! The action of each state (R153) -/

theorem envAction_of_idle (h : u.st = .idle) : envAction N c x sc u = .ok { u with out := int N 0 } := by
  simp [envAction, h]

theorem envAction_of_attack (h : u.st = .attack) : envAction N c x sc u = envAttack N c x u := by
  simp [envAction, h]

theorem envAction_of_decay (h : u.st = .decay) : envAction N c x sc u = envDecay N c x sc u := by
  simp [envAction, h]

theorem envAction_of_sustain (h : u.st = .sustain) : envAction N c x sc u = .ok { u with out := sc } := by
  simp [envAction, h]

theorem envAction_of_release (h : u.st = .release) : envAction N c x sc u = envRelease N c x u := by
  simp [envAction, h]

/-! The actions, taken apart -/

/-- The level of an attack action (R148), once its operations answer. -/
def AttackLevel (N : Numerics ν) (c : Config ν) (x : EnvIn ν) (level : ν) (instant : Bool) (out : ν) : Prop :=
  if instant then out = int N 1
  else ∃ ae d, maxNum N x.att c.epsDiv = .ok ae ∧ N.div x.dt ae = .ok d ∧ N.add level d = .ok out

theorem envAttack_ok :
    envAttack N c x u = .ok u' ↔
      ∃ prog instant out full, N.add u.prog x.dt = .ok prog ∧ N.le x.att (int N 0) = .ok instant ∧
        AttackLevel N c x u.out instant out ∧ N.le (int N 1) out = .ok full ∧
        (if full then { u with st := .decay, out := int N 1, prog := int N 0 }
          else { u with out := out, prog := prog }) = u' := by
  simp only [envAttack, calc_bind_ok, exists_and_left]
  refine exists_congr fun prog => and_congr_right fun _ => exists_congr fun instant => and_congr_right fun _ => ?_
  cases instant with
  | true => simp [AttackLevel, calc_pure, calc_bind_ok]
  | false =>
    simp only [AttackLevel, Bool.false_eq_true, if_false, calc_bind_ok, calc_pure_ok]
    constructor
    · rintro ⟨ae, hae, d, hd, out, hout, h⟩
      exact ⟨out, ⟨ae, d, hae, hd, hout⟩, h⟩
    · rintro ⟨out, ⟨ae, d, hae, hd, hout⟩, h⟩
      exact ⟨ae, hae, d, hd, out, hout, h⟩

/-- An attack leads to Attack or Decay (R148). -/
theorem st_of_envAttack (hst : u.st = .attack) (h : envAttack N c x u = .ok u') : u'.st = .attack ∨ u'.st = .decay := by
  obtain ⟨prog, instant, out, full, -, -, -, -, rfl⟩ := envAttack_ok.mp h
  split
  · exact .inr rfl
  · exact .inl hst

theorem envDecay_ok :
    envDecay N c x sc u = .ok u' ↔
      ∃ de prog d t y out elapsed reached, maxNum N x.dec c.epsDiv = .ok de ∧ N.add u.prog x.dt = .ok prog ∧
        N.sub sc (int N 1) = .ok d ∧ N.div prog de = .ok t ∧ N.mul d t = .ok y ∧ N.add (int N 1) y = .ok out ∧
        N.le de prog = .ok elapsed ∧ N.le out sc = .ok reached ∧
        (if elapsed || reached then { u with st := .sustain, out := sc, prog := int N 0 }
          else { u with out := out, prog := prog }) = u' := by
  simp only [envDecay, calc_bind_ok, calc_pure_ok, exists_and_left]

theorem envRelease_ok :
    envRelease N c x u = .ok u' ↔
      ∃ re prog t y out elapsed reached, maxNum N x.rel c.epsDiv = .ok re ∧ N.add u.prog x.dt = .ok prog ∧
        N.div prog re = .ok t ∧ N.sub (int N 1) t = .ok y ∧ N.mul u.rel0 y = .ok out ∧
        N.le re prog = .ok elapsed ∧ N.le out (envEps N) = .ok reached ∧
        (if elapsed || reached then { u with st := .idle, out := int N 0, prog := int N 0 }
          else { u with out := out, prog := prog }) = u' := by
  simp only [envRelease, calc_bind_ok, calc_pure_ok, exists_and_left]

theorem envStepUnit_ok :
    envStepUnit N c x u = .ok u' ↔
      ∃ gate sc u1, N.le (int N 1) x.gateV = .ok gate ∧ clamp N x.sus (int N 0) (int N 1) = .ok sc ∧
        envAction N c x sc (envEdge N gate u) = .ok u1 ∧ { u1 with gprev := gate } = u' := by
  simp only [envStepUnit, calc_bind_ok, calc_pure_ok, exists_and_left]

end

end Sys2Proof.Machine
end

section
/-! PROOFS. 44_envelope.md R146 to R154: `ENV.STEP k` under F32, action by action. -/

namespace Sys2Proof.Machine

open F32

/-! What a comparison that answers says -/

theorem eq_of_f32_lt {a b : NumWord} {p : Bool} (h : f32.lt a b = .ok p) : p = decide (key a < key b) := by
  obtain ⟨ha, hb⟩ := not_nan_of_lt h
  rw [show f32.lt a b = _ from lt_of_not_nan ha hb] at h
  exact (Except.ok.inj h).symm

theorem eq_of_f32_le {a b : NumWord} {p : Bool} (h : f32.le a b = .ok p) : p = decide (key a ≤ key b) := by
  change F32.le a b = .ok p at h
  unfold F32.le at h
  split at h
  · cases h
  · exact (Except.ok.inj h).symm

/-! The registers of one unit -/

/-- Writing a unit changes those of its registers that get another word. -/
theorem sameRegs_setEnvUnit_of_word {l : List Reg} {v : Voice NumWord} {k : Fin 3} {u : EnvUnit NumWord}
    (h : ∀ r ∈ envRegs k, r ∉ l → (v.setEnvUnit k u).word r = v.word r) : SameRegsBut l v (v.setEnvUnit k u) := by
  intro r hr
  by_cases hk : r ∈ envRegs k
  · exact h r hk hr
  · exact sameRegs_setEnvUnit k u (sameRegs_refl _ v) (List.Subset.refl _) r hk

/-- `ENV.STEP k` at numbers: the gate and the clamped sustain level answer, so it completes where the action does. The unit
takes what the action gives and remembers the gate, `R0` takes the output (R153, R154). -/
theorem exec_envStep {s : State} {k : Fin 3} {gate : Bool} {u u' : EnvUnit NumWord} (l : List Reg)
    (hgate : gate = decide (key oneW ≤ key (s.voice.num (.gateV k)))) (hg : isNaN (s.voice.num (.gateV k)) = false)
    (hs : isNaN (s.voice.num (.sus k)) = false) (hedge : envEdge f32 gate (s.voice.envUnit k) = u)
    (haction : envAction f32 s.config (s.voice.envIn k) (clampWord (s.voice.num (.sus k)) 0 oneW) u = .ok u')
    (h0 : .num .r0 ∈ l)
    (hl : ∀ r ∈ envRegs k, r ∉ l → (s.voice.setEnvUnit k { u' with gprev := gate }).word r = s.voice.word r) :
    ∃ t, exec (.envStep (BitVec.ofNat 4 k)) s = .next t ∧ t.voice.envUnit k = { u' with gprev := gate } ∧
      t.voice.num .r0 = t.voice.num (.envOut k) ∧ Frame l s t := by
  have hle : f32.le (int f32 1) (s.voice.envIn k).gateV = .ok gate := by
    rw [int_one, hgate]
    exact le_of_not_nan (by decide) hg
  have hu := envStepUnit_ok.mpr ⟨gate, _, u', hle, clamp_unit hs, hedge.symm ▸ haction, rfl⟩
  exact ⟨_, exec_of_performs (.envStep (chainIdx_ofNat k) (envStep_ok.mpr ⟨_, hu, rfl⟩)), by simp [Voice.envUnit],
    by simp, frame_withVoice (sameRegs_setNum _ _ (sameRegs_setEnvUnit_of_word hl) h0) (by simp)⟩

/-! Idle and Sustain -/

/-- Settles O40: without an edge the unit is kept, and the action writes the output only. -/
theorem envelopeIdleAndSustain : Obligations.EnvelopeIdleAndSustain := by
  intro s k hg hs
  refine ⟨fun hst hedge => ?_, fun hst hedge => ?_⟩
  · obtain ⟨t, ht, hunit, hr0, hframe⟩ := exec_envStep [.num .r0, .num (.envOut k), .envGprev k] rfl hg hs
      (envEdge_of_idle hst (hedge.imp_left fun h => decide_eq_false (not_le.mpr h))) (envAction_of_idle hst)
      (by simp) (by simp [envRegs, Voice.word, Voice.envUnit])
    have hout : t.voice.num (.envOut k) = 0 := (congrArg EnvUnit.out hunit).trans int_zero
    exact ⟨t, ht, (congrArg EnvUnit.st hunit).trans hst, hout, hr0.trans hout, congrArg EnvUnit.gprev hunit, hframe⟩
  · obtain ⟨t, ht, hunit, hr0, hframe⟩ := exec_envStep [.num .r0, .num (.envOut k)] hedge hg hs (envEdge_of_eq rfl)
      (envAction_of_sustain hst) (by simp) (by simp [envRegs, Voice.word, Voice.envUnit])
    have hout := congrArg EnvUnit.out hunit
    exact ⟨t, ht, (congrArg EnvUnit.st hunit).trans hst, hout, hr0.trans hout, hframe⟩

/-! The three timed actions -/

/-- How a timed action ends (R148, R149, R152): where `p` holds the next state is entered at its level with the progress
0; else the unit stays, with the computed output and progress. -/
def EnvUnit.EndsAs (u u' : EnvUnit NumWord) (p : Prop) [Decidable p] (next : EnvState) (level out prog : NumWord) : Prop :=
  (if p then u'.st = next ∧ u'.out = level ∧ u'.prog = 0 else u'.st = u.st ∧ u'.out = out ∧ u'.prog = prog) ∧
    u'.rel0 = u.rel0

/-- The two ends as the actions write them. -/
theorem EnvUnit.endsAs_ite {u : EnvUnit NumWord} {p : Prop} [Decidable p] {next : EnvState} {level out prog : NumWord}
    {b : Bool} (h : b = decide p) :
    u.EndsAs (if b then { u with st := next, out := level, prog := int f32 0 } else { u with out := out, prog := prog })
      p next level out prog := by
  subst h
  by_cases hp : p <;> simp [EnvUnit.EndsAs, hp, int_zero]

/-- Remembering the gate changes nothing of how an action ends. -/
theorem EnvUnit.EndsAs.remember {u u' : EnvUnit NumWord} {p : Prop} [Decidable p] {next : EnvState}
    {level out prog : NumWord} (h : u.EndsAs u' p next level out prog) (gate : Bool) :
    u.EndsAs { u' with gprev := gate } p next level out prog := h

theorem maxNum_of_not_nan {a b : NumWord} (ha : isNaN a = false) (hb : isNaN b = false) :
    maxNum f32 a b = .ok (maxWord a b) := by
  rw [maxNum, show f32.lt a b = _ from lt_of_not_nan ha hb, calc_ok_bind, calc_pure, maxWord]
  simp only [decide_eq_true_eq]

theorem isPositive_maxWord {a b : NumWord} (ha : isNaN a = false) (hb : isPositive b) : isPositive (maxWord a b) := by
  obtain ⟨hn, hpos⟩ := hb
  unfold maxWord
  split
  · exact ⟨hn, hpos⟩
  · exact ⟨ha, by omega⟩

/-- A quotient answers where the dividend is finite and the divisor is above 0. -/
theorem exists_div {a b : NumWord} (ha : isFinite a = true) (hb : isPositive b) : ∃ r, F32.div a b = .ok r := by
  obtain ⟨hn, hpos⟩ := hb
  simp only [F32.div, isNaN_of_isFinite ha, isInf_of_isFinite ha, hn, isZero_of_key_pos hpos, Bool.or_self,
    Bool.false_eq_true, if_false]
  split <;> exact ⟨_, rfl⟩

section
variable {c : Config NumWord} {x : EnvIn NumWord} {sc : NumWord} {u : EnvUnit NumWord}

/-- The level of an attack action by order keys (R148). -/
theorem attackLevel_f32 {level out : NumWord} (ha : isNaN x.att = false) (he : isPositive c.epsDiv) :
    AttackLevel f32 c x level (decide (key x.att ≤ 0)) out ↔
      if key x.att ≤ 0 then out = oneW
      else ∃ d, F32.div x.dt (maxWord x.att c.epsDiv) = .ok d ∧ F32.add level d = .ok out := by
  obtain ⟨hn, -⟩ := he
  by_cases h : key x.att ≤ 0
  · simp [AttackLevel, h, int_one]
  · rw [AttackLevel, decide_eq_false h, if_neg h, maxNum_of_not_nan ha hn]
    exact ⟨fun ⟨_, d, hae, hd, hout⟩ => ⟨d, Except.ok.inj hae ▸ hd, hout⟩, fun ⟨d, hd⟩ => ⟨_, d, rfl, hd⟩⟩

theorem exists_attackLevel {level : NumWord} (he : isPositive c.epsDiv) (ha : isFinite x.att = true)
    (hd : isFinite x.dt = true) (hl : isFinite level = true) :
    ∃ out, isNaN out = false ∧ AttackLevel f32 c x level (decide (key x.att ≤ 0)) out := by
  have hn := isNaN_of_isFinite ha
  simp only [attackLevel_f32 hn he]
  split
  · exact ⟨oneW, by decide, rfl⟩
  · obtain ⟨d, hdiv⟩ := exists_div hd (isPositive_maxWord hn he)
    obtain ⟨out, hadd⟩ := exists_add (isNaN_of_isFinite hl) (div_not_nan hdiv) (.inl hl)
    exact ⟨out, add_not_nan hadd, d, hdiv, hadd⟩

/-- An attack action answers at finite inputs (R148). -/
theorem exists_envAttack (he : isPositive c.epsDiv) (ha : isFinite x.att = true) (hd : isFinite x.dt = true)
    (ho : isFinite u.out = true) (hp : isFinite u.prog = true) :
    ∃ prog out u', F32.add u.prog x.dt = .ok prog ∧
      AttackLevel f32 c x u.out (decide (key x.att ≤ 0)) out ∧
      envAttack f32 c x u = .ok u' ∧ u.EndsAs u' (key oneW ≤ key out) .decay oneW out prog := by
  obtain ⟨prog, hprog⟩ := exists_add (isNaN_of_isFinite hp) (isNaN_of_isFinite hd) (.inl hp)
  obtain ⟨out, hout, hlevel⟩ := exists_attackLevel he ha hd ho
  have hinstant : F32.le x.att (int f32 0) = .ok (decide (key x.att ≤ 0)) := by
    rw [int_zero]; exact le_of_not_nan (isNaN_of_isFinite ha) (by decide)
  have hfull : F32.le (int f32 1) out = .ok (decide (key oneW ≤ key out)) := by
    rw [int_one]; exact le_of_not_nan (by decide) hout
  refine ⟨prog, out, _, hprog, hlevel, envAttack_ok.mpr ⟨prog, _, out, _, hprog, hinstant, hlevel, hfull, rfl⟩, ?_⟩
  rw [int_one]
  exact EnvUnit.endsAs_ite rfl

/-- A decay action answers where its operations do (R149). -/
theorem exists_envDecay {prog e r y out : NumWord} (he : isPositive c.epsDiv) (hd : isNaN x.dec = false)
    (hs : isNaN sc = false) (hprog : F32.add u.prog x.dt = .ok prog) (hsub : F32.sub sc oneW = .ok e)
    (hr : F32.div prog (maxWord x.dec c.epsDiv) = .ok r) (hy : F32.mul e r = .ok y) (hout : F32.add oneW y = .ok out) :
    ∃ u', envDecay f32 c x sc u = .ok u' ∧
      u.EndsAs u' (key (maxWord x.dec c.epsDiv) ≤ key prog ∨ key out ≤ key sc) .sustain sc out prog := by
  rw [← int_one] at hsub hout
  exact ⟨_, envDecay_ok.mpr ⟨_, prog, e, r, y, out, _, _, maxNum_of_not_nan hd he.1, hprog, hsub, hr, hy, hout,
    le_of_not_nan (isPositive_maxWord hd he).1 (add_not_nan hprog), le_of_not_nan (add_not_nan hout) hs, rfl⟩,
    EnvUnit.endsAs_ite (by simp)⟩

theorem envEps_f32 : envEps f32 = 0x3A83126F := by decide +kernel

/-- A release action answers where its operations do (R152). -/
theorem exists_envRelease {prog r y out : NumWord} (he : isPositive c.epsDiv) (hd : isNaN x.rel = false)
    (hprog : F32.add u.prog x.dt = .ok prog) (hr : F32.div prog (maxWord x.rel c.epsDiv) = .ok r)
    (hy : F32.sub oneW r = .ok y) (hout : F32.mul u.rel0 y = .ok out) :
    ∃ u', envRelease f32 c x u = .ok u' ∧
      u.EndsAs u' (key (maxWord x.rel c.epsDiv) ≤ key prog ∨ key out ≤ key 0x3A83126F) .idle 0 out prog := by
  have heps : F32.le out (envEps f32) = .ok (decide (key out ≤ key 0x3A83126F)) := by
    rw [envEps_f32]; exact le_of_not_nan (mul_not_nan hout) (by decide)
  rw [← int_one] at hy
  refine ⟨_, envRelease_ok.mpr ⟨_, prog, r, y, out, _, _, maxNum_of_not_nan hd he.1, hprog, hr, hy, hout,
    le_of_not_nan (isPositive_maxWord hd he).1 (add_not_nan hprog), heps, rfl⟩, ?_⟩
  rw [← int_zero]
  exact EnvUnit.endsAs_ite (by simp)

end

/-! The statements -/

/-- Settles O41: the sums and the quotient of finite numbers answer, and the level decides how the action ends. -/
theorem envelopeAttack : Obligations.EnvelopeAttack := by
  intro s k gate hp hgate hg hs hatt hdt hout hprog hattacks
  obtain ⟨-, he, -⟩ := hp
  have hedge := envEdge_of_attacks (N := f32) (u := s.voice.envUnit k) hattacks
  rw [int_zero] at hedge
  have hstart : isFinite (if gate && !(s.voice.envGprev.get k) then 0 else s.voice.num (.envProg k)) = true := by
    split
    · decide
    · exact hprog
  obtain ⟨prog, out, u', hadd, hlevel, hattack, hends⟩ := exists_envAttack (c := s.config) (x := s.voice.envIn k)
    (u := envEdge f32 gate (s.voice.envUnit k)) he hatt hdt (hedge ▸ hout) (hedge ▸ hstart)
  rw [hedge] at hadd hlevel hattack hends
  have hlevel := (attackLevel_f32 (c := s.config) (x := s.voice.envIn k) (isNaN_of_isFinite hatt) he).mp hlevel
  obtain ⟨t, ht, hunit, hr0, hframe⟩ := exec_envStep
    [.num .r0, .envSt k, .num (.envOut k), .num (.envProg k), .envGprev k] hgate hg hs hedge
    ((envAction_of_attack rfl).trans hattack) (by simp) (by simp [envRegs, hends.2, Voice.envUnit])
  obtain ⟨hends, -⟩ := hunit ▸ hends.remember gate
  exact ⟨prog, out, t, hadd, hlevel, ht, hends, hr0, congrArg EnvUnit.gprev hunit, hframe⟩

/-- Settles O42: without an edge the unit decays, and the elapsed time and the level decide how the action ends. -/
theorem envelopeDecay : Obligations.EnvelopeDecay := by
  intro s k prog e r y out hp hg hs hdec hst hgate hprog he hr hy hout
  obtain ⟨-, heps, -⟩ := hp
  obtain ⟨u', hdecay, hends⟩ := exists_envDecay (c := s.config) (x := s.voice.envIn k) (u := s.voice.envUnit k)
    heps hdec (clampWord_not_nan hs (by decide) (by decide)) hprog he hr hy hout
  obtain ⟨t, ht, hunit, hr0, hframe⟩ := exec_envStep [.num .r0, .envSt k, .num (.envOut k), .num (.envProg k)] hgate hg hs
    (envEdge_of_eq rfl) ((envAction_of_decay hst).trans hdecay) (by simp)
    (by simp [envRegs, Voice.word, hends.2, Voice.envUnit])
  obtain ⟨hends, -⟩ := hunit ▸ hends.remember (s.voice.envGprev.get k)
  exact ⟨t, ht, hst ▸ hends, hr0, hframe⟩

/-- Settles O43: the falling edge gives the release its level and its start, and the elapsed time and the output decide
how the action ends. -/
theorem envelopeRelease : Obligations.EnvelopeRelease := by
  intro s k gate falling rel0 prog r y out hp hgate hg hs hrel hfalling hreleases hrel0 hprog hr hy hout
  subst hfalling hrel0
  obtain ⟨-, heps, -⟩ := hp
  have hedge := envEdge_of_releases (N := f32) (u := s.voice.envUnit k) hreleases
  rw [int_zero] at hedge
  obtain ⟨u', hrelease, hends⟩ := exists_envRelease (c := s.config) (x := s.voice.envIn k)
    (u := envEdge f32 gate (s.voice.envUnit k)) heps hrel (by rw [hedge]; exact hprog) hr hy
    (by rw [hedge]; exact hout)
  rw [hedge] at hrelease hends
  obtain ⟨t, ht, hunit, hr0, hframe⟩ := exec_envStep (.num .r0 :: envRegs k) hgate hg hs hedge
    ((envAction_of_release rfl).trans hrelease) (by simp) (fun q hq hn => absurd (List.mem_cons_of_mem _ hq) hn)
  obtain ⟨hends, hkept⟩ := hunit ▸ hends.remember gate
  exact ⟨t, ht, hkept, hends, hr0, congrArg EnvUnit.gprev hunit, hframe⟩

/-! `ENV.RST` -/

/-- `ENV.STEP k` that completes: the unit's step answered (R154). -/
theorem exec_envStep_next {s t : State} {k : Fin 3} (h : exec (.envStep (BitVec.ofNat 4 k)) s = .next t) :
    ∃ u, envStepUnit f32 s.config (s.voice.envIn k) (s.voice.envUnit k) = .ok u ∧ t.voice.envUnit k = u := by
  obtain ⟨w, hw, rfl⟩ := exec_next.mp h
  simp only [runCommand, envStepCmd, chainIdx_ofNat, calc_bind_ok, calc_pure_ok] at hw
  obtain ⟨w, hw, rfl⟩ := hw
  obtain ⟨u, hu, rfl⟩ := envStep_ok.mp hw
  exact ⟨u, hu, by simp [Voice.envUnit]⟩

/-- A step that answers with the gate high and low before starts an attack (R147, R148). -/
theorem st_of_rising {c : Config NumWord} {x : EnvIn NumWord} {u u' : EnvUnit NumWord}
    (hg : key oneW ≤ key x.gateV) (hp : u.gprev = false) (h : envStepUnit f32 c x u = .ok u') :
    u'.st = .attack ∨ u'.st = .decay := by
  obtain ⟨gate, sc, u1, hgate, -, haction, rfl⟩ := envStepUnit_ok.mp h
  have hgate := eq_of_f32_le hgate
  rw [int_one, decide_eq_true hg] at hgate
  rw [envEdge_of_attacks (.inl ⟨hgate, hp⟩), envAction_of_attack rfl] at haction
  have hst : u1.st = .attack ∨ u1.st = .decay := st_of_envAttack rfl haction
  exact hst

/-- Settles O44: the block `Performs.envRst` leaves; the fields of the word; the limit; and the rising edge after it. -/
theorem envelopeReset : Obligations.EnvelopeReset := by
  refine ⟨fun s k => ?_, by decide, fun s idx => exec_of_limit_le (i := .envRst idx) s⟩
  refine ⟨_, exec_of_performs (.envRst (chainIdx_ofNat k)), by simp [envUnitReset], by simp [envUnitReset, int_zero],
    by simp [envUnitReset, int_zero], by simp [envUnitReset], by simp [envUnitReset, int_zero],
    frame_withVoice (sameRegs_setEnvUnit _ _ (sameRegs_refl _ _) (List.Subset.refl _)) (Voice.wt_setEnvUnit _ _ _), ?_⟩
  intro u hg hu
  obtain ⟨u', hstep, hunit⟩ := exec_envStep_next hu
  rw [show u.voice.envSt.get k = u'.st from congrArg EnvUnit.st hunit]
  refine st_of_rising ?_ ?_ hstep
  · simpa [Voice.envIn] using hg
  · simp [Voice.envUnit, envUnitReset]

end Sys2Proof.Machine
end

section
/-! PROOFS. Signs and bounds of results under F32 by order keys, infinities included (00_scope.md R11, R13). -/

namespace Sys2Proof.F32

open Sys2Proof.Machine

variable {a b r w : NumWord}

theorem units_nonneg_iff : 0 ≤ units w ↔ 0 ≤ key w := units_le_iff (a := 0)

theorem units_nonpos_iff : units w ≤ 0 ↔ key w ≤ 0 := units_le_iff (b := 0)

/-! Sums -/

/-- A sum that answers is an infinite operand, or the rounded sum of finite ones. -/
theorem add_cases (h : add a b = .ok r) :
    r = a ∨ (isFinite a = true ∧ isInf b = true ∧ r = b) ∨
      (isFinite a = true ∧ ∃ z, r = ofUnits z (units a + units b)) := by
  unfold add at h
  split_ifs at h with hn ha hab hb
  all_goals
    cases h
    obtain ⟨hna, -⟩ : isNaN a = false ∧ isNaN b = false := by simpa using hn
  · exact .inl rfl
  · exact .inr (.inl ⟨isFinite_of hna (by simpa using ha), hb, rfl⟩)
  · exact .inr (.inr ⟨isFinite_of hna (by simpa using ha), _, rfl⟩)

theorem natAbs_key_lt_of_isInf (ha : isFinite a = true) (hb : isInf b = true) : (key a).natAbs < (key b).natAbs := by
  rw [natAbs_key, natAbs_key, show mag b = infMag from of_decide_eq_true hb]
  exact of_decide_eq_true ha

/-- A sum with a number that is not negative is not below the other operand. -/
theorem le_key_add (hb : 0 ≤ key b) (h : add a b = .ok r) : key a ≤ key r := by
  obtain rfl | ⟨ha, hinf, rfl⟩ | ⟨ha, z, rfl⟩ := add_cases h
  · exact le_rfl
  · have := natAbs_key_lt_of_isInf ha hinf
    omega
  · exact le_key_ofUnits ha (le_add_of_nonneg_right (units_nonneg_iff.mpr hb))

/-- A sum with a number that is not positive is not above the other operand. -/
theorem key_add_le (hb : key b ≤ 0) (h : add a b = .ok r) : key r ≤ key a := by
  obtain rfl | ⟨ha, hinf, rfl⟩ | ⟨ha, z, rfl⟩ := add_cases h
  · exact le_rfl
  · have := natAbs_key_lt_of_isInf ha hinf
    omega
  · exact key_ofUnits_le ha (add_le_of_nonpos_right (units_nonpos_iff.mpr hb))

/-! Products and quotients -/

theorem key_nonneg_iff : 0 ≤ key w ↔ sign w = false ∨ mag w = 0 := by
  unfold key
  cases sign w <;> simp

theorem key_nonpos_iff : key w ≤ 0 ↔ sign w = true ∨ mag w = 0 := by
  unfold key
  cases sign w <;> simp

theorem sign_mul (h : mul a b = .ok r) : sign r = (sign a != sign b) := by
  unfold mul at h
  split_ifs at h
  · cases h; exact sign_pack _ infMag_lt
  · cases h; exact sign_round _ _ _

theorem sign_div (hb : isZero b = false) (h : div a b = .ok r) : sign r = (sign a != sign b) := by
  simp only [div, hb, Bool.false_eq_true, if_false] at h
  split_ifs at h
  · cases h; exact sign_pack _ infMag_lt
  · cases h; exact sign_pack _ (by decide)
  · cases h; exact sign_round _ _ _

/-- A product of numbers of which one is not positive and one not negative is not positive. -/
theorem key_mul_nonpos (hab : key a * key b ≤ 0) (h : mul a b = .ok r) : key r ≤ 0 := by
  rw [key_nonpos_iff, sign_mul h]
  by_cases hs : sign a = sign b
  · right
    have hprod : (mag a * mag b : Int) ≤ 0 := by
      unfold key at hab
      rw [hs] at hab
      split at hab <;> linarith
    exact mag_mul_zero (Nat.mul_eq_zero.mp (Nat.le_zero.mp (by exact_mod_cast hprod))) h
  · exact .inl (by simpa using hs)

/-- A quotient of a number that is not negative by one above 0 is not negative. -/
theorem key_div_nonneg (ha : 0 ≤ key a) (hb : 0 < key b) (h : div a b = .ok r) : 0 ≤ key r := by
  have hsb : sign b = false := (key_nonneg_iff.mp hb.le).resolve_right (by have := natAbs_key b; omega)
  have hzb := isZero_of_key_pos hb
  rw [key_nonneg_iff, sign_div hzb h, hsb]
  refine (key_nonneg_iff.mp ha).imp (by simp [·]) fun hza => ?_
  by_cases hfin : isFinite b = true
  · exact mag_div_zero hza hfin hzb h
  · have hinf : isInf a = false := isInf_of_isFinite (isFinite_of_zero hza)
    simp only [div, hinf, hzb, Bool.false_eq_true, if_false] at h
    split_ifs at h with hn hb'
    · cases h; exact mag_pack _ (by decide)
    · obtain ⟨-, hnb⟩ : isNaN a = false ∧ isNaN b = false := by simpa using hn
      exact absurd (isFinite_of hnb (by simpa using hb')) hfin

/-- A product with a number of at most 1 stays at most 1, where the other is in [0, 1]. -/
theorem key_mul_le_one (ha0 : 0 ≤ key a) (ha1 : key a ≤ key oneW) (hb : key b ≤ key oneW) (h : mul a b = .ok r) :
    key r ≤ key oneW := by
  have hone : 0 ≤ key oneW := by decide
  rcases le_or_gt (key b) 0 with hb0 | hb0
  · exact (key_mul_nonpos (mul_nonpos_of_nonneg_of_nonpos ha0 hb0) h).trans hone
  · have hua1 : units a ≤ units oneW := units_le_iff.mpr ha1
    have hub0 : 0 ≤ units b := units_nonneg_iff.mpr hb0.le
    have hub1 : units b ≤ units oneW := units_le_iff.mpr hb
    have hafin : isFinite a = true := isFinite_of_units_le (by decide) (units_nonneg_iff.mpr ha0) hua1
    have hbfin : isFinite b = true := isFinite_of_units_le (by decide) hub0 hub1
    rw [mul_finite hafin hbfin] at h
    cases h
    refine key_round_le (by decide) (by decide) ?_
    rw [units_oneW] at hua1 hub1 ⊢
    rw [signed_mul]
    exact mul_le_mul hua1 (by exact_mod_cast hub1) hub0 (by positivity)

end Sys2Proof.F32
end

section
/-! PROOFS. 44_envelope.md R156: with `DT ≥ 0` no command takes an envelope out of [0, 1]. -/

namespace Sys2Proof.Machine

open F32

/-! One unit -/

/-- A number in [0, 1]. -/
def InUnit (w : NumWord) : Prop := 0 ≤ key w ∧ key w ≤ key oneW

theorem InUnit.zero : InUnit (int f32 0) := by rw [int_zero]; unfold InUnit; decide

theorem InUnit.one : InUnit (int f32 1) := by rw [int_one]; unfold InUnit; decide

theorem InUnit.isFinite {w : NumWord} (h : InUnit w) : isFinite w = true :=
  isFinite_of_units_le (w := oneW) (by decide) (units_nonneg_iff.mpr h.1) (units_le_iff.mpr h.2)

/-- The larger of two numbers is above 0 where the second is (R156). -/
theorem key_maxNum_pos {a b m : NumWord} (hb : isPositive b) (h : maxNum f32 a b = .ok m) : 0 < key m := by
  obtain ⟨-, hpos⟩ := hb
  obtain ⟨less, hless, rfl⟩ := maxNum_ok.mp h
  rw [eq_of_f32_lt hless]
  by_cases hlt : key a < key b
  · simpa [hlt] using hpos
  · simpa [hlt] using hpos.trans_le (not_lt.mp hlt)

/-- The clamped sustain level is in [0, 1] (R156). -/
theorem InUnit.clamp {x y : NumWord} (h : clamp f32 x (int f32 0) (int f32 1) = .ok y) : InUnit y := by
  obtain ⟨below, above, hbelow, -⟩ := clamp_ok.mp h
  rw [clamp_unit (not_nan_of_lt hbelow).1] at h
  cases h
  exact clampWord_between (by decide)

/-- The output and the release level of a unit are in [0, 1], its progress is not negative (10_state.md R30). -/
structure EnvUnit.InRange (u : EnvUnit NumWord) : Prop where
  out : InUnit u.out
  rel0 : InUnit u.rel0
  prog : 0 ≤ key u.prog

section
variable {c : Config NumWord} {x : EnvIn NumWord} {sc : NumWord} {u u' : EnvUnit NumWord}

theorem EnvUnit.InRange.edge (h : u.InRange) (gate : Bool) : (envEdge f32 gate u).InRange := by
  unfold envEdge
  split_ifs
  · exact ⟨h.out, h.rel0, InUnit.zero.1⟩
  · exact ⟨h.out, h.out, InUnit.zero.1⟩
  · exact h

/-- The level of an attack action is not negative: a step of `dt / max(A, EPS_DIV)` is not. -/
theorem AttackLevel.nonneg {level out : NumWord} {instant : Bool} (hl : 0 ≤ key level) (he : isPositive c.epsDiv)
    (hd : 0 ≤ key x.dt) (h : AttackLevel f32 c x level instant out) : 0 ≤ key out := by
  cases instant with
  | true => exact h ▸ InUnit.one.1
  | false =>
    obtain ⟨ae, d, hae, hdiv, hout⟩ := h
    exact hl.trans (le_key_add (key_div_nonneg hd (key_maxNum_pos he hae) hdiv) hout)

theorem EnvUnit.InRange.attack (h : u.InRange) (he : isPositive c.epsDiv) (hd : 0 ≤ key x.dt)
    (hu : envAttack f32 c x u = .ok u') : u'.InRange := by
  obtain ⟨prog, instant, out, full, hprog, -, hlevel, hfull, rfl⟩ := envAttack_ok.mp hu
  split
  · exact ⟨InUnit.one, h.rel0, InUnit.zero.1⟩
  next hfalse =>
    have hbelow : key out < key oneW := by simpa [eq_of_f32_le hfull, int_one] using hfalse
    exact ⟨⟨hlevel.nonneg h.out.1 he hd, hbelow.le⟩, h.rel0, h.prog.trans (le_key_add hd hprog)⟩

/-- The decay is at most 1, since `(Sc - 1) * (prog / De)` is not positive, and above `Sc` where it goes on. -/
theorem EnvUnit.InRange.decay (h : u.InRange) (he : isPositive c.epsDiv) (hd : 0 ≤ key x.dt) (hsc : InUnit sc)
    (hu : envDecay f32 c x sc u = .ok u') : u'.InRange := by
  obtain ⟨de, prog, d, t, y, out, elapsed, reached, hde, hprog, hsub, ht, hy, hout, -, hreached, rfl⟩ := envDecay_ok.mp hu
  have hprog0 : 0 ≤ key prog := h.prog.trans (le_key_add hd hprog)
  split
  · exact ⟨hsc, h.rel0, InUnit.zero.1⟩
  next hfalse =>
    obtain ⟨-, hnot⟩ : elapsed = false ∧ reached = false := by simpa using hfalse
    have habove : key sc < key out := by simpa [eq_of_f32_le hreached] using hnot
    have hd0 : key d ≤ 0 := by
      have hnonpos : units sc + units (neg (int f32 1)) ≤ 0 := by
        rw [units_neg, int_one]
        exact sub_nonpos.mpr (units_le_iff.mpr hsc.2)
      exact units_nonpos_iff.mp (units_add_le hsc.isFinite (by rw [int_one]; decide) (w := 0) (by decide) hsub hnonpos)
    have ht0 : 0 ≤ key t := key_div_nonneg hprog0 (key_maxNum_pos he hde) ht
    have hle : key out ≤ key (int f32 1) := key_add_le (key_mul_nonpos (mul_nonpos_of_nonpos_of_nonneg hd0 ht0) hy) hout
    rw [int_one] at hle
    exact ⟨⟨hsc.1.trans habove.le, hle⟩, h.rel0, hprog0⟩

/-- The release is at most its level, since `1 - prog / Re` is at most 1, and above 0.001 where it goes on. -/
theorem EnvUnit.InRange.release (h : u.InRange) (he : isPositive c.epsDiv) (hd : 0 ≤ key x.dt)
    (hu : envRelease f32 c x u = .ok u') : u'.InRange := by
  obtain ⟨re, prog, t, y, out, elapsed, reached, hre, hprog, ht, hy, hout, -, hreached, rfl⟩ := envRelease_ok.mp hu
  have hprog0 : 0 ≤ key prog := h.prog.trans (le_key_add hd hprog)
  split
  · exact ⟨InUnit.zero, h.rel0, InUnit.zero.1⟩
  next hfalse =>
    obtain ⟨-, hnot⟩ : elapsed = false ∧ reached = false := by simpa using hfalse
    have habove : key 0x3A83126F < key out := by simpa [eq_of_f32_le hreached, envEps_f32] using hnot
    have heps : 0 ≤ key 0x3A83126F := by decide
    have ht0 : 0 ≤ key t := key_div_nonneg hprog0 (key_maxNum_pos he hre) ht
    have hy1 : key y ≤ key (int f32 1) := key_add_le (by rw [key_neg]; omega) hy
    rw [int_one] at hy1
    exact ⟨⟨heps.trans habove.le, key_mul_le_one h.rel0.1 h.rel0.2 hy1 hout⟩, h.rel0, hprog0⟩

theorem EnvUnit.InRange.action (h : u.InRange) (he : isPositive c.epsDiv) (hd : 0 ≤ key x.dt) (hsc : InUnit sc)
    (hu : envAction f32 c x sc u = .ok u') : u'.InRange := by
  unfold envAction at hu
  split at hu
  · cases hu; exact ⟨InUnit.zero, h.rel0, h.prog⟩
  · exact h.attack he hd hu
  · exact h.decay he hd hsc hu
  · cases hu; exact ⟨hsc, h.rel0, h.prog⟩
  · exact h.release he hd hu

theorem EnvUnit.InRange.step (h : u.InRange) (he : isPositive c.epsDiv) (hd : 0 ≤ key x.dt)
    (hu : envStepUnit f32 c x u = .ok u') : u'.InRange := by
  obtain ⟨gate, sc, u1, -, hsc, haction, rfl⟩ := envStepUnit_ok.mp hu
  obtain ⟨hout, hrel0, hprog⟩ := (h.edge gate).action he hd (InUnit.clamp hsc) haction
  exact ⟨hout, hrel0, hprog⟩

theorem EnvUnit.InRange.reset : (envUnitReset f32).InRange := ⟨InUnit.zero, InUnit.zero, InUnit.zero.1⟩

end

/-! The block -/

section
variable {c : Config NumWord} {v w : Voice NumWord}

/-- Every envelope unit is in range, and `DT` is not negative. -/
def EnvelopesSound (v : Voice NumWord) : Prop := (∀ k, (v.envUnit k).InRange) ∧ 0 ≤ key (v.num .dt)

/-- The registers this depends on. -/
def Reg.isEnvelopeNum : Reg → Bool
  | .num .dt | .num (.envOut _) | .num (.envProg _) | .num (.envRel0 _) => true
  | _ => false

theorem envelopesInRange_iff : EnvelopesInRange v ↔ ∀ k, (v.envUnit k).InRange := by
  have hone : F32.lit 1 1 = oneW := int_one
  refine forall_congr' fun k => ?_
  rw [hone]
  exact ⟨fun ⟨ho, hr, hp⟩ => ⟨ho, hr, hp⟩, fun ⟨ho, hr, hp⟩ => ⟨ho, hr, hp⟩⟩

/-- What writes none of these registers keeps the envelopes sound. -/
theorem EnvelopesSound.frame {l : List Reg} (h : EnvelopesSound v) (hw : SameRegsBut l v w)
    (hl : ∀ r ∈ l, r.isEnvelopeNum = false) : EnvelopesSound w := by
  have hsame (r : NumReg) (hr : (Reg.num r).isEnvelopeNum = true) : w.num r = v.num r :=
    hw (.num r) fun hm => by simp [hl _ hm] at hr
  obtain ⟨hk, hd⟩ := h
  refine ⟨fun k => ?_, (hsame .dt rfl) ▸ hd⟩
  obtain ⟨ho, hr, hp⟩ := hk k
  exact ⟨(congrArg InUnit (hsame (.envOut k) rfl)).mpr ho, (congrArg InUnit (hsame (.envRel0 k) rfl)).mpr hr,
    (congrArg (0 ≤ key ·) (hsame (.envProg k) rfl)).mpr hp⟩

theorem EnvelopesSound.setNum (h : EnvelopesSound v) {r : NumReg} (x : NumWord)
    (hr : (Reg.num r).isEnvelopeNum = false) : EnvelopesSound (v.setNum r x) :=
  h.frame (sameRegs_setNum r x (sameRegs_refl [.num r] v) List.mem_cons_self) (by simpa using hr)

theorem EnvelopesSound.setEnvUnit (h : EnvelopesSound v) (k : Fin 3) {u : EnvUnit NumWord} (hu : u.InRange) :
    EnvelopesSound (v.setEnvUnit k u) := by
  obtain ⟨hk, hd⟩ := h
  refine ⟨fun j => ?_, by simpa using hd⟩
  by_cases hj : j = k
  · subst hj
    simpa [Voice.envUnit] using hu
  · simpa [Voice.envUnit, hj] using hk j

theorem Voice.envIn_dt (v : Voice NumWord) (k : Fin 3) : (v.envIn k).dt = v.num .dt := rfl

theorem EnvelopesSound.envStep (h : EnvelopesSound v) (he : isPositive c.epsDiv) {k : Fin 3}
    (hw : envStep f32 c k v = .ok w) : EnvelopesSound w := by
  obtain ⟨u, hu, rfl⟩ := envStep_ok.mp hw
  have ⟨hk, hd⟩ := h
  exact h.setEnvUnit k ((hk k).step he (by rwa [Voice.envIn_dt]) hu)

theorem EnvelopesSound.filterStage (h : EnvelopesSound v) {k : Fin 3} {m : CutMode} {x : NumWord}
    (hw : filterStage f32 c k m x v = .ok w) : EnvelopesSound w :=
  h.frame (filterStage_frame hw).1 (by simp [Reg.isEnvelopeNum])

theorem EnvelopesSound.bankTick (h : EnvelopesSound v) (he : isPositive c.epsDiv) {m : CutMode}
    (hw : bankTick f32 c m v = .ok w) : EnvelopesSound w := by
  obtain ⟨f, v1, v2, v3, e, af, o, -, h1, h2, h3, -, -, -, rfl⟩ := bankTick_ok.mp hw
  have hbank := (h.setNum (r := .freq 0) f rfl).frame (hbTick_frame h1).1 (by decide)
  exact (((hbank.envStep he h2).filterStage h3).setNum o rfl).setNum o rfl

theorem EnvelopesSound.chainTick (h : EnvelopesSound v) (he : isPositive c.epsDiv) {af : NumWord} {k : Fin 3}
    {m : CutMode} (hw : chainTick f32 c af k m v = .ok w) : EnvelopesSound w := by
  obtain ⟨f, p, wd, x, v2, v3, g, e, o, -, -, -, -, h2, h3, -, -, -, rfl⟩ := chainTick_ok.mp hw
  have hstart := ((h.setNum (r := .freq k) f rfl).setNum (r := .ph (chainPhase k)) p rfl).setNum
    (r := .width k) wd rfl
  exact ((hstart.envStep he h2).filterStage h3).setNum o rfl

theorem EnvelopesSound.trioTick (h : EnvelopesSound v) (he : isPositive c.epsDiv) {m0 m1 m2 : CutMode}
    (hw : trioTick f32 c m0 m1 m2 v = .ok w) : EnvelopesSound w := by
  obtain ⟨af, v0, v1, v2, x, -, h0, h1, h2, -, rfl⟩ := trioTick_ok.mp hw
  exact (((h.chainTick he h0).chainTick he h1).chainTick he h2).setNum x rfl

/-- A command that performs its rule keeps the envelopes sound: only the envelope commands and the composites write
an envelope (files 40 to 47). -/
theorem EnvelopesSound.performs (h : EnvelopesSound v) (he : isPositive c.epsDiv) {i : Instr}
    (hw : Performs f32 c v i w) : EnvelopesSound w := by
  cases i with
  | envStep =>
    cases hw with
    | envStep _ hw => exact (h.envStep he hw).setNum _ rfl
  | envRst =>
    cases hw
    exact h.setEnvUnit _ EnvUnit.InRange.reset
  | vgBank =>
    cases hw with
    | vgBank _ _ hw => exact h.bankTick he hw
  | vgTrio =>
    cases hw with
    | vgTrio _ _ _ _ hw => exact h.trioTick he hw
  | nop | wtBuild | wtLookup | wgSint | wgSind | wgTri | wgSaw | wgSqr | hbTick =>
    exact h.frame hw.frame.1 (by simp only [cmdWrites]; decide)
  | phAdv | phRst | frqCv | pwMod | fltProc | cutMod =>
    exact h.frame hw.frame.1 (forall_mem_atUnit (by decide))

end

/-- Settles O25: a fault writes `STATUS` only, and every rule keeps the envelopes in range. -/
theorem envelopesStayInRange : Obligations.EnvelopesStayInRange := by
  intro i s t hinv hrange hd h
  obtain ⟨⟨-, he, -⟩, -⟩ := hinv
  have hsound : EnvelopesSound s.voice := ⟨envelopesInRange_iff.mp hrange, hd⟩
  obtain ⟨w, hw, rfl⟩ := exec_next.mp h
  suffices hw : EnvelopesSound w from envelopesInRange_iff.mpr hw.1
  obtain ⟨f, -, rfl⟩ | hp := runCommand_ok hw
  · exact hsound.frame (sameRegs_raise _ f) (by decide)
  · exact hsound.performs he hp

end Sys2Proof.Machine
end

section
/-! PROOFS. 44_envelope.md R153, R158 under REAL: an attack rises by `dt / A` a step and reaches 1. -/

namespace Sys2Proof.Machine

/-- The next step with the gate high does an attack action: the gate was low before, or the state is Attack. -/
def EnvUnit.Rises (u : EnvUnit ℝ) : Prop := u.gprev = false ∨ u.st = .attack

section
variable {c : Config ℝ} {x : EnvIn ℝ} {u u' : EnvUnit ℝ}

/-- With `A ≥ EPS_DIV` an attack action adds `dt / A`, and ends the attack with output 1 where that is 1 or more (R148). -/
theorem envAttack_reals (hc : RealConfig c) (ha : c.epsDiv ≤ x.att) (h : envAttack reals c x u = .ok u') :
    (u.out + x.dt / x.att < 1 → u'.st = u.st ∧ u'.out = u.out + x.dt / x.att) ∧
      (1 ≤ u.out + x.dt / x.att → u'.out = 1) := by
  have hpos : 0 < x.att := hc.epsDiv_pos.trans_le ha
  have hone : int reals 1 = 1 := by simp [int, reals]
  have hzero : int reals 0 = 0 := by simp [int, reals]
  obtain ⟨prog, instant, out, full, -, hinstant, hlevel, hfull, rfl⟩ := envAttack_ok.mp h
  rw [hzero] at hinstant
  obtain rfl : decide (x.att ≤ 0) = instant := Except.ok.inj hinstant
  rw [decide_eq_false hpos.not_ge] at hlevel
  obtain ⟨ae, d, hae, hd, hout⟩ := hlevel
  obtain ⟨less, hless, rfl⟩ := maxNum_ok.mp hae
  obtain rfl : decide (x.att < c.epsDiv) = less := Except.ok.inj hless
  rw [decide_eq_false ha.not_gt] at hd
  obtain rfl : x.dt / x.att = d := by simpa [reals, hpos.ne'] using hd
  obtain rfl : u.out + x.dt / x.att = out := Except.ok.inj hout
  rw [hone] at hfull ⊢
  obtain rfl : decide (1 ≤ u.out + x.dt / x.att) = full := Except.ok.inj hfull
  constructor
  · intro hlt
    simp [hlt.not_ge]
  · intro hge
    simp [hge]

/-- So does a step of a rising unit with the gate high; below 1 the unit is in Attack (R147, R153). -/
theorem envStepUnit_rises (hc : RealConfig c) (hg : 1 ≤ x.gateV) (ha : c.epsDiv ≤ x.att) (hu : u.Rises)
    (h : envStepUnit reals c x u = .ok u') :
    (u.out + x.dt / x.att < 1 → u'.st = .attack ∧ u'.out = u.out + x.dt / x.att) ∧
      (1 ≤ u.out + x.dt / x.att → u'.out = 1) := by
  obtain ⟨gate, sc, u1, hgate, -, haction, rfl⟩ := envStepUnit_ok.mp h
  have hone : int reals 1 = 1 := by simp [int, reals]
  rw [hone] at hgate
  obtain rfl : decide (1 ≤ x.gateV) = gate := Except.ok.inj hgate
  have hattacks : u.Attacks (decide (1 ≤ x.gateV)) :=
    hu.imp (fun hp => ⟨decide_eq_true hg, hp⟩) fun hst => ⟨hst, .inl (decide_eq_true hg)⟩
  rw [envEdge_of_attacks hattacks, envAction_of_attack rfl] at haction
  exact envAttack_reals hc ha haction

end

/-- Settles O57: by induction the unit has risen by `dt / A` in each step, and the step `⌈A / dt⌉` brings it to 1. -/
theorem realAttackReachesOne : Obligations.RealAttackReachesOne := by
  intro c x u hc hg hdt ha hidle hout hp hstep
  have hpos : 0 < x.att := hc.epsDiv_pos.trans_le ha
  have hsucc (n : Nat) : (n + 1 : Nat) * x.dt / x.att = n * x.dt / x.att + x.dt / x.att := by push_cast; ring
  have hrise (n : Nat) (hn : n * x.dt / x.att < 1) :
      (u n).Rises ∧ (1 ≤ n → (u n).st = .attack) ∧ (u n).out = n * x.dt / x.att := by
    induction n with
    | zero => exact ⟨.inl hp, by omega, by simp [hout]⟩
    | succ n ih =>
      rw [hsucc] at hn ⊢
      obtain ⟨hrises, -, hlevel⟩ := ih (by have := div_pos hdt hpos; linarith)
      obtain ⟨hst, hnext⟩ := (envStepUnit_rises hc hg ha hrises (hstep n)).1 (hlevel ▸ hn)
      exact ⟨.inr hst, fun _ => hst, hlevel ▸ hnext⟩
  refine ⟨fun n hn hlt => (hrise n hlt).2.imp_left fun h => h hn, ?_⟩
  obtain ⟨m, hm⟩ : ∃ m, ⌈x.att / x.dt⌉₊ = m + 1 :=
    Nat.exists_eq_succ_of_ne_zero (Nat.ceil_pos.mpr (div_pos hpos hdt)).ne'
  have hbelow : m * x.dt / x.att < 1 := by
    have h : (m : ℝ) < x.att / x.dt := Nat.lt_ceil.mp (by omega)
    rwa [div_lt_one hpos, ← lt_div_iff₀ hdt]
  have hreached : 1 ≤ m * x.dt / x.att + x.dt / x.att := by
    have h : x.att / x.dt ≤ (m + 1 : Nat) := Nat.ceil_le.mp hm.le
    rwa [← hsucc, one_le_div hpos, ← div_le_iff₀ hdt]
  obtain ⟨hrises, -, hlevel⟩ := hrise m hbelow
  exact ⟨m + 1, by omega, hm.ge, (envStepUnit_rises hc hg ha hrises (hstep m)).2 (hlevel ▸ hreached)⟩

end Sys2Proof.Machine
end

section
/-! PROOFS. 45_filter.md R165 to R167: `flt_step` taken apart, over any number type. -/

namespace Sys2Proof.Machine

variable {ν : Type} {N : Numerics ν} {c : Config ν} {dtf cc alpha sr y x cutoff z : ν} {swept : Bool}

/-- The swept form of alpha (R165), once its operations answer. -/
theorem fltAlpha_swept_ok :
    fltAlpha N c true dtf cc = .ok alpha ↔
      ∃ a b e, N.mul dtf c.fltK = .ok a ∧ N.mul a cc = .ok b ∧ N.mul b cc = .ok e ∧
        clamp N e (int N 0) (int N 1) = .ok alpha := by
  simp only [fltAlpha, if_true, calc_bind_ok, exists_and_left]

/-- The rational form of alpha (R165), once its operations answer. -/
theorem fltAlpha_rational_ok :
    fltAlpha N c false dtf cc = .ok alpha ↔
      ∃ a b e g, N.mul (int N 2) c.pi = .ok a ∧ N.mul a cc = .ok b ∧ N.div (int N 1) b = .ok e ∧
        N.add dtf e = .ok g ∧ N.div dtf g = .ok alpha := by
  simp only [fltAlpha, Bool.false_eq_true, if_false, calc_bind_ok, exists_and_left]

/-- The coefficient that a filter step computes from the sample rate and the cutoff (R165, R166): it depends neither on
the output nor on the input. -/
def fltCoefficient (N : Numerics ν) (c : Config ν) (sr cutoff : ν) (swept : Bool) : Calc ν := do
  let cc ← clamp N cutoff (int N 20) (int N 20000)
  let se ← maxNum N sr c.epsDiv
  let dtf ← N.div (int N 1) se
  fltAlpha N c swept dtf cc

theorem fltCoefficient_ok :
    fltCoefficient N c sr cutoff swept = .ok alpha ↔
      ∃ cc se dtf, clamp N cutoff (int N 20) (int N 20000) = .ok cc ∧ maxNum N sr c.epsDiv = .ok se ∧
        N.div (int N 1) se = .ok dtf ∧ fltAlpha N c swept dtf cc = .ok alpha := by
  simp only [fltCoefficient, calc_bind_ok, exists_and_left]

/-- A filter step moves the output toward the input by the coefficient (R167). -/
theorem fltStep_ok :
    fltStep N c sr y x cutoff swept = .ok z ↔
      ∃ alpha d m, fltCoefficient N c sr cutoff swept = .ok alpha ∧ N.sub x y = .ok d ∧ N.mul alpha d = .ok m ∧
        N.add y m = .ok z := by
  have hstep : fltStep N c sr y x cutoff swept = fltCoefficient N c sr cutoff swept >>= fun alpha =>
      N.sub x y >>= fun d => N.mul alpha d >>= fun m => N.add y m := by
    simp only [fltStep, fltCoefficient, bind_assoc]
  simp only [hstep, calc_bind_ok, exists_and_left]

end Sys2Proof.Machine
end

section
/-! PROOFS. 45_filter.md R165 to R170: `FLT.PROC k` and `CUT.MOD k` under F32. -/

namespace Sys2Proof.Machine

open F32

/-! `FLT.PROC` -/

/-- The clamp of a cutoff to [20, 20000] answers at every number (R166). -/
theorem clamp_cutoff {x : NumWord} (hx : isNaN x = false) :
    clamp f32 x (int f32 20) (int f32 20000) = .ok (clampWord x 0x41A00000 0x469C4000) := by
  have hmin : int f32 20 = 0x41A00000 := by decide +kernel
  have hmax : int f32 20000 = 0x469C4000 := by decide +kernel
  rw [hmin, hmax]
  exact clamp_of_not_nan hx (by decide) (by decide)

/-- The swept form: the clamp of the last product answers (R165). -/
theorem fltAlpha_swept_f32 {c : Config NumWord} {dtf cc a b e : NumWord} (ha : F32.mul dtf c.fltK = .ok a)
    (hb : F32.mul a cc = .ok b) (he : F32.mul b cc = .ok e) :
    fltAlpha f32 c true dtf cc = .ok (clampWord e 0 oneW) :=
  fltAlpha_swept_ok.mpr ⟨a, b, e, ha, hb, he, clamp_unit (mul_not_nan he)⟩

/-- The rational form (R165). -/
theorem fltAlpha_rational_f32 {c : Config NumWord} {dtf cc a b e g alpha : NumWord}
    (ha : F32.mul 0x40000000 c.pi = .ok a) (hb : F32.mul a cc = .ok b) (he : F32.div oneW b = .ok e)
    (hg : F32.add dtf e = .ok g) (halpha : F32.div dtf g = .ok alpha) :
    fltAlpha f32 c false dtf cc = .ok alpha := by
  have two : int f32 2 = 0x40000000 := by decide +kernel
  rw [← two] at ha
  rw [← int_one] at he
  exact fltAlpha_rational_ok.mpr ⟨a, b, e, g, ha, hb, he, hg, halpha⟩

/-- The coefficient from a sample rate and a cutoff that are no NaN: the guard and the clamp answer (R165, R166). -/
theorem fltCoefficient_f32 {c : Config NumWord} {sr cutoff dtf alpha : NumWord} {swept : Bool}
    (he : isPositive c.epsDiv) (hsr : isNaN sr = false) (hcutoff : isNaN cutoff = false)
    (hdtf : F32.div oneW (maxWord sr c.epsDiv) = .ok dtf)
    (halpha : fltAlpha f32 c swept dtf (clampWord cutoff 0x41A00000 0x469C4000) = .ok alpha) :
    fltCoefficient f32 c sr cutoff swept = .ok alpha := by
  rw [← int_one] at hdtf
  exact fltCoefficient_ok.mpr ⟨_, _, dtf, clamp_cutoff hcutoff, maxNum_of_not_nan hsr he.1, hdtf, halpha⟩

/-- Settles O45: `SW` selects the form of alpha, and the step from it is the block `Performs.fltProc` leaves. -/
theorem filterStep : Obligations.FilterStep := by
  intro s k cc dtf alpha d m y hp hsr ha1 hcc hdtf halpha hd hm hy
  subst hcc
  obtain ⟨-, heps, -⟩ := hp
  have hform : fltAlpha f32 s.config (sw (s.voice.cfgc.get k)) dtf (clampWord (s.voice.num .a1) 0x41A00000 0x469C4000) =
      .ok alpha := by
    rw [sw]
    split at halpha
    next hsw =>
      obtain ⟨a, b, e, ha, hb, he, rfl⟩ := halpha
      rw [hsw]
      exact fltAlpha_swept_f32 ha hb he
    next hsw =>
      obtain ⟨a, b, e, g, ha, hb, he, hg, halpha⟩ := halpha
      rw [Bool.eq_false_iff.mpr hsw]
      exact fltAlpha_rational_f32 ha hb he hg halpha
  have hcoeff := fltCoefficient_f32 (c := s.config) heps hsr ha1 hdtf hform
  have hstep := fltStep_ok.mpr ⟨alpha, d, m, hcoeff, hd, hm, hy⟩
  exact ⟨_, exec_of_performs (.fltProc (chainIdx_ofNat k) hstep), by simp, by simp,
    frame_withVoice (sameRegs_setNum _ _ (sameRegs_setNum _ _ (sameRegs_refl _ _) (by simp)) (by simp)) (by simp)⟩

/-! `CUT.MOD` -/

section
variable {w : Word}

/-! What `CMOD` names (10_state.md R29) -/

theorem cmod_eq_fixed (h : w.extractLsb' 4 2 = 0) : cmod w = some .fixed := by simp [cmod, h]

theorem cmod_eq_summed (h : w.extractLsb' 4 2 = 1) : cmod w = some .summed := by simp [cmod, h]

theorem cmod_eq_exponential (h : w.extractLsb' 4 2 = 2) : cmod w = some .exponential := by simp [cmod, h]

theorem cmod_eq_none (h : w.extractLsb' 4 2 = 3) : cmod w = none := by simp [cmod, h]

end

/-- `CUT.MOD k` stores what the mode gives, where it gives a value (R170). -/
theorem exec_cutMod {s : State} {k : Fin 3} {m : CutMode} {x : NumWord} (hm : cmod (s.voice.cfgc.get k) = some m)
    (hx : cutoffBy f32 s.config m (s.voice.num (.cut k)) (s.voice.num (.cutCv k)) = .ok x) :
    ∃ t, exec (.cutMod (BitVec.ofNat 4 k)) s = .next t ∧ t.voice.num (.cutoff k) = x ∧ Frame [.num (.cutoff k)] s t :=
  exec_of_performs_setNum (.cutMod (chainIdx_ofNat k) hm hx)

/-- The exponential mode, once its products answer: `EXP2` answers at every number (R169). -/
theorem cutoffBy_exponential_f32 {p : OpenParams} {cut cv u w x : NumWord} (hu : F32.mul cv 0x3DCCCCCD = .ok u)
    (hw : F32.mul u 0x41200000 = .ok w) (hx : F32.mul cut ((configOf p).exp2 w) = .ok x) :
    cutoffBy f32 (configOf p) .exponential cut cv = .ok x := by
  have tenth : cvScale f32 = 0x3DCCCCCD := by decide +kernel
  have ten : int f32 10 = 0x41200000 := by decide +kernel
  rw [cutoffBy, tenth, ten]
  exact calc_bind_ok.mpr ⟨u, hu, calc_bind_ok.mpr ⟨w, hw, calc_bind_ok.mpr ⟨_, app_exp2 (mul_not_nan hw), hx⟩⟩⟩

/-- Settles O46, mode by mode: the product of finite numbers is a number, so its sum with a finite one is. -/
theorem cutoffModulation : Obligations.CutoffModulation := by
  intro s k
  refine ⟨fun h => exec_cutMod (cmod_eq_fixed h) rfl, fun h => ⟨fun hgain hcut hcv => ?_, fun d x hd hx => ?_⟩,
    fun u w x h hu hw hx => exec_cutMod (cmod_eq_exponential h) (cutoffBy_exponential_f32 hu hw hx),
    fun h => exec_of_raises (.cutMod (chainIdx_ofNat k) (cmod_eq_none h))⟩
  · have hd := mul_finite hgain hcv
    exact ⟨_, (exists_add (isNaN_of_isFinite hcut) (mul_not_nan hd) (.inl hcut)).imp fun _ hx => ⟨hd, hx⟩⟩
  · exact exec_cutMod (cmod_eq_summed h) (calc_bind_ok.mpr ⟨d, hd, hx⟩)

end Sys2Proof.Machine
end

section
/-! PROOFS. 45_filter.md R167, R171 under REAL: the coefficient is in [0, 1], and the error shrinks by its complement. -/

namespace Sys2Proof.Machine

/-! The constants, the guards and the quotient under REAL -/

theorem int_reals (n : Nat) : int reals n = n := by simp [int, reals]

theorem clamp_reals_between {x lo hi z : ℝ} (h : lo ≤ hi) (hz : clamp reals x lo hi = .ok z) : lo ≤ z ∧ z ≤ hi := by
  obtain ⟨below, above, hbelow, habove, rfl⟩ := clamp_ok.mp hz
  obtain rfl : decide (x < lo) = below := Except.ok.inj hbelow
  obtain rfl : decide (hi < x) = above := Except.ok.inj habove
  simp only [decide_eq_true_eq]
  split_ifs <;> constructor <;> linarith

theorem le_maxNum_reals {a b z : ℝ} (hz : maxNum reals a b = .ok z) : b ≤ z := by
  obtain ⟨less, hless, rfl⟩ := maxNum_ok.mp hz
  obtain rfl : decide (a < b) = less := Except.ok.inj hless
  simp only [decide_eq_true_eq]
  split_ifs <;> linarith

theorem eq_div_of_reals {a b z : ℝ} (hz : reals.div a b = .ok z) : z = a / b := by
  change (if b = 0 then _ else _) = _ at hz
  split at hz
  · cases hz
  · exact (Except.ok.inj hz).symm

section
variable {c : Config ℝ} {sr cutoff dtf cc alpha : ℝ} {swept : Bool}

/-- The swept form is clamped to [0, 1] (R165). -/
theorem fltAlpha_swept_reals (h : fltAlpha reals c true dtf cc = .ok alpha) : 0 ≤ alpha ∧ alpha ≤ 1 := by
  obtain ⟨a, b, e, -, -, -, hclamp⟩ := fltAlpha_swept_ok.mp h
  rw [int_reals, int_reals, Nat.cast_zero, Nat.cast_one] at hclamp
  exact clamp_reals_between zero_le_one hclamp

/-- The rational form is a positive sample period over a larger number (R165). -/
theorem fltAlpha_rational_reals (hc : RealConfig c) (hdtf : 0 < dtf) (hcc : 0 < cc)
    (h : fltAlpha reals c false dtf cc = .ok alpha) : 0 < alpha ∧ alpha < 1 := by
  obtain ⟨a, b, e, g, ha, hb, he, hg, halpha⟩ := fltAlpha_rational_ok.mp h
  have ha : 2 * Real.pi = a := by simpa [int_reals, hc.pi_eq] using Except.ok.inj ha
  have hb : a * cc = b := Except.ok.inj hb
  have he : e = 1 / b := by simpa [int_reals] using eq_div_of_reals he
  have hg : dtf + e = g := Except.ok.inj hg
  have hbpos : 0 < b := by rw [← hb, ← ha]; positivity
  have hepos : 0 < e := by rw [he]; positivity
  have hgpos : 0 < g := by linarith
  rw [eq_div_of_reals halpha]
  exact ⟨div_pos hdtf hgpos, (div_lt_one hgpos).mpr (by linarith)⟩

/-- The coefficient of a filter step: the sample period and the clamped cutoff are positive (R165, R166). -/
theorem fltCoefficient_reals (hc : RealConfig c) (h : fltCoefficient reals c sr cutoff swept = .ok alpha) :
    0 ≤ alpha ∧ alpha ≤ 1 ∧ (swept = false → 0 < alpha ∧ alpha < 1) := by
  obtain ⟨cc, se, dtf, hcc, hse, hdtf, halpha⟩ := fltCoefficient_ok.mp h
  cases swept with
  | true =>
    obtain ⟨h0, h1⟩ := fltAlpha_swept_reals halpha
    exact ⟨h0, h1, fun h => nomatch h⟩
  | false =>
    have hcc : 0 < cc := by
      rw [int_reals, int_reals] at hcc
      exact (by norm_num : (0 : ℝ) < (20 : ℕ)).trans_le (clamp_reals_between (by norm_num) hcc).1
    have hse : 0 < se := hc.epsDiv_pos.trans_le (le_maxNum_reals hse)
    have hdtf : 0 < dtf := by
      rw [eq_div_of_reals hdtf]
      exact div_pos (by simp [int_reals]) hse
    obtain ⟨h0, h1⟩ := fltAlpha_rational_reals hc hdtf hcc halpha
    exact ⟨h0.le, h1.le, fun _ => ⟨h0, h1⟩⟩

/-- A filter step shrinks the error by `1 - alpha` (R167). -/
theorem fltStep_reals_error {y x z : ℝ} (h : fltStep reals c sr y x cutoff swept = .ok z)
    (halpha : fltCoefficient reals c sr cutoff swept = .ok alpha) : z - x = (1 - alpha) * (y - x) := by
  obtain ⟨alpha', d, m, halpha', hd, hm, hz⟩ := fltStep_ok.mp h
  obtain rfl : alpha = alpha' := Except.ok.inj (halpha.symm.trans halpha')
  obtain rfl : x - y = d := Except.ok.inj hd
  obtain rfl : alpha * (x - y) = m := Except.ok.inj hm
  obtain rfl : y + alpha * (x - y) = z := Except.ok.inj hz
  ring

end

/-- Where the difference from `x` is a part of another's, the number is between. -/
theorem between_of_sub_eq_mul {q a x z : ℝ} (h0 : 0 ≤ q) (h1 : q ≤ 1) (h : z - x = q * (a - x)) :
    min a x ≤ z ∧ z ≤ max a x := by
  have hz : z = q • a + (1 - q) • x := by rw [smul_eq_mul, smul_eq_mul]; linarith
  rw [hz]
  exact ⟨Convex.min_le_combo a x h0 (by linarith) (by ring), Convex.combo_le_max a x h0 (by linarith) (by ring)⟩

/-- Settles O58: every step has the coefficient of the first, so by induction the error is a power's part of the first. -/
theorem realFilterConverges : Obligations.RealFilterConverges := by
  intro c sr x cutoff swept y hc hstep
  obtain ⟨alpha, -, -, halpha, -⟩ := fltStep_ok.mp (hstep 0)
  obtain ⟨h0, h1, hrational⟩ := fltCoefficient_reals hc halpha
  have herror : ∀ n, y n - x = (1 - alpha) ^ n * (y 0 - x) := by
    intro n
    induction n with
    | zero => simp
    | succ n ih => rw [fltStep_reals_error (hstep n) halpha, ih, pow_succ']; ring
  exact ⟨alpha, h0, h1, hrational, herror, fun n =>
    between_of_sub_eq_mul (pow_nonneg (by linarith) n) (pow_le_one₀ (by linarith) (by linarith)) (herror n)⟩

end Sys2Proof.Machine
end

section
/-! PROOFS. 46_voice_graph.md R181: the composite commands check before they write. -/

namespace Sys2Proof.Machine

/-- Settles O49: a reserved mode is tested first, then the table, as for every operation that looks up. -/
theorem compositeFaultsComeFirst : Obligations.CompositeFaultsComeFirst := by
  intro s
  refine ⟨fun h => exec_of_raises (.vgBankMode (cmod_eq_none h)),
    fun ⟨k, h⟩ => exec_of_raises (.vgTrioMode k (cmod_eq_none h)), fun hm hsd hb => ?_, fun hm hsd hb hsine => ?_,
    fun f => ⟨sameRegs_raise _ f, fun _ => rfl⟩⟩
  · obtain ⟨-, hbank, -⟩ := (lookupBeforeBuildFaults s hb).2 hsd
    exact hbank hm
  · obtain ⟨-, -, htrio⟩ := (lookupBeforeBuildFaults s hb).2 hsd
    exact htrio hm hsine

end Sys2Proof.Machine
end

section
/-! PROOFS. 46_voice_graph.md R176, R177: `VG.BANK` completes with the values of its stages. -/

namespace Sys2Proof.Machine

/-- A control voltage whose product with 0.1 answers is brought to [0, 1] (R177). -/
theorem cvUnit_f32 {x u : NumWord} (hu : F32.mul x 0x3DCCCCCD = .ok u) : cvUnit f32 x = .ok (clampWord u 0 oneW) := by
  have tenth : cvScale f32 = 0x3DCCCCCD := by decide +kernel
  rw [cvUnit, tenth]
  exact calc_bind_ok.mpr ⟨u, hu, clamp_unit (F32.mul_not_nan hu)⟩

/-- The amplitude factor by `CFG0.AC` (R177). -/
theorem ampFactor_f32 {v : Voice NumWord} {af : NumWord}
    (h : if v.cfg0.getLsbD 4 then ∃ u, F32.mul (v.num .ampCv) 0x3DCCCCCD = .ok u ∧ af = clampWord u 0 oneW
      else af = oneW) : ampFactor f32 v = .ok af := by
  unfold ampFactor ac
  split at h
  next hac =>
    obtain ⟨u, hu, rfl⟩ := h
    rw [if_pos hac, cvUnit_f32 hu]
  next hac => rw [if_neg hac, int_one, h]

theorem ampFactor_congr {ν : Type} {N : Numerics ν} {v w : Voice ν} (h0 : w.cfg0 = v.cfg0)
    (hcv : w.num .ampCv = v.num .ampCv) : ampFactor N w = ampFactor N v := by
  unfold ampFactor
  rw [h0, hcv]

/-- The bank and then the envelope leave all but the registers they write. -/
theorem sameRegs_hbTick_envStep {c : Config NumWord} {f : NumWord} {v v1 v2 : Voice NumWord}
    (hbank : hbTick f32 c (v.setNum (.freq 0) f) = .ok v1) (henv : envStep f32 c 0 v1 = .ok v2) :
    SameRegsBut (.num (.freq 0) :: (bankRegs ++ envRegs 0)) v v2 :=
  sameRegs_trans (sameRegs_trans (sameRegs_setNum _ _ (sameRegs_refl _ _) (by decide))
    (sameRegs_mono (hbTick_frame hbank).1 (by decide))) (sameRegs_mono (envStep_frame henv).1 (by decide))

/-- Settles O47: the bank and the envelope keep what the later stages read, so these run on the state before the step. -/
theorem bankInstrumentTick : Obligations.BankInstrumentTick := by
  intro s m f co y e af o v1 v2 hm hb hf hbank henv hco hy he haf ho
  have hkept := sameRegs_hbTick_envStep hbank henv
  have hcfg0 : v2.cfg0 = s.voice.cfg0 := hkept .cfg0 (by decide)
  have hcfgc : v2.cfgc.get 0 = s.voice.cfgc.get 0 := hkept (.cfgc 0) (by decide)
  have hnum (r : NumReg) (hr : .num r ∉ .num (.freq 0) :: (bankRegs ++ envRegs 0)) : v2.num r = s.voice.num r :=
    hkept (.num r) hr
  have hbankNum (r : NumReg) (hr : .num r ∉ envRegs 0) : v2.num r = v1.num r := (envStep_frame henv).1 (.num r) hr
  have hfreq : v2.num (.freq 0) = f :=
    calc v2.num (.freq 0) = v1.num (.freq 0) := hbankNum _ (by decide)
      _ = (s.voice.setNum (.freq 0) f).num (.freq 0) := (hbTick_frame hbank).1 (.num (.freq 0)) (by decide)
      _ = f := by simp
  obtain ⟨v3, hv3⟩ : ∃ v3, v3 = (v2.setNum (.cutoff 0) co).setNum (.fltOut 0) y := ⟨_, rfl⟩
  have hfilter : filterStage f32 s.config 0 m (v2.num .hbOut) v2 = .ok v3 := by
    refine filterStage_ok.mpr ⟨co, y, ?_, ?_, hv3.symm⟩
    · rwa [hnum (.cut 0) (by decide), hnum (.cutCv 0) (by decide)]
    · rwa [hnum .sr (by decide), hnum (.fltOut 0) (by decide), hbankNum .hbOut (by decide), hcfgc]
  have hproduct : f32.mul (v3.num (.fltOut 0)) (v3.num (.envOut 0)) = .ok e := by
    simpa [hv3] using show f32.mul y (v2.num (.envOut 0)) = .ok e from he
  have hamp : ampFactor f32 v3 = .ok af :=
    (ampFactor_congr (by simp [hv3, hcfg0]) (by simp [hv3, hnum .ampCv (by decide)])).trans (ampFactor_f32 haf)
  have htick := bankTick_ok.mpr ⟨f, v1, v2, v3, e, af, o, hf, hbank, henv, hfilter, hproduct, hamp, ho, rfl⟩
  obtain ⟨hregs, htable⟩ := bankTick_frame htick
  refine ⟨_, exec_of_performs (.vgBank hm (bankUnbuilt_eq_false.mpr hb) htick), ?_⟩
  subst hv3
  refine ⟨by simp [hfreq], by simp [hbankNum .hbOut (by decide)], fun i => ?_, fun i => ⟨?_, ?_⟩, by simp [Voice.envUnit],
    by simp, by simp, by simp, by simp, by simp, by simp, frame_withVoice hregs htable⟩
  · simp [hbankNum (.ph (slotPhase i)) (by simp [envRegs])]
  · simp [hbankNum (.slotF i) (by simp [envRegs])]
  · simp [hbankNum (.slotA i) (by simp [envRegs])]

end Sys2Proof.Machine
end

section
/-! PROOFS. 46_voice_graph.md R178: what a chain of `VG.TRIO` computes from what it reads, and that no other chain writes
any of that. -/

namespace Sys2Proof.Machine

variable {ν : Type} {N : Numerics ν} {c : Config ν} {af : ν} {v w : Voice ν} {j k : Fin 3} {m : CutMode}

/-! One chain -/

/-- The values the rule of one chain names (R178). -/
structure ChainValues (ν : Type) where
  freq : ν
  phase : ν
  width : ν
  wave : ν
  env : EnvUnit ν
  cutoff : ν
  filtered : ν
  gained : ν
  shaped : ν
  out : ν

/-- `ChainGives N c af v k m q`: on the block `v` the stages of chain `k` give the values `q` (R178). -/
structure ChainGives (N : Numerics ν) (c : Config ν) (af : ν) (v : Voice ν) (k : Fin 3) (m : CutMode)
    (q : ChainValues ν) : Prop where
  freq : chainFreq N c v k = .ok q.freq
  phase : phaseAdvance N (v.num (.ph (chainPhase k))) q.freq (v.num .dt) = .ok q.phase
  width : pulseWidth N (v.num (.pw k)) (v.num (.pwmAmt k)) (v.num (.pwmCv k)) = .ok q.width
  wave : waveOf N c v (waveSel (v.cfgc.get k)) q.phase q.width = .ok q.wave
  env : envStepUnit N c (v.envIn k) (v.envUnit k) = .ok q.env
  cutoff : cutoffBy N c m (v.num (.cut k)) (v.num (.cutCv k)) = .ok q.cutoff
  filtered : fltStep N c (v.num .sr) (v.num (.fltOut k)) q.wave q.cutoff (sw (v.cfgc.get k)) = .ok q.filtered
  gained : N.mul (outGain N v.cfg0) q.filtered = .ok q.gained
  shaped : N.mul q.gained q.env.out = .ok q.shaped
  out : N.mul q.shaped af = .ok q.out

/-- The stages give no other values. -/
theorem ChainGives.unique {q r : ChainValues ν} (h : ChainGives N c af v k m q) (h' : ChainGives N c af v k m r) :
    q = r := by
  have same {α : Type} {x : Calc α} {a b : α} (ha : x = .ok a) (hb : x = .ok b) : a = b :=
    Except.ok.inj (ha.symm.trans hb)
  obtain ⟨freq, phase, width, wave, env, cutoff, filtered, gained, shaped, out⟩ := q
  obtain rfl := same h.freq h'.freq
  obtain rfl := same h.phase h'.phase
  obtain rfl := same h.width h'.width
  obtain rfl := same h.wave h'.wave
  obtain rfl := same h.env h'.env
  obtain rfl := same h.cutoff h'.cutoff
  obtain rfl := same h.filtered h'.filtered
  obtain rfl := same h.gained h'.gained
  obtain rfl := same h.shaped h'.shaped
  obtain rfl := same h.out h'.out
  rfl

/-- The block with the registers of chain `k` written. -/
def Voice.writeChain (v : Voice ν) (k : Fin 3) (q : ChainValues ν) : Voice ν :=
  ((((((v.setNum (.freq k) q.freq).setNum (.ph (chainPhase k)) q.phase).setNum (.width k) q.width).setEnvUnit k
    q.env).setNum (.cutoff k) q.cutoff).setNum (.fltOut k) q.filtered).setNum (.out k) q.out

/-- A tick of a chain writes the values its stages give on the block before (R178). -/
theorem chainTick_iff : chainTick N c af k m v = .ok w ↔ ∃ q, ChainGives N c af v k m q ∧ v.writeChain k q = w := by
  rw [chainTick_ok]
  constructor
  · rintro ⟨f, p, wd, x, v2, v3, g, e, o, hf, hp, hwd, hx, henv, hflt, hg, he, ho, rfl⟩
    obtain ⟨u, hu, rfl⟩ := envStep_ok.mp henv
    obtain ⟨co, y, hco, hy, rfl⟩ := filterStage_ok.mp hflt
    refine ⟨⟨f, p, wd, x, u, co, y, g, e, o⟩, ⟨hf, hp, hwd, hx, ?_, ?_, ?_, ?_, ?_, ho⟩, rfl⟩
    · simpa [Voice.envIn, Voice.envUnit] using hu
    · simpa using hco
    · simpa using hy
    · simpa using hg
    · simpa using he
  · rintro ⟨q, h, rfl⟩
    refine ⟨q.freq, q.phase, q.width, q.wave, _, _, q.gained, q.shaped, q.out, h.freq, h.phase, h.width, h.wave,
      envStep_ok.mpr ⟨q.env, ?_, rfl⟩, filterStage_ok.mpr ⟨q.cutoff, q.filtered, ?_, ?_, rfl⟩, ?_, ?_, h.out, rfl⟩
    · simpa [Voice.envIn, Voice.envUnit] using h.env
    · simpa using h.cutoff
    · simpa using h.filtered
    · simpa using h.gained
    · simpa using h.shaped

/-! What a chain reads -/

/-- The `Num` registers chain `k` reads, the shared inputs among them (R178). -/
def chainReads (k : Fin 3) : List NumReg :=
  [.dt, .sr, .ampCv, .pitch k, .fabs k, .pw k, .pwmAmt k, .pwmCv k, .gateV k, .att k, .dec k, .sus k, .rel k, .cut k,
    .cutCv k, .ph (chainPhase k), .envOut k, .envProg k, .envRel0 k, .fltOut k]

/-- The two blocks hold the same of all that chain `k` reads. -/
structure SameForChain (k : Fin 3) (v w : Voice ν) : Prop where
  num : ∀ r ∈ chainReads k, w.num r = v.num r
  cfg0 : w.cfg0 = v.cfg0
  cfgc : w.cfgc.get k = v.cfgc.get k
  envSt : w.envSt.get k = v.envSt.get k
  envGprev : w.envGprev.get k = v.envGprev.get k
  wt : w.wt = v.wt

theorem SameForChain.ampFactor (h : SameForChain k v w) : ampFactor N w = ampFactor N v :=
  ampFactor_congr h.cfg0 (h.num .ampCv (by simp [chainReads]))

theorem SameForChain.symm (h : SameForChain k v w) : SameForChain k w v :=
  ⟨fun r hr => (h.num r hr).symm, h.cfg0.symm, h.cfgc.symm, h.envSt.symm, h.envGprev.symm, h.wt.symm⟩

/-- A chain gives the same values on a block that holds the same of all it reads. -/
theorem SameForChain.gives (h : SameForChain k v w) {q : ChainValues ν} (hq : ChainGives N c af v k m q) :
    ChainGives N c af w k m q := by
  have hnum : ∀ r ∈ chainReads k, w.num r = v.num r := h.num
  simp only [chainReads, List.forall_mem_cons, List.not_mem_nil, false_implies, implies_true, and_true] at hnum
  obtain ⟨hdt, hsr, -, hpitch, hfabs, hpw, hpwmAmt, hpwmCv, hgate, hatt, hdec, hsus, hrel, hcut, hcutCv, hph, hout,
    hprog, hrel0, hflt⟩ := hnum
  have hfreq : chainFreq N c w k = chainFreq N c v k := by simp only [chainFreq, h.cfgc, hfabs, hpitch]
  have hwave (sel : Wave) (p wd : ν) : waveOf N c w sel p wd = waveOf N c v sel p wd := by
    cases sel with
    | sine => simp only [waveOf, sineBy, h.cfg0, h.wt]
    | triangle | saw | square => rfl
  have henvIn : w.envIn k = v.envIn k := by simp only [Voice.envIn, hgate, hdt, hatt, hdec, hsus, hrel]
  have henvUnit : w.envUnit k = v.envUnit k := by
    simp only [Voice.envUnit, h.envSt, hout, hprog, h.envGprev, hrel0]
  exact
    { freq := hfreq.trans hq.freq
      phase := by rw [hph, hdt]; exact hq.phase
      width := by rw [hpw, hpwmAmt, hpwmCv]; exact hq.width
      wave := by rw [hwave, h.cfgc]; exact hq.wave
      env := by rw [henvIn, henvUnit]; exact hq.env
      cutoff := by rw [hcut, hcutCv]; exact hq.cutoff
      filtered := by rw [hsr, hflt, h.cfgc]; exact hq.filtered
      gained := by rw [h.cfg0]; exact hq.gained
      shaped := hq.shaped
      out := hq.out }

/-! What a chain writes -/

theorem chainPhase_inj : chainPhase j = chainPhase k ↔ j = k := by simp [chainPhase, Fin.ext_iff]

/-- A chain writes none of the registers another one reads. -/
theorem not_mem_chainRegs_of_mem_chainReads : ∀ j k, j ≠ k → ∀ r ∈ chainReads k, Reg.num r ∉ chainRegs j := by decide

theorem Voice.num_writeChain_of_not_mem {r : NumReg} (v : Voice ν) (q : ChainValues ν) (hr : Reg.num r ∉ chainRegs k) :
    (v.writeChain k q).num r = v.num r := by
  simp only [chainRegs, envRegs, List.cons_append, List.nil_append, List.mem_cons, Reg.num.injEq, not_or] at hr
  simp [Voice.writeChain, hr]

/-- A chain leaves all that another one reads. -/
theorem sameForChain_writeChain (v : Voice ν) (q : ChainValues ν) (h : j ≠ k) : SameForChain k v (v.writeChain j q) where
  num r hr := v.num_writeChain_of_not_mem q (not_mem_chainRegs_of_mem_chainReads j k h r hr)
  cfg0 := by simp [Voice.writeChain]
  cfgc := by simp [Voice.writeChain]
  envSt := by simp [Voice.writeChain, h.symm]
  envGprev := by simp [Voice.writeChain, h.symm]
  wt := by simp [Voice.writeChain]

/-- What a chain gives, it gives after another one too. -/
theorem chainGives_writeChain {q r : ChainValues ν} (h : j ≠ k) :
    ChainGives N c af (v.writeChain j q) k m r ↔ ChainGives N c af v k m r :=
  ⟨(sameForChain_writeChain v q h).symm.gives, (sameForChain_writeChain v q h).gives⟩

/-- The registers of chain `k` hold the values `q`. -/
def Voice.HoldsChain (v : Voice ν) (k : Fin 3) (q : ChainValues ν) : Prop :=
  v.num (.freq k) = q.freq ∧ v.num (.ph (chainPhase k)) = q.phase ∧ v.num (.width k) = q.width ∧
    v.envUnit k = q.env ∧ v.num (.cutoff k) = q.cutoff ∧ v.num (.fltOut k) = q.filtered ∧ v.num (.out k) = q.out

theorem Voice.holdsChain_writeChain_self (v : Voice ν) (k : Fin 3) (q : ChainValues ν) :
    (v.writeChain k q).HoldsChain k q := by
  simp [Voice.HoldsChain, Voice.writeChain, Voice.envUnit]

theorem Voice.holdsChain_writeChain_of_ne {q r : ChainValues ν} (h : j ≠ k) :
    (v.writeChain j q).HoldsChain k r ↔ v.HoldsChain k r := by
  simp [Voice.HoldsChain, Voice.writeChain, Voice.envUnit, chainPhase_inj, h.symm]

/-- The registers of a chain are read off the values it holds. -/
theorem Voice.HoldsChain.word_eq {v w : Voice NumWord} {q : ChainValues NumWord} (hv : v.HoldsChain k q)
    (hw : w.HoldsChain k q) : ∀ r ∈ chainRegs k, w.word r = v.word r := by
  obtain ⟨hfreq, hph, hwidth, henv, hcutoff, hflt, hout⟩ := hv
  obtain ⟨hfreq', hph', hwidth', henv', hcutoff', hflt', hout'⟩ := hw
  have hunit := henv'.trans henv.symm
  simp only [Voice.envUnit, EnvUnit.mk.injEq] at hunit
  obtain ⟨hst, hlevel, hprog, hgprev, hrel0⟩ := hunit
  simp [chainRegs, envRegs, Voice.word, *]

/-! The three chains in order -/

/-- The block with the registers of the three chains and `MIX` written. -/
def Voice.writeTrio (v : Voice ν) (q : Fin 3 → ChainValues ν) (x : ν) : Voice ν :=
  (((v.writeChain 0 (q 0)).writeChain 1 (q 1)).writeChain 2 (q 2)).setNum .mix x

theorem Voice.holdsChain_writeTrio (v : Voice ν) (q : Fin 3 → ChainValues ν) (x : ν) (k : Fin 3) :
    (v.writeTrio q x).HoldsChain k (q k) := by
  suffices h : (((v.writeChain 0 (q 0)).writeChain 1 (q 1)).writeChain 2 (q 2)).HoldsChain k (q k) by
    simpa [Voice.HoldsChain, Voice.envUnit, Voice.writeTrio] using h
  match k with
  | 0 =>
    rw [holdsChain_writeChain_of_ne (by decide), holdsChain_writeChain_of_ne (by decide)]
    exact v.holdsChain_writeChain_self 0 (q 0)
  | 1 =>
    rw [holdsChain_writeChain_of_ne (by decide)]
    exact (v.writeChain 0 (q 0)).holdsChain_writeChain_self 1 (q 1)
  | 2 => exact ((v.writeChain 0 (q 0)).writeChain 1 (q 1)).holdsChain_writeChain_self 2 (q 2)

/-- `VG.TRIO` chain by chain, every chain's values on the block before (R178, R179). -/
theorem trioTick_iff {m : Fin 3 → CutMode} :
    trioTick N c (m 0) (m 1) (m 2) v = .ok w ↔ ∃ af q x, ampFactor N v = .ok af ∧
      (∀ k, ChainGives N c af v k (m k) (q k)) ∧ mixOf N (q 0).out (q 1).out (q 2).out = .ok x ∧
      v.writeTrio q x = w := by
  have hout (q : Fin 3 → ChainValues ν) (k : Fin 3) :
      (((v.writeChain 0 (q 0)).writeChain 1 (q 1)).writeChain 2 (q 2)).num (.out k) = (q k).out := by
    obtain ⟨-, -, -, -, -, -, h⟩ := v.holdsChain_writeTrio q (q k).out k
    simpa [Voice.writeTrio] using h
  rw [trioTick_ok]
  constructor
  · rintro ⟨af, v0, v1, v2, x, haf, h0, h1, h2, hx, rfl⟩
    obtain ⟨q0, hq0, rfl⟩ := chainTick_iff.mp h0
    obtain ⟨q1, hq1, rfl⟩ := chainTick_iff.mp h1
    obtain ⟨q2, hq2, rfl⟩ := chainTick_iff.mp h2
    rw [chainGives_writeChain (by decide)] at hq1
    rw [chainGives_writeChain (by decide), chainGives_writeChain (by decide)] at hq2
    refine ⟨af, ![q0, q1, q2], x, haf, fun k => ?_, ?_, rfl⟩
    · match k with
      | 0 => exact hq0
      | 1 => exact hq1
      | 2 => exact hq2
    · have houts := hout ![q0, q1, q2]
      rw [← houts 0, ← houts 1, ← houts 2]
      exact hx
  · rintro ⟨af, q, x, haf, hq, hx, rfl⟩
    refine ⟨af, _, _, _, x, haf, chainTick_iff.mpr ⟨q 0, hq 0, rfl⟩, chainTick_iff.mpr ⟨q 1, ?_, rfl⟩,
      chainTick_iff.mpr ⟨q 2, ?_, rfl⟩, ?_, rfl⟩
    · exact (chainGives_writeChain (by decide)).mpr (hq 1)
    · exact (chainGives_writeChain (by decide)).mpr ((chainGives_writeChain (by decide)).mpr (hq 2))
    · rw [hout, hout, hout]
      exact hx

end Sys2Proof.Machine
end

section
/-! PROOFS. 46_voice_graph.md R178: the three chains are independent. -/

namespace Sys2Proof.Machine

/-- A command that leaves no fault bit set has performed its rule. -/
theorem performs_of_noFault {i : Instr} {s t : State} (h : exec i s = .next t) (ht : t.voice.noFault) :
    Performs f32 s.config s.voice i t.voice := by
  obtain ⟨w, hw, rfl⟩ := exec_next.mp h
  obtain ⟨f, -, rfl⟩ | hp := runCommand_ok hw
  · exact absurd (ht f) (by simp)
  · exact hp

/-- Where `VG.TRIO` performs its rule, every chain holds what it gives on the state before the step. -/
theorem exists_holdsChain_of_vgTrio {s t : State} (h : exec (.vgTrio 0) s = .next t) (ht : t.voice.noFault) (k : Fin 3) :
    ∃ m af q, cmod (s.voice.cfgc.get k) = some m ∧ ampFactor f32 s.voice = .ok af ∧
      ChainGives f32 s.config af s.voice k m q ∧ t.voice.HoldsChain k q := by
  cases performs_of_noFault h ht with
  | @vgTrio m0 m1 m2 _ h0 h1 h2 _ hw =>
    obtain ⟨af, q, x, haf, hq, -, hwrite⟩ := (trioTick_iff (m := ![m0, m1, m2])).mp hw
    refine ⟨![m0, m1, m2] k, af, q k, ?_, haf, hq k, hwrite ▸ s.voice.holdsChain_writeTrio q x k⟩
    match k with
    | 0 => exact h0
    | 1 => exact h1
    | 2 => exact h2

/-- Settles O50: the chain holds the values it gives, and it gives the same on both states. -/
theorem chainsAreIndependent : Obligations.ChainsAreIndependent := by
  intro s s' t t' k hnum h0 hcfgc hst hgprev hwt hparams _ _ h h' ht ht'
  have hsame : SameForChain k s.voice s'.voice := ⟨hnum, h0, hcfgc, hst, hgprev, hwt⟩
  have hconfig : s'.config = s.config := congrArg configOf hparams
  obtain ⟨m, af, q, hm, haf, hq, hholds⟩ := exists_holdsChain_of_vgTrio h ht k
  obtain ⟨m', af', q', hm', haf', hq', hholds'⟩ := exists_holdsChain_of_vgTrio h' ht' k
  obtain rfl : m = m' := Option.some.inj (hm.symm.trans (hcfgc ▸ hm'))
  obtain rfl : af = af' := Except.ok.inj (haf.symm.trans (hsame.ampFactor.symm.trans haf'))
  rw [hconfig] at hq'
  obtain rfl := (hsame.gives hq).unique hq'
  exact hholds.word_eq hholds'

end Sys2Proof.Machine
end

section
/-! PROOFS. 46_voice_graph.md R178, R179: `VG.TRIO` completes with the values of its stages. -/

namespace Sys2Proof.Machine

open F32

theorem waveSel_ne_sine {w : Word} (h : (w.extractLsb' 0 2).toNat ≠ 0) : waveSel w ≠ .sine := by
  unfold waveSel
  split
  next h0 => exact absurd h0 h
  all_goals nofun

/-- The table is built where a chain needs it (R181). -/
theorem trioUnbuilt_eq_false {ν : Type} {v : Voice ν} (h : v.cfg0.getLsbD 2 = true ∨ v.status.getLsbD 0 = true ∨
    ∀ k, ((v.cfgc.get k).extractLsb' 0 2).toNat ≠ 0) : trioUnbuilt v = false := by
  rw [← or_assoc] at h
  obtain h | h := h
  · rw [trioUnbuilt, bankUnbuilt_eq_false.mpr h, Bool.false_and]
  · simp [trioUnbuilt, waveSel_ne_sine (h _)]

/-- The waveform bits 1:0 of `CFGC[k]` select, at a phase and a width that are no NaN (42_waveform.md R133). -/
theorem waveOf_f32 {c : Config NumWord} {v : Voice NumWord} {w : Word} {p wd x : NumWord} (hp : isNaN p = false)
    (hwd : isNaN wd = false)
    (h : if (w.extractLsb' 0 2).toNat = 0 then
        (if v.cfg0.getLsbD 2 then F32.app c.sin2pi p = .ok x else wtLookup f32 c v.wt p = .ok x)
      else if (w.extractLsb' 0 2).toNat = 1 then
        ∃ q, F32.mul 0x40800000 p = .ok q ∧
          (if key p < key 0x3F000000 then F32.sub q oneW = .ok x else F32.sub 0x40400000 q = .ok x)
      else if (w.extractLsb' 0 2).toNat = 2 then ∃ q, F32.mul 0x40000000 p = .ok q ∧ F32.sub q oneW = .ok x
      else x = if key p < key (clampWord wd 0x3C23D70A 0x3F7D70A4) then oneW else 0xBF800000) :
    waveOf f32 c v (waveSel w) p wd = .ok x := by
  unfold waveSel
  generalize (w.extractLsb' 0 2).toNat = n at h ⊢
  match n with
  | 0 =>
    change sineBy f32 c v p = .ok x
    rw [if_pos rfl] at h
    unfold sineBy sd
    split at h
    next hsd => rwa [if_pos hsd]
    next hsd => rwa [if_neg hsd]
  | 1 =>
    obtain ⟨q, hq, h⟩ := h
    change tri f32 p = .ok x
    rw [tri_f32 hp hq]
    split at h
    next hrising => rwa [if_pos hrising]
    next hrising => rwa [if_neg hrising]
  | 2 =>
    obtain ⟨q, hq, h⟩ := h
    exact (saw_f32 hq).trans h
  | n + 3 =>
    change square f32 p wd = .ok x
    rw [square_f32 hp hwd]
    exact congrArg Except.ok h.symm

/-- Settles O48: the given values are those of the chains on the state before the step. -/
theorem trioInstrumentTick : Obligations.TrioInstrumentTick := by
  intro s m af f p w x co y g e o u a b c hm hb haf hf hp hw hx hu hco hy hg he ho ha hab hc
  let q : Fin 3 → ChainValues NumWord := fun k => ⟨f k, p k, w k, x k, u k, co k, y k, g k, e k, o k⟩
  have hq (k : Fin 3) : ChainGives f32 s.config af s.voice k (m k) (q k) :=
    { freq := hf k
      phase := hp k
      width := hw k
      wave := waveOf_f32 (phaseAdvance_number _ _ _ _ (hp k)) (pulseWidth_number _ _ _ _ (hw k)) (hx k)
      env := hu k
      cutoff := hco k
      filtered := hy k
      gained := by rw [outGain_f32]; exact hg k
      shaped := he k
      out := ho k }
  have three : int f32 3 = 0x40400000 := by decide +kernel
  have hmix : mixOf f32 (o 0) (o 1) (o 2) = .ok c :=
    calc_bind_ok.mpr ⟨a, ha, calc_bind_ok.mpr ⟨b, hab, by rw [three]; exact hc⟩⟩
  have htick := trioTick_iff.mpr ⟨af, q, c, haf, hq, hmix, rfl⟩
  obtain ⟨hregs, htable⟩ := trioTick_frame htick
  exact ⟨_, exec_of_performs (.vgTrio (hm 0) (hm 1) (hm 2) (trioUnbuilt_eq_false hb) htick), by simp [Voice.writeTrio],
    s.voice.holdsChain_writeTrio q c, frame_withVoice hregs htable⟩

end Sys2Proof.Machine
end

section
/-! PROOFS. 60_exceptions.md R201 to R204: which fault a step raises, that it does nothing else, and that no step clears
one. -/

namespace Sys2Proof.Machine

/-! What a step does to the fault bits -/

/-- `StepRaises s f`: `f` is a fault of the first pending action of `s`: `F_REG` of a register access, `F_ILL` of an
illegal word, or the fault its command raises on the block (20_memory.md R64 to R66, 30_encoding.md R84). -/
inductive StepRaises (s : State) : FaultBit → Prop
  | write {n : RegNum} {w : Word} {rest : List HostAction} (hp : s.pending = .writeReg n w :: rest) :
    StepRaises s .reg
  | read {n : RegNum} {rest : List HostAction} (hp : s.pending = .readReg n :: rest) : StepRaises s .reg
  | illegal {cmd : Cmd} {rest : List HostAction} (hp : s.pending = .exec cmd :: rest)
    (hd : decode cmd = .error .illegal) : StepRaises s .ill
  | command {f : FaultBit} {i : Instr} {rest : List HostAction} (hp : s.pending = .exec (encode i) :: rest)
    (hi : Raises s.voice i f) : StepRaises s f

/-- The two blocks have the same fault bits set. -/
def SameFaults (v w : Voice NumWord) : Prop := ∀ f, w.faultBit f = v.faultBit f

theorem SameFaults.of_status {v w : Voice NumWord} (h : w.status = v.status) : SameFaults v w := fun f => by
  rw [Voice.faultBit, h, Voice.faultBit]

section
variable {s t : State} {rest : List HostAction}

/-- What a `WriteReg` stores is never `STATUS`. -/
theorem hostWrite_faults {n : RegNum} {w : Word} (h : hostWrite n w s = .next t) :
    SameFaults s.voice t.voice ∨ t.voice = s.voice.raise .reg := by
  unfold hostWrite at h
  split at h
  case h_1 | h_2 => cases h; exact .inl (.of_status rfl)
  case h_3 =>
    split at h
    · split at h
      · cases h; exact .inl (.of_status (Voice.status_setNum _ _ _))
      · cases h
    · cases h; exact .inr rfl
  all_goals cases h; exact .inr rfl

theorem hostRead_faults {n : RegNum} (h : hostRead n s = .next t) :
    SameFaults s.voice t.voice ∨ t.voice = s.voice.raise .reg := by
  unfold hostRead at h
  split at h
  · cases h; exact .inl (.of_status rfl)
  · cases h; exact .inr rfl

theorem exec_faults {i : Instr} (h : exec i s = .next t) :
    SameFaults s.voice t.voice ∨ ∃ f, Raises s.voice i f ∧ t.voice = s.voice.raise f := by
  obtain ⟨w, hw, rfl⟩ := exec_next.mp h
  exact (runCommand_ok hw).symm.imp_left Performs.faultBit

theorem hostExec_faults {cmd : Cmd} (hp : s.pending = .exec cmd :: rest)
    (h : hostExec cmd (s.taken rest) = .next t) :
    SameFaults s.voice t.voice ∨ ∃ f, StepRaises s f ∧ t.voice = s.voice.raise f := by
  unfold hostExec at h
  split at h
  next hd =>
    rw [← encode_of_decode hd] at hp
    exact (exec_faults h).imp_right fun ⟨f, hf, ht⟩ => ⟨f, .command hp hf, ht⟩
  next hd => cases h; exact .inr ⟨.ill, .illegal hp hd, rfl⟩

/-- A step that answers a next state keeps the fault bits, or raises one fault and does nothing else to the block. -/
theorem step_faults (h : step s = .next t) :
    SameFaults s.voice t.voice ∨ ∃ f, StepRaises s f ∧ t.voice = s.voice.raise f := by
  obtain ⟨-, rfl⟩ | ⟨a, rest, hp, h⟩ := step_next h
  · exact .inl (.of_status rfl)
  · cases a with
    | writeReg n w => exact (hostWrite_faults h).imp_right fun ht => ⟨.reg, .write hp, ht⟩
    | readReg n => exact (hostRead_faults h).imp_right fun ht => ⟨.reg, .read hp, ht⟩
    | exec cmd => exact hostExec_faults hp h

/-- A step that sets a fault bit raises that fault and does nothing else to the block (R201, R204). -/
theorem step_sets {f : FaultBit} (h : step s = .next t) (hs : s.voice.faultBit f = false)
    (ht : t.voice.faultBit f = true) : StepRaises s f ∧ t.voice = s.voice.raise f := by
  obtain hsame | ⟨g, hg, hv⟩ := step_faults h
  · rw [hsame f, hs] at ht
    cases ht
  · have hgf : g = f := by simpa [hv, hs] using ht
    exact hgf ▸ ⟨hg, hv⟩

end

/-- Settles O13: a step keeps the fault bits, or raises one, which clears none. -/
theorem faultBitsAreSticky : Obligations.FaultBitsAreSticky := by
  intro s t f h hs
  obtain hsame | ⟨g, -, hv⟩ := step_faults h
  · rw [hsame f, hs]
  · simp [hv, hs]

/-- Settles O14: the step raised this fault, and raising it sets its bit of `STATUS` only. -/
theorem faultingStepOnlySetsItsBit : Obligations.FaultingStepOnlySetsItsBit := by
  intro s t f h hs ht
  obtain ⟨-, hv⟩ := step_sets h hs ht
  rw [hv]
  refine ⟨sameRegs_raise _ f, fun _ => rfl, fun b _ => ?_⟩
  rw [Voice.status_raise, getLsbD_setBit _ _ _ f.bit_lt]
  simp only [eq_comm]

/-! `F_CFG` -/

theorem chainIdx_eq_some {idx : Idx} {k : Fin 3} (h : chainIdx idx = some k) : idx = BitVec.ofNat 4 k := by
  rw [← unitIdx_eq_some.mp h, BitVec.ofNat_toNat, BitVec.setWidth_eq]

/-- `CMOD` names no mode exactly at the reserved value 3 (10_state.md R29). -/
theorem cmod_eq_none_iff {w : Word} : cmod w = none ↔ w.extractLsb' 4 2 = 3 := by
  refine ⟨fun h => by_contra fun hne => ?_, cmod_eq_none⟩
  obtain ⟨m, hm⟩ := exists_cmod hne
  rw [h] at hm
  cases hm

/-- The commands that raise `F_CFG` are the three that test a `CMOD`, where it is reserved (R203). -/
theorem Raises.reserved {ν : Type} {v : Voice ν} {i : Instr} (h : Raises v i .cfg) :
    (∃ k : Fin 3, i = .cutMod (BitVec.ofNat 4 k) ∧ (v.cfgc.get k).extractLsb' 4 2 = 3) ∨
      (i = .vgBank 0 ∧ (v.cfgc.get 0).extractLsb' 4 2 = 3) ∨
      (i = .vgTrio 0 ∧ ∃ k, (v.cfgc.get k).extractLsb' 4 2 = 3) := by
  cases h with
  | cutMod hk hm => exact .inl ⟨_, by rw [chainIdx_eq_some hk], cmod_eq_none_iff.mp hm⟩
  | vgBankMode hm => exact .inr (.inl ⟨rfl, cmod_eq_none_iff.mp hm⟩)
  | vgTrioMode k hm => exact .inr (.inr ⟨rfl, k, cmod_eq_none_iff.mp hm⟩)

/-- Settles O16: each of the three commands tests its chains first; and only a command raises `F_CFG`, one of these. -/
theorem cfgFaultFromReservedModeOnly : Obligations.CfgFaultFromReservedModeOnly := by
  refine ⟨fun s k h => ?_, fun s t h hs ht => ?_⟩
  · have hm := cmod_eq_none h
    exact ⟨exec_of_raises (.cutMod (chainIdx_ofNat k) hm), exec_of_raises (.vgTrioMode k hm),
      fun hk => exec_of_raises (.vgBankMode (hk ▸ hm))⟩
  · obtain ⟨hraises, -⟩ := step_sets h hs ht
    cases hraises with
    | command hp hi => exact ⟨_, _, hp, hi.reserved⟩

end Sys2Proof.Machine
end

section
/-! PROOFS. 60_exceptions.md R201: a set fault bit changes no command's effect, because of `STATUS` no rule reads but
`WTB`. -/

namespace Sys2Proof.Machine

section
variable {ν : Type} {N : Numerics ν} {c : Config ν} {v w : Voice ν}

theorem Voice.setNum_setStatus (v : Voice ν) (x : Word) (r : NumReg) (y : ν) :
    (v.setStatus x).setNum r y = (v.setNum r y).setStatus x := by
  cases r <;> rfl

theorem Voice.setEnvUnit_setStatus (v : Voice ν) (x : Word) (k : Fin 3) (u : EnvUnit ν) :
    (v.setStatus x).setEnvUnit k u = (v.setEnvUnit k u).setStatus x := rfl

/-! The stages read nothing of `STATUS`: each does with another `STATUS` what it did -/

theorem envStep_setStatus {k : Fin 3} (h : envStep N c k v = .ok w) (x : Word) :
    envStep N c k (v.setStatus x) = .ok (w.setStatus x) := by
  obtain ⟨u, hu, rfl⟩ := envStep_ok.mp h
  exact envStep_ok.mpr ⟨u, hu, rfl⟩

theorem filterStage_setStatus {k : Fin 3} {m : CutMode} {y : ν} (h : filterStage N c k m y v = .ok w) (x : Word) :
    filterStage N c k m y (v.setStatus x) = .ok (w.setStatus x) := by
  obtain ⟨co, z, hco, hz, rfl⟩ := filterStage_ok.mp h
  exact filterStage_ok.mpr ⟨co, z, hco, hz, rfl⟩

theorem SlotGives.setStatus {fb : ν} {i : Fin 8} {q : SlotValues ν} (h : SlotGives N c fb v i q) (x : Word) :
    SlotGives N c fb (v.setStatus x) i q :=
  ⟨h.freq, h.phase, h.amp, h.sine, h.product⟩

theorem Voice.latchAll_setStatus (v : Voice ν) (x : Word) (q : Fin 8 → SlotValues ν) (l : List (Fin 8)) :
    (v.setStatus x).latchAll q l = (v.latchAll q l).setStatus x :=
  List.foldl_hom (fun w : Voice ν => w.setStatus x) fun w i => by simp only [Voice.latch, Voice.setNum_setStatus]

theorem hbTick_setStatus (h : hbTick N c v = .ok w) (x : Word) : hbTick N c (v.setStatus x) = .ok (w.setStatus x) := by
  obtain ⟨fb, q, sum, g, o, hfb, hq, hsum, hg, ho, rfl⟩ := hbTick_iff.mp h
  exact hbTick_iff.mpr ⟨fb, q, sum, g, o, hfb, fun i => (hq i).setStatus x, hsum, hg, ho,
    by rw [Voice.latchAll_setStatus, Voice.setNum_setStatus]⟩

theorem bankTick_setStatus {m : CutMode} (h : bankTick N c m v = .ok w) (x : Word) :
    bankTick N c m (v.setStatus x) = .ok (w.setStatus x) := by
  obtain ⟨f, v1, v2, v3, e, af, o, hf, h1, h2, h3, he, haf, ho, rfl⟩ := bankTick_ok.mp h
  exact bankTick_ok.mpr ⟨f, _, _, _, e, af, o, hf, hbTick_setStatus h1 x, envStep_setStatus h2 x,
    filterStage_setStatus h3 x, he, haf, ho, rfl⟩

theorem sameForChain_setStatus (v : Voice ν) (x : Word) (k : Fin 3) : SameForChain k v (v.setStatus x) :=
  ⟨fun r _ => Voice.num_setStatus v x r, rfl, rfl, rfl, rfl, rfl⟩

theorem chainTick_setStatus {af : ν} {k : Fin 3} {m : CutMode} (h : chainTick N c af k m v = .ok w) (x : Word) :
    chainTick N c af k m (v.setStatus x) = .ok (w.setStatus x) := by
  obtain ⟨q, hq, rfl⟩ := chainTick_iff.mp h
  exact chainTick_iff.mpr ⟨q, (sameForChain_setStatus v x k).gives hq,
    by simp only [Voice.writeChain, Voice.setNum_setStatus, Voice.setEnvUnit_setStatus]⟩

theorem trioTick_setStatus {m0 m1 m2 : CutMode} (h : trioTick N c m0 m1 m2 v = .ok w) (x : Word) :
    trioTick N c m0 m1 m2 (v.setStatus x) = .ok (w.setStatus x) := by
  obtain ⟨af, v0, v1, v2, y, haf, h0, h1, h2, hy, rfl⟩ := trioTick_ok.mp h
  exact trioTick_ok.mpr ⟨af, _, _, _, y, haf, chainTick_setStatus h0 x, chainTick_setStatus h1 x,
    chainTick_setStatus h2 x, hy, rfl⟩

/-! The commands read `WTB` alone: each does with another `STATUS` of the same `WTB` what it did -/

section
variable {i : Instr} {x : Word} (hx : (v.setStatus x).wtb = v.wtb)
include hx

theorem bankUnbuilt_setStatus : bankUnbuilt (v.setStatus x) = bankUnbuilt v := by
  rw [bankUnbuilt, hx, Voice.cfg0_setStatus, bankUnbuilt]

theorem trioUnbuilt_setStatus : trioUnbuilt (v.setStatus x) = trioUnbuilt v := by
  rw [trioUnbuilt, bankUnbuilt_setStatus hx, Voice.cfgc_setStatus, trioUnbuilt]

theorem Raises.setStatus {f : FaultBit} (h : Raises v i f) : Raises (v.setStatus x) i f := by
  cases h with
  | idx hi => exact .idx hi
  | wtBuild hb => exact .wtBuild (hx.trans hb)
  | wtLookup hj hb => exact .wtLookup hj (hx.trans hb)
  | wgSint hj hb => exact .wgSint hj (hx.trans hb)
  | hbTick hb => exact .hbTick ((bankUnbuilt_setStatus hx).trans hb)
  | cutMod hk hm => exact .cutMod hk hm
  | vgBankMode hm => exact .vgBankMode hm
  | vgBankTable hm hb => exact .vgBankTable hm ((bankUnbuilt_setStatus hx).trans hb)
  | vgTrioMode k hm => exact .vgTrioMode k hm
  | vgTrioTable h0 h1 h2 hb => exact .vgTrioTable h0 h1 h2 ((trioUnbuilt_setStatus hx).trans hb)

/-- `WT.BUILD` is left out: its rule writes `STATUS`. -/
theorem Performs.setStatus (h : Performs N c v i w) (hi : cmdIsBuild i = false) :
    Performs N c (v.setStatus x) i (w.setStatus x) := by
  cases h with
  | nop => exact .nop
  | wtBuild => cases hi
  | wtLookup hj hb hy => exact .wtLookup hj (hx.trans hb) hy
  | phAdv hj hq => exact .phAdv hj hq
  | phRst hj => exact .phRst hj
  | frqCv hk hf => exact .frqCv hk hf
  | wgSint hj hb hy => exact .wgSint hj (hx.trans hb) hy
  | wgSind hj hy => exact .wgSind hj hy
  | wgTri hj hy => exact .wgTri hj hy
  | wgSaw hj hy => exact .wgSaw hj hy
  | wgSqr hj hy => exact .wgSqr hj hy
  | pwMod hk hy => exact .pwMod hk hy
  | hbTick hb hw => exact .hbTick ((bankUnbuilt_setStatus hx).trans hb) (hbTick_setStatus hw x)
  | envStep hk hw => exact .envStep hk (envStep_setStatus hw x)
  | envRst hk => rw [← Voice.setEnvUnit_setStatus]; exact .envRst hk
  | fltProc hk hy => exact .fltProc hk hy
  | cutMod hk hm hy => exact .cutMod hk hm hy
  | vgBank hm hb hw => exact .vgBank hm ((bankUnbuilt_setStatus hx).trans hb) (bankTick_setStatus hw x)
  | vgTrio h0 h1 h2 hb hw => exact .vgTrio h0 h1 h2 ((trioUnbuilt_setStatus hx).trans hb) (trioTick_setStatus hw x)

end

/-! Raising a fault writes a `STATUS` of the same `WTB` -/

theorem setBit_comm (x : Word) (m n : Nat) : setBit (setBit x m) n = setBit (setBit x n) m := by
  simp only [setBit, BitVec.or_assoc, BitVec.or_comm (BitVec.twoPow 32 m)]

theorem Voice.raise_comm (v : Voice ν) (f g : FaultBit) : (v.raise f).raise g = (v.raise g).raise f :=
  congrArg v.setStatus (setBit_comm _ _ _)

end

/-- A command performs its rule with the fault raised as it did, and leaves the fault raised. -/
theorem Performs.raise {N : Numerics NumWord} {c : Config NumWord} {i : Instr} {v w : Voice NumWord}
    (h : Performs N c v i w) (f : FaultBit) : Performs N c (v.raise f) i (w.raise f) := by
  by_cases hi : cmdIsBuild i = false
  · have hs : w.status = v.status := h.frame.1 .status (status_not_mem_cmdWrites hi)
    rw [Voice.raise, Voice.raise, hs]
    exact h.setStatus (v.wtb_raise f) hi
  · cases h with
    | wtBuild hb hm =>
      rw [Voice.raise, Voice.raise, Voice.status_setStatus, setBit_comm]
      exact .wtBuild ((v.wtb_raise f).trans hb) hm
    | _ => exact absurd rfl hi

/-- Settles O15: a command that raised a fault raises it again, and one that performed its rule performs it again. -/
theorem faultBitsDoNotInfluenceCommands : Obligations.FaultBitsDoNotInfluenceCommands := by
  intro i s t f h
  obtain ⟨w, hw, rfl⟩ := exec_next.mp h
  obtain ⟨b, hb, rfl⟩ | hp := runCommand_ok hw
  · rw [State.voice_withVoice, Voice.raise_comm]
    exact exec_of_raises (hb.setStatus (s.voice.wtb_raise f))
  · exact exec_of_performs (hp.raise f)

end Sys2Proof.Machine
end

section
/-! PROOFS. 47_system.md R190: `NOP`. -/

namespace Sys2Proof.Machine

/-- Settles O26: the block `Performs.nop` leaves, its word, its limit, and its illegal words. -/
theorem nopChangesNothing : Obligations.NopChangesNothing := by
  obtain ⟨hillegal, -, -⟩ := illegalWordsRaiseTheirFault
  refine ⟨fun s => exec_of_performs .nop, encode_nop_of_wellFormed rfl, fun s idx h => exec_of_limit_le s ?_,
    fun s w _ hz => hillegal s w (.inl hz)⟩
  change 1 ≤ idx.toNat
  bv_omega

end Sys2Proof.Machine
end
